-- ==== Sys2Proof/Word.lean ====
section
/-! DEFINITION. The words of the TMS7000: bytes, 16-bit addresses and 4-bit nibbles (spec/00_scope.md R5).

Only the types stand here. The helpers that take words apart and put them together stand in
Sys2Proof/Machine/Bits.lean. -/

namespace Sys2Proof

/-- The data width of the machine: 8 bits (R5). A register, a memory cell, an operand byte. -/
abbrev Byte := BitVec 8

/-- The address width of the machine: 16 bits (R5, R24). The program counter, an effective address. -/
abbrev Addr := BitVec 16

/-- Half a byte: the bits 3..0 of a stored status byte that the spec leaves open (R28). -/
abbrev Nibble := BitVec 4

end Sys2Proof
end

