-- ==== Sys2Proof/Machine/Bits.lean ====
section
/-! DEFINITION. Taking words apart and putting them together: byte order and extension
(spec/20_memory.md R51, spec/00_scope.md R9). -/

namespace Sys2Proof.Machine

/-- Bits 15..8 of a 16-bit value, its most significant byte. -/
def hiByte (w : Addr) : Byte := w.extractLsb' 8 8

/-- Bits 7..0 of a 16-bit value, its least significant byte. -/
def loByte (w : Addr) : Byte := w.extractLsb' 0 8

/-- `hi ++ lo`: the 16-bit value with the most significant byte first (R51). -/
def wordOf (hi lo : Byte) : Addr := hi ++ lo

/-- `zext_16` (R9). -/
def zext16 (v : Byte) : Addr := v.setWidth 16

/-- `sext_16` (R9). -/
def sext16 (v : Byte) : Addr := v.signExtend 16

end Sys2Proof.Machine
end

