-- ==== Sys2Proof/Config.lean ====
section
/-! DEFINITION. What an implementation fixes, and what nothing fixes.

`Platform` holds the open parameters of the spec (spec/00_scope.md R5; the collected list at the end of
spec/92_eei_decisions.md): a state carries one, no step changes it, and a statement about every state is
a statement about every platform (log entry 2).
The opaque constants are the FREE VALUES: what the environment answers, and what the spec leaves unspecified.
They have no body, so nothing can be proved of the value they give. -/

namespace Sys2Proof

/-- The two sizes of the register file (R22, parameter `NREG`). -/
inductive RegFile
  | regs128
  | regs256
  deriving DecidableEq, Repr

/-- `NREG`: how many numbered registers there are. -/
def RegFile.size : RegFile → Nat
  | .regs128 => 128
  | .regs256 => 256

/-- What the platform puts at an address 0x0200..0xFFFF (R57, parameter `MemMap`). -/
inductive MemKind
  | ram
  | rom
  | device
  | unimplemented
  deriving DecidableEq, Repr

/-- A run of addresses of one kind. -/
structure Region where
  base : Nat
  size : Nat
  kind : MemKind
  deriving DecidableEq, Repr

/-- The two readings of the flags of `PUSH ST` (R240, parameter `PUSH_ST_FLAGS`). -/
inductive PushStFlags
  | table
  | unaffected
  deriving DecidableEq, Repr

/-- The open parameters of R5, but for `EndAddr`, which Sys2Proof/Safety.lean takes as an argument. -/
structure Platform where
  /-- `NREG`. -/
  nreg : RegFile
  /-- `MemMap` as a list of regions: the first that holds the address decides, and an address in none of
  them is unimplemented (log entry 3). -/
  memMap : List Region
  /-- `IntLevels`: the interrupt levels the platform can request (R262). -/
  intLevels : List Nat
  /-- `PUSH_ST_FLAGS`. -/
  pushStFlags : PushStFlags
  /-- `ADMIT_JN`: whether opcode E1 is taken as `JN` (R104, R255). -/
  admitJn : Bool
  /-- `ST_LOW`: bits 3..0 of a stored status byte; `none` is the default, a fresh free value on every store
  (R28). -/
  stLow : Option Nibble
  deriving DecidableEq, Repr

/-- An entry of the event history: the accesses the environment sees (R50, R55). -/
inductive Event
  /-- `P[n]` was read and the environment answered v. -/
  | periphRead (n v : Byte)
  /-- v was written to `P[n]`. -/
  | periphWrite (n v : Byte)
  /-- The device at the address was read and answered v. -/
  | deviceRead (a : Addr) (v : Byte)
  /-- v was written to the device at the address. -/
  | deviceWrite (a : Addr) (v : Byte)
  deriving DecidableEq, Repr

/-- FREE VALUE: the environment's answer to a read of `P[n]` (`EnvRead`, R50), after the event history, at the
given number of the draw (log entry 6). -/
opaque Config.periphAnswer : List Event → Nat → Byte → Byte

/-- FREE VALUE: the environment's answer to a read of a device address (`EnvReadMem`, R50; log entry 6). -/
opaque Config.deviceAnswer : List Event → Nat → Addr → Byte

/-- FREE VALUE: bits 3..0 of a stored status byte where the platform fixes none (R28; log entry 7). -/
opaque Config.statusLow : Nat → Nibble

/-- FREE VALUE: the byte `DAC` or `DSB` leaves in its destination when an operand is no valid BCD byte (R127;
log entry 8). -/
opaque Config.bcdValue : Nat → Byte

/-- FREE VALUE: C after `DAC` or `DSB` on an operand that is no valid BCD byte (R127; log entry 8). -/
opaque Config.bcdCarry : Nat → Bool

/-- FREE VALUE: N after `DAC` or `DSB` on an operand that is no valid BCD byte (R127; log entry 8). -/
opaque Config.bcdSign : Nat → Bool

/-- FREE VALUE: Z after `DAC` or `DSB` on an operand that is no valid BCD byte (R127; log entry 8). -/
opaque Config.bcdZero : Nat → Bool

end Sys2Proof
end

