-- ==== Sys2Proof/Machine/Memory.lean ====
section
/-! DEFINITION. The storage of the one 64 KiB address space (spec/10_state.md R32) as a list of cells in one
canonical form: addresses strictly rising, no cell holding what an unlisted address reads as.

The register file is the storage of the addresses 0x0000..0x00FF (R22). Nothing is ever stored at a
peripheral or device address; which addresses are which is decided in Sys2Proof/Machine/Ops.lean. -/

namespace Sys2Proof.Machine

/-- Stored bytes by address. -/
abbrev Memory := List Host.Cell

/-- What an address that is not listed reads as (DESIGN CHOICE, log entry 4: power-up contents are
unspecified, R35). -/
def unwritten : Byte := 0#8

/-- The byte stored at the address. -/
def Memory.read : Memory → Nat → Byte
  | [], _ => unwritten
  | (k, v) :: m, a => if k < a then Memory.read m a else if k = a then v else unwritten

/-- A cell in front of the cells above it, left out where it would say what an unlisted address says. -/
def Memory.place (a : Nat) (v : Byte) (m : Memory) : Memory :=
  if v = unwritten then m else (a, v) :: m

/-- Storing v at the address. -/
def Memory.write : Memory → Nat → Byte → Memory
  | [], a, v => Memory.place a v []
  | (k, w) :: m, a, v =>
    if k < a then (k, w) :: Memory.write m a v
    else Memory.place a v (((k, w) :: m).dropWhile fun c => decide (c.1 ≤ a))

/-- Whether every cell of m lies above the address and the rest rises from there, no cell holding
`unwritten`. -/
def Memory.risesFrom : Option Nat → Memory → Bool
  | _, [] => true
  | low, (k, v) :: m =>
    (match low with | none => true | some a => decide (a < k)) && (v != unwritten) && Memory.risesFrom (some k) m

/-- The canonical form. -/
def Memory.wf (m : Memory) : Bool := Memory.risesFrom none m

end Sys2Proof.Machine
end

