-- ==== Sys2Proof/Machine/State.lean ====
section
/-! DEFINITION. The state of the machine (spec/10_state.md R20), why a step can stop, and the state right after
reset. Plain data throughout. -/

namespace Sys2Proof.Machine

/-- The four bits of the status register (R28: "Model: `st` is the four bits"). -/
structure Status where
  /-- C, the carry bit. -/
  c : Bool
  /-- N, the sign bit. -/
  n : Bool
  /-- Z, the zero bit. -/
  z : Bool
  /-- I, the global interrupt enable bit. -/
  i : Bool
  deriving DecidableEq, Repr

/-- Everything the spec gives the machine, and three fields of the model's own (`events`, `draws`, `cfg`).
The numbered registers `R[0]` (A), `R[1]` (B) to `R[NREG-1]` are the bytes 0x0000 up of `mem`: "Register `R[n]` is
the memory byte at address `zext_16(n)`" (R22), one home for each. -/
structure State where
  /-- The program counter (R24). -/
  pc : Addr
  /-- The stack pointer (R25). -/
  sp : Byte
  /-- The status register (R28). -/
  st : Status
  /-- The register file and the rest of memory (R22, R32). -/
  mem : Memory
  /-- Set while the CPU waits for an interrupt (R33 a). -/
  idle : Bool
  /-- The pending interrupt requests: levels in rising order (R33 b, R262). -/
  pending : List Nat
  /-- The reset request (R33 c). -/
  resetReq : Bool
  /-- The model's own: the history of peripheral and device accesses, newest first (R50, R55). -/
  events : List Event
  /-- The model's own: how many free values have been taken (log entry 6). -/
  draws : Nat
  /-- The model's own: the platform's parameters (R5), which no step changes (log entry 2). -/
  cfg : Platform
  deriving DecidableEq, Repr

/-- Where the machine stops on an access to what the platform does not have. The spec says "Refuse" of all of
them (spec/60_exceptions.md R261) and gives the machine no fault of its own (R260): log entry 5. -/
inductive Fault
  /-- A register, a stack byte or an address 0x0000..0x00FF at or above `NREG` (R22, R50). Raised by every
  operation that reaches the register file. Safe: the model stops where the hardware goes on. -/
  | unimplementedRegister (n : Byte)
  /-- An address the `MemMap` leaves unimplemented is read, written or fetched from (R50). Safe. -/
  | unimplementedAddress (a : Addr)
  /-- A write to ROM (R50). Safe. -/
  | writeToRom (a : Addr)
  deriving DecidableEq, Repr

/-- Where the sources give a step no meaning (spec/60_exceptions.md R261). -/
inductive Refusal
  /-- An arm of exec without a meaning. None is left. Safe. -/
  | notModelled (mnemonic : String)
  /-- The opcode is one of the 32 the table does not list (R103). Raised by the fetch. Safe. -/
  | unassignedOpcode (op : Byte)
  /-- A register-pair operand names register 0 (R23). Raised by the operations on pairs. Safe. -/
  | pairAtRegister0
  deriving DecidableEq, Repr

/-- The platform the reset state stands on (DESIGN CHOICE, log entry 3): 256 registers, RAM everywhere above the
peripheral file, every level 1 to 23, and the defaults of R5. -/
def State.resetPlatform : Platform where
  nreg := .regs256
  memMap := [⟨0x0200, 0xFE00, .ram⟩]
  intLevels := [1, 2, 3, 4, 5, 6, 7, 8, 9, 10, 11, 12, 13, 14, 15, 16, 17, 18, 19, 20, 21, 22, 23]
  pushStFlags := .table
  admitJn := false
  stLow := none

/-- The machine right after reset at power-up (spec/10_state.md R35, spec/70_reset_and_hazards.md R300, R301):
nothing stored, so the vector at 0xFFFE/0xFFFF reads 0x0000 and A and B hold the old pc, taken as 0x0000 (log entries
4 and 9). A running machine is reset by `resetSequence` in Sys2Proof/Machine/Ops.lean. -/
def State.reset : State where
  pc := 0x0000#16
  sp := 0x01#8
  st := ⟨false, false, false, false⟩
  mem := []
  idle := false
  pending := []
  resetReq := false
  events := []
  draws := 0
  cfg := State.resetPlatform

end Sys2Proof.Machine
end

