-- ==== Sys2Proof/Machine/Flags.lean ====
section
/-! DEFINITION. The status bits and every value and carry computation of the instruction set. Exact arithmetic first, narrowed
at the end. -/

namespace Sys2Proof.Machine

/-- C as given, N and Z on the 8-bit value (`setNZ`, R29), I not affected. -/
def Status.result (st : Status) (c : Bool) (v : Byte) : Status :=
  ⟨c, v.msb, v == 0#8, st.i⟩

/-- C as given, N and Z from the most significant byte of a 16-bit result (R29: `MPY`, `MOVD`, `DECD`), I not
affected. -/
def Status.wideResult (st : Status) (c : Bool) (w : Addr) : Status :=
  ⟨c, w.msb, w.extractLsb' 8 8 == 0#8, st.i⟩

/-- All four bits at the one value (`EINT`, `DINT`, interrupt entry, reset). -/
def Status.all (v : Bool) : Status := ⟨v, v, v, v⟩

/-- The status register as a stack byte: C, N, Z, I in bits 7 to 4 and `ST_LOW` below (R28). -/
def Status.toByte (st : Status) (low : Nibble) : Byte :=
  BitVec.ofBool st.c ++ BitVec.ofBool st.n ++ BitVec.ofBool st.z ++ BitVec.ofBool st.i ++ low

/-- The status register from a stack byte; bits 3..0 are ignored (R28). -/
def Status.ofByte (v : Byte) : Status :=
  ⟨v.getLsbD 7, v.getLsbD 6, v.getLsbD 5, v.getLsbD 4⟩

/-- An 8-bit result and the carry bit that goes with it. -/
structure Alu where
  value : Byte
  carry : Bool
  deriving DecidableEq, Repr

/-- `x + d + cin`: the carry out of bit 7 (R121, R122, R123). -/
def addBytes (x d : Byte) (cin : Bool) : Alu :=
  let t := x.toNat + d.toNat + cin.toNat
  ⟨BitVec.ofNat 8 t, decide (256 ≤ t)⟩

/-- `d - x - 1 + cin`: C = 1 means that no borrow occurred (R121, R125). With `cin` set this is `d - x` (R124). -/
def subBytes (x d : Byte) (cin : Bool) : Alu :=
  let t : Int := (d.toNat : Int) - x.toNat - 1 + cin.toNat
  ⟨BitVec.ofInt 8 t, decide (0 ≤ t)⟩

/-- Bitwise and; C is cleared (R142). -/
def andBytes (x d : Byte) : Alu := ⟨x &&& d, false⟩

/-- Bitwise or; C is cleared (R143). -/
def orBytes (x d : Byte) : Alu := ⟨x ||| d, false⟩

/-- Bitwise exclusive or; C is cleared (R144). -/
def xorBytes (x d : Byte) : Alu := ⟨x ^^^ d, false⟩

/-- One's complement; C is cleared (R173). -/
def invByte (d : Byte) : Alu := ⟨d ^^^ 0xFF#8, false⟩

/-- The nibbles exchanged; C is bit 0 of the result (R177). -/
def swapNibbles (d : Byte) : Alu :=
  let r := d <<< 4 ||| d >>> 4
  ⟨r, r.getLsbD 0⟩

/-- Rotate right; C is the old bit 0 (R184). -/
def rotateRight (d : Byte) : Alu :=
  ⟨d >>> 1 ||| (BitVec.ofBool (d.getLsbD 0)).setWidth 8 <<< 7, d.getLsbD 0⟩

/-- Rotate right through carry (R185). -/
def rotateRightCarry (d : Byte) (c : Bool) : Alu :=
  ⟨d >>> 1 ||| (BitVec.ofBool c).setWidth 8 <<< 7, d.getLsbD 0⟩

/-- Rotate left; C is the old bit 7 (R186). -/
def rotateLeft (d : Byte) : Alu :=
  ⟨d <<< 1 ||| (BitVec.ofBool (d.getLsbD 7)).setWidth 8, d.getLsbD 7⟩

/-- Rotate left through carry (R187). -/
def rotateLeftCarry (d : Byte) (c : Bool) : Alu :=
  ⟨d <<< 1 ||| (BitVec.ofBool c).setWidth 8, d.getLsbD 7⟩

/-- Whether both nibbles are decimal digits (R127). -/
def isBcd (v : Byte) : Bool := decide (v.toNat / 16 ≤ 9 ∧ v.toNat % 16 ≤ 9)

/-- `dec(v)`: the number two decimal digits stand for (R127). -/
def bcdToNat (v : Byte) : Nat := 10 * (v.toNat / 16) + v.toNat % 16

/-- `bcd(k)`: the two digits of a number 0..99 (R127). -/
def natToBcd (k : Nat) : Byte := BitVec.ofNat 8 (16 * (k / 10) + k % 10)

/-- Decimal addition of valid operands: C = 1 from 100 on (R128). -/
def addDecimal (x d : Byte) (cin : Bool) : Alu :=
  let t := bcdToNat x + bcdToNat d + cin.toNat
  ⟨natToBcd (t % 100), decide (100 ≤ t)⟩

/-- Decimal subtraction of valid operands: C = 1 means that no borrow occurred (R129). -/
def subDecimal (x d : Byte) (cin : Bool) : Alu :=
  let t : Int := (bcdToNat d : Int) - bcdToNat x - 1 + cin.toNat
  ⟨natToBcd (t % 100).toNat, decide (0 ≤ t)⟩

end Sys2Proof.Machine
end

