-- ==== Sys2Proof/Machine/Ops.lean ====
section
/-! DEFINITION. The named operations every meaning is built from: registers, the one address space, the stack, the
vectors, taking an interrupt and returning from it, and the reset sequence. -/

namespace Sys2Proof.Machine

/-- Why an operation has no result: `raise Refuse` of the spec (R261), as one of the two reasons. -/
inductive Stop
  | fault (f : Fault)
  | refusal (r : Refusal)
  deriving DecidableEq, Repr

/-- What an operation answers. A stop leaves no partial effect: "the state before the step is the last state of
the run" (R261). -/
abbrev Result (α : Type) := Except Stop α

/-- The outcome of a meaning. -/
def finish : Result State → Host.Outcome State Fault Refusal
  | .ok s => .next s
  | .error (.fault f) => .fault f
  | .error (.refusal r) => .refused r

/-! ### Registers (R22, R23) -/

/-- What register n holds. -/
def State.reg (s : State) (n : Byte) : Byte := s.mem.read n.toNat

/-- Register A is `R[0]` (R21). -/
def State.a (s : State) : Byte := s.reg 0#8

/-- Register B is `R[1]` (R21). -/
def State.b (s : State) : Byte := s.reg 1#8

/-- The state with v stored in register n. -/
def State.setReg (s : State) (n v : Byte) : State := { s with mem := s.mem.write n.toNat v }

/-- Register n exists: n < `NREG` (R22). -/
abbrev State.HasReg (s : State) (n : Byte) : Prop := n.toNat < s.cfg.nreg.size

/-- Reading `R[n]`; refused where n ≥ `NREG` (R22). -/
def regRead (n : Byte) (s : State) : Result Byte :=
  if s.HasReg n then .ok (s.reg n) else .error (.fault (.unimplementedRegister n))

/-- `R[n] <- v`; refused where n ≥ `NREG` (R22). -/
def regWrite (n v : Byte) (s : State) : Result State :=
  if s.HasReg n then .ok (s.setReg n v) else .error (.fault (.unimplementedRegister n))

/-- `pair[p]`: `R[p-1] ++ R[p]`, high register first; p = 0 names no pair (R23, R99). -/
def readPair (p : Byte) (s : State) : Result Addr := do
  if p = 0#8 then .error (.refusal .pairAtRegister0)
  else
    let hi ← regRead (p - 1#8) s
    let lo ← regRead p s
    .ok (wordOf hi lo)

/-- `pair[p] <- w`: `R[p-1]`, then `R[p]`; p = 0 names no pair (R23, R52). -/
def writePair (p : Byte) (w : Addr) (s : State) : Result State := do
  if p = 0#8 then .error (.refusal .pairAtRegister0)
  else
    let s ← regWrite (p - 1#8) (hiByte w) s
    regWrite p (loByte w) s

/-! ### The address space (R50) -/

/-- The kind of an address above the files: the first region that holds it decides (R57). -/
def kindIn : List Region → Nat → MemKind
  | [], _ => .unimplemented
  | r :: rs, a => if r.base ≤ a ∧ a < r.base + r.size then r.kind else kindIn rs a

/-- What R50 tells apart by the address. -/
inductive Place
  | register
  | missingRegister
  | peripheral
  | ram
  | rom
  | device
  | unimplemented
  deriving DecidableEq, Repr

/-- Where an address lies (R50, R56). -/
def placeOf (cfg : Platform) (a : Addr) : Place :=
  if a.toNat < 0x100 then (if a.toNat < cfg.nreg.size then .register else .missingRegister)
  else if a.toNat < 0x200 then .peripheral
  else match kindIn cfg.memMap a.toNat with
    | .ram => .ram
    | .rom => .rom
    | .device => .device
    | .unimplemented => .unimplemented

/-- `MemRead(addr, 1)` (R50): a peripheral or device read is answered by the environment and recorded. -/
def memRead (a : Addr) (s : State) : Result (Byte × State) :=
  match placeOf s.cfg a with
  | .register | .ram | .rom => .ok (s.mem.read a.toNat, s)
  | .peripheral =>
    let v := Config.periphAnswer s.events s.draws (loByte a)
    .ok (v, { s with events := .periphRead (loByte a) v :: s.events, draws := s.draws + 1 })
  | .device =>
    let v := Config.deviceAnswer s.events s.draws a
    .ok (v, { s with events := .deviceRead a v :: s.events, draws := s.draws + 1 })
  | .missingRegister => .error (.fault (.unimplementedRegister (loByte a)))
  | .unimplemented => .error (.fault (.unimplementedAddress a))

/-- `MemWrite(addr, 1, v)` (R50): a peripheral or device write is an output event and changes no other state
(R31). -/
def memWrite (a : Addr) (v : Byte) (s : State) : Result State :=
  match placeOf s.cfg a with
  | .register | .ram => .ok { s with mem := s.mem.write a.toNat v }
  | .peripheral => .ok { s with events := .periphWrite (loByte a) v :: s.events }
  | .device => .ok { s with events := .deviceWrite a v :: s.events }
  | .rom => .error (.fault (.writeToRom a))
  | .missingRegister => .error (.fault (.unimplementedRegister (loByte a)))
  | .unimplemented => .error (.fault (.unimplementedAddress a))

/-- The address of `P[n]`: `0x0100 + n` (R31). -/
def periphAddr (n : Byte) : Addr := 0x0100#16 + zext16 n

/-- Reading `P[n]` is `MemRead(0x0100 + n, 1)` (R200). -/
def periphRead (n : Byte) (s : State) : Result (Byte × State) := memRead (periphAddr n) s

/-- `P[n] <- v` is `MemWrite(0x0100 + n, 1, v)` (R200). -/
def periphWrite (n v : Byte) (s : State) : Result State := memWrite (periphAddr n) v s

/-! ### The stack (R26, R27) -/

/-- `push8` (R27): `sp` rises modulo 256, then the byte goes to `R[sp]`. -/
def push8 (v : Byte) (s : State) : Result State :=
  regWrite (s.sp + 1#8) v { s with sp := s.sp + 1#8 }

/-- `pop8` (R27): the byte at `R[sp]`, then `sp` falls modulo 256. -/
def pop8 (s : State) : Result (Byte × State) := do
  let v ← regRead s.sp s
  .ok (v, { s with sp := s.sp - 1#8 })

/-- A 16-bit value is pushed high byte first (R27). -/
def push16 (w : Addr) (s : State) : Result State := do
  let s ← push8 (hiByte w) s
  push8 (loByte w) s

/-- A 16-bit value is popped low byte first (R27). -/
def pop16 (s : State) : Result (Addr × State) := do
  let (lo, s) ← pop8 s
  let (hi, s) ← pop8 s
  .ok (wordOf hi lo, s)

/-- Bits 3..0 of the status byte about to be stored: `ST_LOW`, by default a fresh free value (R28). -/
def statusLow (s : State) : Nibble × State :=
  match s.cfg.stLow with
  | some low => (low, s)
  | none => (Config.statusLow s.draws, { s with draws := s.draws + 1 })

/-! ### Jumps and vectors -/

/-- `jumpRel(ofst)`: the offset is signed and counts from the next instruction, modulo 65536 (R96). -/
def State.jumpRel (s : State) (ofst : Byte) : State := { s with pc := s.pc + sext16 ofst }

/-- The address of the high byte of vector k: `0xFFFE - 2k` (R256, R263). -/
def vectorAddr (k : Nat) : Addr := BitVec.ofNat 16 (0xFFFE - 2 * k)

/-- The entry address in vector k, high byte first (R52). -/
def readVector (k : Nat) (s : State) : Result (Addr × State) := do
  let (hi, s) ← memRead (vectorAddr k) s
  let (lo, s) ← memRead (vectorAddr k + 1#16) s
  .ok (wordOf hi lo, s)

/-! ### Interrupts (R264 to R267) and reset (R300) -/

/-- The level the acceptance test takes at this boundary: with I set, the lowest pending one (R264, R266). -/
def acceptedLevel (s : State) : Option Nat := if s.st.i then s.pending.min? else none

/-- Interrupt entry, level k (R265): the status byte, then the return address go on the stack; all four status
bits are cleared; pc is loaded from vector k; the request is consumed. From the idle state the return
address is that after the `IDLE`. -/
def interruptEntry (k : Nat) (s : State) : Result State := do
  let ret := if s.idle then s.pc + 1#16 else s.pc
  let (low, s) := statusLow s
  let s ← push8 (s.st.toByte low) { s with idle := false }
  let s ← push16 ret { s with st := Status.all false }
  let (entry, s) ← readVector k s
  .ok { s with pc := entry, pending := s.pending.filter (· ≠ k) }

/-- The return from an interrupt (R238, R267): PC low, PC high, then the status byte. -/
def interruptReturn (s : State) : Result State := do
  let (w, s) ← pop16 s
  let (v, s) ← pop8 s
  .ok { s with pc := w, st := Status.ofByte v }

/-- The reset sequence (R300): A:B take the old pc, `sp` is 0x01, the status bits and `idle` are cleared, pc is
loaded from vector 0. Nothing is pushed. The request is taken back (log entry 10). -/
def resetSequence (s : State) : Result State := do
  let old := s.pc
  let s ← regWrite 0#8 (hiByte old) s
  let s ← regWrite 1#8 (loByte old) s
  let s := { s with sp := 0x01#8, st := Status.all false, idle := false, resetReq := false }
  let (entry, s) ← readVector 0 s
  .ok { s with pc := entry }

end Sys2Proof.Machine
end

