-- ==== Sys2Proof/Syntax.lean ====
section
/-! DEFINITION. The instructions of the TMS7000 as data: one constructor for each of the 68 mnemonics of
spec/opcode_table.json. The table's 231 rows are the pairs of a constructor and one of its operand forms:
the operand forms of spec/30_encoding.md (R82, R100, R101) are the arguments.

Seven opcodes carry two mnemonics (R109). Both spellings have a constructor; the decoder answers the first
of each pair, which `Instr.canonical` (Sys2Proof/Decode.lean) names. -/

namespace Sys2Proof

/-- The seven operand forms of a dual-operand instruction (R100), in the order of R120.
A register number, an immediate value: one byte each (R83). -/
inductive DualForm
  /-- `B,A`: source B, destination A. -/
  | ba
  /-- `Rs,A`. -/
  | ra (rs : Byte)
  /-- `Rs,B`. -/
  | rb (rs : Byte)
  /-- `Rs,Rd`. -/
  | rr (rs rd : Byte)
  /-- `%iop,A`. -/
  | ia (iop : Byte)
  /-- `%iop,B`. -/
  | ib (iop : Byte)
  /-- `%iop,Rd`. -/
  | ir (iop rd : Byte)
  deriving DecidableEq, Repr

/-- The ten operand forms of `MOV` (R141): the seven of the grid and three of its own. -/
inductive MovForm
  /-- One of the seven forms of R100. -/
  | dual (f : DualForm)
  /-- `A,B`. -/
  | ab
  /-- `A,Rd`. -/
  | ar (rd : Byte)
  /-- `B,Rd`. -/
  | br (rd : Byte)
  deriving DecidableEq, Repr

/-- The operand of a single-operand instruction (R101): A, B or a numbered register. For `DECD` the same
byte names the low register of a pair (R183). -/
inductive Single
  /-- Register A. -/
  | a
  /-- Register B. -/
  | b
  /-- Register `R[n]`, n the byte after the opcode. -/
  | r (n : Byte)
  deriving DecidableEq, Repr

/-- The CPU-side operand of a peripheral-file instruction (R200). -/
inductive PeriphSource
  /-- Register A. -/
  | a
  /-- Register B. -/
  | b
  /-- An immediate byte. -/
  | imm (iop : Byte)
  deriving DecidableEq, Repr

/-- The five operand forms of `MOVP` (R201). -/
inductive MovpForm
  /-- `A,Pd`, `B,Pd` and `%iop,Pd`. -/
  | toPeriph (s : PeriphSource) (pd : Byte)
  /-- `Ps,A`. -/
  | toA (ps : Byte)
  /-- `Ps,B`. -/
  | toB (ps : Byte)
  deriving DecidableEq, Repr

/-- The three forms of an extended-addressing instruction (R210). -/
inductive ExtForm
  /-- `@Label`. -/
  | direct (label : Addr)
  /-- `@Label(B)`. -/
  | indexed (label : Addr)
  /-- `*Rn`: the pair whose low register is `R[n]`. -/
  | indirect (n : Byte)
  deriving DecidableEq, Repr

/-- The three forms of `MOVD` (R219). -/
inductive MovdForm
  /-- `%iop,Rp`. -/
  | imm (iop : Addr) (rp : Byte)
  /-- `%iop(B),Rp`. -/
  | immB (iop : Addr) (rp : Byte)
  /-- `Rp,Rp`: source pair, destination pair. -/
  | pair (ps pd : Byte)
  deriving DecidableEq, Repr

/-- The instructions of spec/opcode_table.json, in the table's order of mnemonics. `ofst` is the offset byte
of a jump (R96); `pn` the number of a peripheral register (R92). -/
inductive Instr
  | nop
  | idle
  | eint
  | dint
  | setc
  | popSt
  | stsp
  | rets
  | reti
  | ldsp
  | pushSt
  | mov (f : MovForm)
  | and (f : DualForm)
  | or (f : DualForm)
  | xor (f : DualForm)
  | btjo (f : DualForm) (ofst : Byte)
  | btjz (f : DualForm) (ofst : Byte)
  | add (f : DualForm)
  | adc (f : DualForm)
  | sub (f : DualForm)
  | sbb (f : DualForm)
  | mpy (f : DualForm)
  | cmp (f : DualForm)
  | dac (f : DualForm)
  | dsb (f : DualForm)
  | movp (f : MovpForm)
  | andp (src : PeriphSource) (pn : Byte)
  | orp (src : PeriphSource) (pn : Byte)
  | xorp (src : PeriphSource) (pn : Byte)
  | btjop (src : PeriphSource) (pn : Byte) (ofst : Byte)
  | btjzp (src : PeriphSource) (pn : Byte) (ofst : Byte)
  | movd (f : MovdForm)
  | lda (f : ExtForm)
  | sta (f : ExtForm)
  | br (f : ExtForm)
  | cmpa (f : ExtForm)
  | call (f : ExtForm)
  /-- Another spelling of `TSTA`: opcode B0 (R109, R188). -/
  | clrc
  | tsta
  | dec (d : Single)
  | inc (d : Single)
  | inv (d : Single)
  | clr (d : Single)
  | xchb (d : Single)
  | swap (d : Single)
  | push (d : Single)
  | pop (d : Single)
  | djnz (d : Single) (ofst : Byte)
  | decd (d : Single)
  | rr (d : Single)
  | rrc (d : Single)
  | rl (d : Single)
  | rlc (d : Single)
  | tstb
  | jmp (ofst : Byte)
  | jeq (ofst : Byte)
  | jz (ofst : Byte)
  | jc (ofst : Byte)
  | jhs (ofst : Byte)
  | jgt (ofst : Byte)
  | jp (ofst : Byte)
  | jge (ofst : Byte)
  | jpz (ofst : Byte)
  | jne (ofst : Byte)
  | jnz (ofst : Byte)
  | jl (ofst : Byte)
  | jnc (ofst : Byte)
  /-- `TRAP n`; the table has the rows n = 0 to 23 (R256). -/
  | trap (n : Nat)
  deriving DecidableEq, Repr

end Sys2Proof
end

