-- ==== Sys2Proof/Machine/Operands.lean ====
section
/-! DEFINITION. Every operand form of the instruction set resolved to what it names (spec/30_encoding.md R97 to R101).
A and B are the registers 0 and 1 (R21), so a form names a register number or an immediate byte. -/

namespace Sys2Proof

/-- A source operand: a register or an immediate byte. -/
inductive Operand
  | reg (n : Byte)
  | imm (v : Byte)
  deriving DecidableEq, Repr

/-- The source operand of a dual-operand form (R100). -/
def DualForm.source : DualForm → Operand
  | .ba => .reg 1#8
  | .ra rs => .reg rs
  | .rb rs => .reg rs
  | .rr rs _ => .reg rs
  | .ia iop => .imm iop
  | .ib iop => .imm iop
  | .ir iop _ => .imm iop

/-- The destination register of a dual-operand form (R100). -/
def DualForm.dest : DualForm → Byte
  | .ba => 0#8
  | .ra _ => 0#8
  | .rb _ => 1#8
  | .rr _ rd => rd
  | .ia _ => 0#8
  | .ib _ => 1#8
  | .ir _ rd => rd

/-- The source operand of a form of `MOV` (R100, R141). -/
def MovForm.source : MovForm → Operand
  | .dual f => f.source
  | .ab => .reg 0#8
  | .ar _ => .reg 0#8
  | .br _ => .reg 1#8

/-- The destination register of a form of `MOV` (R100, R141). -/
def MovForm.dest : MovForm → Byte
  | .dual f => f.dest
  | .ab => 1#8
  | .ar rd => rd
  | .br rd => rd

/-- The register of a single-operand form (R101). -/
def Single.num : Single → Byte
  | .a => 0#8
  | .b => 1#8
  | .r n => n

/-- The CPU-side operand of a peripheral-file form (R200). -/
def PeriphSource.source : PeriphSource → Operand
  | .a => .reg 0#8
  | .b => .reg 1#8
  | .imm iop => .imm iop

namespace Machine

/-- Reading a source operand. -/
def readOperand (o : Operand) (s : State) : Result Byte :=
  match o with
  | .reg n => regRead n s
  | .imm v => .ok v

/-- Both operands of a dual-operand form: the source first, then the destination (R12, R120). -/
def readDual (f : DualForm) (s : State) : Result (Byte × Byte) := do
  let x ← readOperand f.source s
  let d ← regRead f.dest s
  .ok (x, d)

/-- `@Label(B)` and `%iop(B)`: the field plus B, unsigned, modulo 65536 (R98). -/
def indexedBy (label : Addr) (b : Byte) : Addr := label + zext16 b

/-- The effective address of an extended form (R97, R98, R99). -/
def effectiveAddr (f : ExtForm) (s : State) : Result Addr := do
  match f with
  | .direct label => .ok label
  | .indexed label =>
    let b ← regRead 1#8 s
    .ok (indexedBy label b)
  | .indirect n => readPair n s

/-- The 16-bit source value of a form of `MOVD` (R219). -/
def movdSource (f : MovdForm) (s : State) : Result Addr := do
  match f with
  | .imm w _ => .ok w
  | .immB w _ =>
    let b ← regRead 1#8 s
    .ok (indexedBy w b)
  | .pair ps _ => readPair ps s

end Machine

/-- The destination pair of a form of `MOVD` (R219). -/
def MovdForm.dest : MovdForm → Byte
  | .imm _ rp => rp
  | .immB _ rp => rp
  | .pair _ pd => pd

end Sys2Proof
end

