-- ==== Sys2Proof/Machine/BitTest.lean ====
section
/-! DEFINITION. Bit test and jump: BTJO BTJZ BTJOP BTJZP (spec/42_bit_test_jump.md). -/

namespace Sys2Proof.Machine

/-- C is cleared, N and Z are those of the test value, and the jump is taken where it is not zero (R160). -/
def testAndJump (t ofst : Byte) (s : State) : State :=
  let s' := { s with st := s.st.result false t }
  if t = 0#8 then s' else s'.jumpRel ofst

/-- BTJO (R161). -/
def execBtjo (f : DualForm) (ofst : Byte) (s : State) : Host.Outcome State Fault Refusal :=
  finish do
    let (x, d) ← readDual f s
    .ok (testAndJump (x &&& d) ofst s)

/-- BTJZ (R162). -/
def execBtjz (f : DualForm) (ofst : Byte) (s : State) : Host.Outcome State Fault Refusal :=
  finish do
    let (x, d) ← readDual f s
    .ok (testAndJump (x &&& ~~~d) ofst s)

/-- BTJOP (R163): one peripheral read. -/
def execBtjop (src : PeriphSource) (pn ofst : Byte) (s : State) : Host.Outcome State Fault Refusal :=
  finish do
    let x ← readOperand src.source s
    let (p, s) ← periphRead pn s
    .ok (testAndJump (x &&& p) ofst s)

/-- BTJZP (R164): one peripheral read. -/
def execBtjzp (src : PeriphSource) (pn ofst : Byte) (s : State) : Host.Outcome State Fault Refusal :=
  finish do
    let x ← readOperand src.source s
    let (p, s) ← periphRead pn s
    .ok (testAndJump (x &&& ~~~p) ofst s)

end Sys2Proof.Machine
end

