-- ==== Sys2Proof/Machine/Control.lean ====
section
/-! DEFINITION. Control instructions: NOP IDLE EINT DINT SETC POP ST STSP RETS RETI LDSP PUSH ST and TRAP
(spec/46_control.md sections 1 and 3). When a meaning runs, pc is the address of the next instruction (R12). -/

namespace Sys2Proof.Machine

/-- NOP (R230). -/
def execNop (s : State) : Host.Outcome State Fault Refusal := .next s

/-- IDLE (R231): pc is held at the IDLE opcode, and the CPU waits. -/
def execIdle (s : State) : Host.Outcome State Fault Refusal :=
  .next { s with pc := s.pc - 1#16, idle := true }

/-- EINT (R232; all four bits, spec/90_conflicts.md C5). -/
def execEint (s : State) : Host.Outcome State Fault Refusal := .next { s with st := Status.all true }

/-- DINT (R233; all four bits, spec/90_conflicts.md C5). -/
def execDint (s : State) : Host.Outcome State Fault Refusal := .next { s with st := Status.all false }

/-- SETC (R234; N and Z too, spec/90_conflicts.md C9). -/
def execSetc (s : State) : Host.Outcome State Fault Refusal :=
  .next { s with st := ⟨true, false, true, s.st.i⟩ }

/-- POP ST (R235; all four bits come from the byte, spec/90_conflicts.md C2). -/
def execPopSt (s : State) : Host.Outcome State Fault Refusal :=
  finish do
    let (v, s) ← pop8 s
    .ok { s with st := Status.ofByte v }

/-- STSP (R236). -/
def execStsp (s : State) : Host.Outcome State Fault Refusal := finish (regWrite 1#8 s.sp s)

/-- RETS (R237). -/
def execRets (s : State) : Host.Outcome State Fault Refusal :=
  finish do
    let (w, s) ← pop16 s
    .ok { s with pc := w }

/-- RETI (R238). -/
def execReti (s : State) : Host.Outcome State Fault Refusal := finish (interruptReturn s)

/-- LDSP (R239). -/
def execLdsp (s : State) : Host.Outcome State Fault Refusal :=
  finish do
    let b ← regRead 1#8 s
    .ok { s with sp := b }

/-- PUSH ST (R240): under `PUSH_ST_FLAGS` = `table` the flags are those of the byte pushed. -/
def execPushSt (s : State) : Host.Outcome State Fault Refusal :=
  finish do
    let (low, s) := statusLow s
    let v := s.st.toByte low
    let s ← push8 v s
    match s.cfg.pushStFlags with
    | .table => .ok { s with st := s.st.result false v }
    | .unaffected => .ok s

/-- TRAP n (R256): the return address is pushed and pc is loaded from vector n. The status register is neither pushed nor
changed (R270). -/
def execTrap (n : Nat) (s : State) : Host.Outcome State Fault Refusal :=
  finish do
    let s ← push16 s.pc s
    let (entry, s) ← readVector n s
    .ok { s with pc := entry }

end Sys2Proof.Machine
end

