-- ==== Sys2Proof/Machine/DualArith.lean ====
section
/-! DEFINITION. Dual-operand arithmetic: ADD ADC SUB SBB CMP DAC DSB MPY (spec/40_dual_arith.md). -/

namespace Sys2Proof.Machine

/-- Source and destination are read, the destination gets the value, C the carry, N and Z the value (R120). -/
def dualUpdate (op : Byte → Byte → Bool → Alu) (f : DualForm) (s : State) : Result State := do
  let (x, d) ← readDual f s
  let r := op x d s.st.c
  let s ← regWrite f.dest r.value s
  .ok { s with st := s.st.result r.carry r.value }

/-- The same without writing the destination (R126). -/
def dualCompare (op : Byte → Byte → Bool → Alu) (f : DualForm) (s : State) : Result State := do
  let (x, d) ← readDual f s
  let r := op x d s.st.c
  .ok { s with st := s.st.result r.carry r.value }

/-- A decimal operation. On valid operands the destination and the flags are those of the operation; otherwise
the destination byte and C, N, Z are four free values (R127, log entry 8). -/
def decimalUpdate (op : Byte → Byte → Bool → Alu) (f : DualForm) (s : State) : Result State := do
  let (x, d) ← readDual f s
  if isBcd x && isBcd d then
    let r := op x d s.st.c
    let s ← regWrite f.dest r.value s
    .ok { s with st := s.st.result r.carry r.value }
  else
    let k := s.draws
    let s ← regWrite f.dest (Config.bcdValue k) s
    .ok { s with
      st := ⟨Config.bcdCarry k, Config.bcdSign k, Config.bcdZero k, s.st.i⟩
      draws := k + 1 }

/-- ADD (R122). -/
def execAdd (f : DualForm) (s : State) : Host.Outcome State Fault Refusal :=
  finish (dualUpdate (fun x d _ => addBytes x d false) f s)

/-- ADC (R123). -/
def execAdc (f : DualForm) (s : State) : Host.Outcome State Fault Refusal :=
  finish (dualUpdate addBytes f s)

/-- SUB (R124). -/
def execSub (f : DualForm) (s : State) : Host.Outcome State Fault Refusal :=
  finish (dualUpdate (fun x d _ => subBytes x d true) f s)

/-- SBB (R125). -/
def execSbb (f : DualForm) (s : State) : Host.Outcome State Fault Refusal :=
  finish (dualUpdate subBytes f s)

/-- CMP (R126). -/
def execCmp (f : DualForm) (s : State) : Host.Outcome State Fault Refusal :=
  finish (dualCompare (fun x d _ => subBytes x d true) f s)

/-- DAC (R128). -/
def execDac (f : DualForm) (s : State) : Host.Outcome State Fault Refusal :=
  finish (decimalUpdate addDecimal f s)

/-- DSB (R129). -/
def execDsb (f : DualForm) (s : State) : Host.Outcome State Fault Refusal :=
  finish (decimalUpdate subDecimal f s)

/-- MPY (R131): the product goes to A (high byte) and B (low byte) in every form; C is cleared, N and Z come from
the high byte. -/
def execMpy (f : DualForm) (s : State) : Host.Outcome State Fault Refusal :=
  finish do
    let (x, d) ← readDual f s
    let w : Addr := BitVec.ofNat 16 (x.toNat * d.toNat)
    let s ← regWrite 0#8 (hiByte w) s
    let s ← regWrite 1#8 (loByte w) s
    .ok { s with st := s.st.wideResult false w }

end Sys2Proof.Machine
end

