-- ==== Sys2Proof/Machine/Extended.lean ====
section
/-! DEFINITION. Extended addressing: LDA STA BR CMPA CALL, and MOVD (spec/45_extended.md). -/

namespace Sys2Proof.Machine

/-- LDA (R211). -/
def execLda (f : ExtForm) (s : State) : Host.Outcome State Fault Refusal :=
  finish do
    let ea ← effectiveAddr f s
    let (v, s) ← memRead ea s
    let s ← regWrite 0#8 v s
    .ok { s with st := s.st.result false v }

/-- STA (R212): the destination byte is not read. -/
def execSta (f : ExtForm) (s : State) : Host.Outcome State Fault Refusal :=
  finish do
    let ea ← effectiveAddr f s
    let v ← regRead 0#8 s
    let s ← memWrite ea v s
    .ok { s with st := s.st.result false v }

/-- BR (R213): the effective address itself is the target (spec/90_conflicts.md C6). -/
def execBr (f : ExtForm) (s : State) : Host.Outcome State Fault Refusal :=
  finish do
    let ea ← effectiveAddr f s
    .ok { s with pc := ea }

/-- CMPA (R214). -/
def execCmpa (f : ExtForm) (s : State) : Host.Outcome State Fault Refusal :=
  finish do
    let ea ← effectiveAddr f s
    let a ← regRead 0#8 s
    let (v, s) ← memRead ea s
    let r := subBytes v a true
    .ok { s with st := s.st.result r.carry r.value }

/-- CALL (R215): the effective address is formed before the pushes. -/
def execCall (f : ExtForm) (s : State) : Host.Outcome State Fault Refusal :=
  finish do
    let ea ← effectiveAddr f s
    let s ← push16 s.pc s
    .ok { s with pc := ea }

/-- MOVD (R219): both source bytes are read before any write; N and Z from the high byte. -/
def execMovd (f : MovdForm) (s : State) : Host.Outcome State Fault Refusal :=
  finish do
    let w ← movdSource f s
    let s ← writePair f.dest w s
    .ok { s with st := s.st.wideResult false w }

end Sys2Proof.Machine
end

