-- ==== Sys2Proof/Machine/Jumps.lean ====
section
/-! DEFINITION. The relative jumps (spec/46_control.md section 2). No status bit changes, whether or not the jump is
taken (R242). -/

namespace Sys2Proof.Machine

/-- A jump on a condition: taken it moves pc by the offset, else pc stays at the next instruction (R242). -/
def jumpIf (cond : Bool) (ofst : Byte) (s : State) : Host.Outcome State Fault Refusal :=
  .next (if cond then s.jumpRel ofst else s)

/-- JMP (R241). -/
def execJmp (ofst : Byte) (s : State) : Host.Outcome State Fault Refusal := .next (s.jumpRel ofst)

/-- JZ (R243). -/
def execJz (ofst : Byte) (s : State) : Host.Outcome State Fault Refusal := jumpIf s.st.z ofst s

/-- JEQ (R244): the machine instruction of `JZ`. -/
def execJeq (ofst : Byte) (s : State) : Host.Outcome State Fault Refusal := jumpIf s.st.z ofst s

/-- JC (R245). -/
def execJc (ofst : Byte) (s : State) : Host.Outcome State Fault Refusal := jumpIf s.st.c ofst s

/-- JHS (R246): the machine instruction of `JC`. -/
def execJhs (ofst : Byte) (s : State) : Host.Outcome State Fault Refusal := jumpIf s.st.c ofst s

/-- JP (R247). -/
def execJp (ofst : Byte) (s : State) : Host.Outcome State Fault Refusal := jumpIf (!s.st.n && !s.st.z) ofst s

/-- JGT (R248): the machine instruction of `JP`. -/
def execJgt (ofst : Byte) (s : State) : Host.Outcome State Fault Refusal := jumpIf (!s.st.n && !s.st.z) ofst s

/-- JPZ (R249). -/
def execJpz (ofst : Byte) (s : State) : Host.Outcome State Fault Refusal := jumpIf (!s.st.n) ofst s

/-- JGE (R250): the machine instruction of `JPZ`. -/
def execJge (ofst : Byte) (s : State) : Host.Outcome State Fault Refusal := jumpIf (!s.st.n) ofst s

/-- JNZ (R251). -/
def execJnz (ofst : Byte) (s : State) : Host.Outcome State Fault Refusal := jumpIf (!s.st.z) ofst s

/-- JNE (R252): the machine instruction of `JNZ`. -/
def execJne (ofst : Byte) (s : State) : Host.Outcome State Fault Refusal := jumpIf (!s.st.z) ofst s

/-- JNC (R253). -/
def execJnc (ofst : Byte) (s : State) : Host.Outcome State Fault Refusal := jumpIf (!s.st.c) ofst s

/-- JL (R254): the machine instruction of `JNC`. -/
def execJl (ofst : Byte) (s : State) : Host.Outcome State Fault Refusal := jumpIf (!s.st.c) ofst s

/-- JN, JLT (R255): opcode E1 where the platform admits it (`ADMIT_JN`). The table has no row for it, so no constructor of
Instr stands for it: Sys2Proof/Machine/Fetch.lean reads it (log entry 11). -/
def execJn (ofst : Byte) (s : State) : Host.Outcome State Fault Refusal := jumpIf s.st.n ofst s

end Sys2Proof.Machine
end

