-- ==== Sys2Proof/Machine/MoveLogic.lean ====
section
/-! DEFINITION. Dual-operand moves and logic: MOV AND OR XOR (spec/41_dual_move_logic.md). -/

namespace Sys2Proof.Machine

/-- MOV (R141): the destination is written without being read. -/
def execMov (f : MovForm) (s : State) : Host.Outcome State Fault Refusal :=
  finish do
    let v ← readOperand f.source s
    let s ← regWrite f.dest v s
    .ok { s with st := s.st.result false v }

/-- AND (R142). -/
def execAnd (f : DualForm) (s : State) : Host.Outcome State Fault Refusal :=
  finish (dualUpdate (fun x d _ => andBytes x d) f s)

/-- OR (R143). -/
def execOr (f : DualForm) (s : State) : Host.Outcome State Fault Refusal :=
  finish (dualUpdate (fun x d _ => orBytes x d) f s)

/-- XOR (R144). -/
def execXor (f : DualForm) (s : State) : Host.Outcome State Fault Refusal :=
  finish (dualUpdate (fun x d _ => xorBytes x d) f s)

end Sys2Proof.Machine
end

