-- ==== Sys2Proof/Machine/Peripheral.lean ====
section
/-! DEFINITION. Peripheral-file instructions: MOVP ANDP ORP XORP (spec/44_peripheral.md). -/

namespace Sys2Proof.Machine

/-- MOVP (R201): one peripheral write and no read, or one peripheral read and no write. -/
def execMovp (f : MovpForm) (s : State) : Host.Outcome State Fault Refusal :=
  finish do
    match f with
    | .toPeriph src pd =>
      let v ← readOperand src.source s
      let s ← periphWrite pd v s
      .ok { s with st := s.st.result false v }
    | .toA ps =>
      let (v, s) ← periphRead ps s
      let s ← regWrite 0#8 v s
      .ok { s with st := s.st.result false v }
    | .toB ps =>
      let (v, s) ← periphRead ps s
      let s ← regWrite 1#8 v s
      .ok { s with st := s.st.result false v }

/-- One peripheral read, then one peripheral write of the value computed from the value read (R55, R202). -/
def periphUpdate (op : Byte → Byte → Alu) (src : PeriphSource) (pd : Byte) (s : State) : Result State := do
  let x ← readOperand src.source s
  let (p, s) ← periphRead pd s
  let r := op x p
  let s ← periphWrite pd r.value s
  .ok { s with st := s.st.result r.carry r.value }

/-- ANDP (R202). -/
def execAndp (src : PeriphSource) (pd : Byte) (s : State) : Host.Outcome State Fault Refusal :=
  finish (periphUpdate andBytes src pd s)

/-- ORP (R203). -/
def execOrp (src : PeriphSource) (pd : Byte) (s : State) : Host.Outcome State Fault Refusal :=
  finish (periphUpdate orBytes src pd s)

/-- XORP (R204). -/
def execXorp (src : PeriphSource) (pd : Byte) (s : State) : Host.Outcome State Fault Refusal :=
  finish (periphUpdate xorBytes src pd s)

end Sys2Proof.Machine
end

