-- ==== Sys2Proof/Machine/SingleOperand.lean ====
section
/-! DEFINITION. Single-operand instructions: DEC INC INV CLR XCHB SWAP PUSH POP DJNZ DECD RR RRC RL RLC TSTA TSTB CLRC
(spec/43_single_operand.md). -/

namespace Sys2Proof.Machine

/-- The operand is read once and written once; C takes the carry, N and Z the value (R170). -/
def singleUpdate (op : Byte → Bool → Alu) (d : Single) (s : State) : Result State := do
  let v ← regRead d.num s
  let r := op v s.st.c
  let s ← regWrite d.num r.value s
  .ok { s with st := s.st.result r.carry r.value }

/-- DEC (R171). -/
def execDec (d : Single) (s : State) : Host.Outcome State Fault Refusal :=
  finish (singleUpdate (fun v _ => subBytes 1#8 v true) d s)

/-- INC (R172). -/
def execInc (d : Single) (s : State) : Host.Outcome State Fault Refusal :=
  finish (singleUpdate (fun v _ => addBytes 1#8 v false) d s)

/-- INV (R173). -/
def execInv (d : Single) (s : State) : Host.Outcome State Fault Refusal :=
  finish (singleUpdate (fun v _ => invByte v) d s)

/-- CLR (R174): the destination is written without being read. -/
def execClr (d : Single) (s : State) : Host.Outcome State Fault Refusal :=
  finish do
    let s ← regWrite d.num 0#8 s
    .ok { s with st := s.st.result false 0#8 }

/-- XCHB (R176): B is written second; N and Z come from the original B. -/
def execXchb (d : Single) (s : State) : Host.Outcome State Fault Refusal :=
  finish do
    let x ← regRead d.num s
    let y ← regRead 1#8 s
    let s ← regWrite d.num y s
    let s ← regWrite 1#8 x s
    .ok { s with st := s.st.result false y }

/-- SWAP (R177). -/
def execSwap (d : Single) (s : State) : Host.Outcome State Fault Refusal :=
  finish (singleUpdate (fun v _ => swapNibbles v) d s)

/-- PUSH (R178): increment, then store (spec/90_conflicts.md C3). -/
def execPush (d : Single) (s : State) : Host.Outcome State Fault Refusal :=
  finish do
    let v ← regRead d.num s
    let s ← push8 v s
    .ok { s with st := s.st.result false v }

/-- POP (R179). -/
def execPop (d : Single) (s : State) : Host.Outcome State Fault Refusal :=
  finish do
    let (v, s) ← pop8 s
    let s ← regWrite d.num v s
    .ok { s with st := s.st.result false v }

/-- DJNZ (R180): no status bit changes. -/
def execDjnz (d : Single) (ofst : Byte) (s : State) : Host.Outcome State Fault Refusal :=
  finish do
    let v ← regRead d.num s
    let r := v - 1#8
    let s ← regWrite d.num r s
    .ok (if r = 0#8 then s else s.jumpRel ofst)

/-- DECD (R183): C = 0 exactly on 0x0000 -> 0xFFFF; N and Z from the high byte. The pair of register 0, `DECD A`
included, is refused. -/
def execDecd (d : Single) (s : State) : Host.Outcome State Fault Refusal :=
  finish do
    let w ← readPair d.num s
    let s ← writePair d.num (w - 1#16) s
    .ok { s with st := s.st.wideResult (w != 0#16) (w - 1#16) }

/-- RR (R184). -/
def execRr (d : Single) (s : State) : Host.Outcome State Fault Refusal :=
  finish (singleUpdate (fun v _ => rotateRight v) d s)

/-- RRC (R185). -/
def execRrc (d : Single) (s : State) : Host.Outcome State Fault Refusal :=
  finish (singleUpdate rotateRightCarry d s)

/-- RL (R186). -/
def execRl (d : Single) (s : State) : Host.Outcome State Fault Refusal :=
  finish (singleUpdate (fun v _ => rotateLeft v) d s)

/-- RLC (R187). -/
def execRlc (d : Single) (s : State) : Host.Outcome State Fault Refusal :=
  finish (singleUpdate rotateLeftCarry d s)

/-- C is cleared, N and Z are those of a register that is read and not written. -/
def testRegister (n : Byte) (s : State) : Result State := do
  let v ← regRead n s
  .ok { s with st := s.st.result false v }

/-- TSTA (R181; C is cleared, spec/90_conflicts.md C1). -/
def execTsta (s : State) : Host.Outcome State Fault Refusal := finish (testRegister 0#8 s)

/-- TSTB (R182; C is cleared, spec/90_conflicts.md C1). -/
def execTstb (s : State) : Host.Outcome State Fault Refusal := finish (testRegister 1#8 s)

/-- CLRC (R188): the machine instruction of `TSTA` (spec/90_conflicts.md C4). -/
def execClrc (s : State) : Host.Outcome State Fault Refusal := finish (testRegister 0#8 s)

end Sys2Proof.Machine
end

