-- ==== Sys2Proof/Machine/Dispatch.lean ====
section
/-! DEFINITION. The meaning of every instruction, one arm per constructor. When a meaning runs, pc is the address of the
next instruction (spec/00_scope.md R12). -/

namespace Sys2Proof.Machine

def exec (i : Instr) (s : State) : Host.Outcome State Fault Refusal :=
  match i with
  | .nop => Sys2Proof.Machine.execNop s
  | .idle => Sys2Proof.Machine.execIdle s
  | .eint => Sys2Proof.Machine.execEint s
  | .dint => Sys2Proof.Machine.execDint s
  | .setc => Sys2Proof.Machine.execSetc s
  | .popSt => Sys2Proof.Machine.execPopSt s
  | .stsp => Sys2Proof.Machine.execStsp s
  | .rets => Sys2Proof.Machine.execRets s
  | .reti => Sys2Proof.Machine.execReti s
  | .ldsp => Sys2Proof.Machine.execLdsp s
  | .pushSt => Sys2Proof.Machine.execPushSt s
  | .mov f => Sys2Proof.Machine.execMov f s
  | .and f => Sys2Proof.Machine.execAnd f s
  | .or f => Sys2Proof.Machine.execOr f s
  | .xor f => Sys2Proof.Machine.execXor f s
  | .btjo f ofst => Sys2Proof.Machine.execBtjo f ofst s
  | .btjz f ofst => Sys2Proof.Machine.execBtjz f ofst s
  | .add f => Sys2Proof.Machine.execAdd f s
  | .adc f => Sys2Proof.Machine.execAdc f s
  | .sub f => Sys2Proof.Machine.execSub f s
  | .sbb f => Sys2Proof.Machine.execSbb f s
  | .mpy f => Sys2Proof.Machine.execMpy f s
  | .cmp f => Sys2Proof.Machine.execCmp f s
  | .dac f => Sys2Proof.Machine.execDac f s
  | .dsb f => Sys2Proof.Machine.execDsb f s
  | .movp f => Sys2Proof.Machine.execMovp f s
  | .andp src pn => Sys2Proof.Machine.execAndp src pn s
  | .orp src pn => Sys2Proof.Machine.execOrp src pn s
  | .xorp src pn => Sys2Proof.Machine.execXorp src pn s
  | .btjop src pn ofst => Sys2Proof.Machine.execBtjop src pn ofst s
  | .btjzp src pn ofst => Sys2Proof.Machine.execBtjzp src pn ofst s
  | .movd f => Sys2Proof.Machine.execMovd f s
  | .lda f => Sys2Proof.Machine.execLda f s
  | .sta f => Sys2Proof.Machine.execSta f s
  | .br f => Sys2Proof.Machine.execBr f s
  | .cmpa f => Sys2Proof.Machine.execCmpa f s
  | .call f => Sys2Proof.Machine.execCall f s
  | .clrc => Sys2Proof.Machine.execClrc s
  | .tsta => Sys2Proof.Machine.execTsta s
  | .dec d => Sys2Proof.Machine.execDec d s
  | .inc d => Sys2Proof.Machine.execInc d s
  | .inv d => Sys2Proof.Machine.execInv d s
  | .clr d => Sys2Proof.Machine.execClr d s
  | .xchb d => Sys2Proof.Machine.execXchb d s
  | .swap d => Sys2Proof.Machine.execSwap d s
  | .push d => Sys2Proof.Machine.execPush d s
  | .pop d => Sys2Proof.Machine.execPop d s
  | .djnz d ofst => Sys2Proof.Machine.execDjnz d ofst s
  | .decd d => Sys2Proof.Machine.execDecd d s
  | .rr d => Sys2Proof.Machine.execRr d s
  | .rrc d => Sys2Proof.Machine.execRrc d s
  | .rl d => Sys2Proof.Machine.execRl d s
  | .rlc d => Sys2Proof.Machine.execRlc d s
  | .tstb => Sys2Proof.Machine.execTstb s
  | .jmp ofst => Sys2Proof.Machine.execJmp ofst s
  | .jeq ofst => Sys2Proof.Machine.execJeq ofst s
  | .jz ofst => Sys2Proof.Machine.execJz ofst s
  | .jc ofst => Sys2Proof.Machine.execJc ofst s
  | .jhs ofst => Sys2Proof.Machine.execJhs ofst s
  | .jgt ofst => Sys2Proof.Machine.execJgt ofst s
  | .jp ofst => Sys2Proof.Machine.execJp ofst s
  | .jge ofst => Sys2Proof.Machine.execJge ofst s
  | .jpz ofst => Sys2Proof.Machine.execJpz ofst s
  | .jne ofst => Sys2Proof.Machine.execJne ofst s
  | .jnz ofst => Sys2Proof.Machine.execJnz ofst s
  | .jl ofst => Sys2Proof.Machine.execJl ofst s
  | .jnc ofst => Sys2Proof.Machine.execJnc ofst s
  | .trap n => Sys2Proof.Machine.execTrap n s

end Sys2Proof.Machine
end

