-- ==== Sys2Proof/WellFormed.lean ====
section
/-! DEFINITION. Which terms of `Instr` stand for a row of the opcode table.

Every operand byte takes every value 0 to 255 as far as the encoding goes (spec/30_encoding.md R105), and the
types of the operands say so already. Two checks remain: `TRAP n` exists for n = 0 to 23 (R256), and `XCHB`
has no form with operand B (R101, R170: opcode C6 is unassigned). -/

namespace Sys2Proof

/-- Whether the term is an instruction of the table. -/
def WellFormed : Instr → Bool
  | .nop | .idle | .eint | .dint | .setc | .popSt | .stsp | .rets | .reti | .ldsp | .pushSt => true
  | .mov _ | .and _ | .or _ | .xor _ | .btjo _ _ | .btjz _ _ => true
  | .add _ | .adc _ | .sub _ | .sbb _ | .mpy _ | .cmp _ | .dac _ | .dsb _ => true
  | .movp _ | .andp _ _ | .orp _ _ | .xorp _ _ | .btjop _ _ _ | .btjzp _ _ _ => true
  | .movd _ | .lda _ | .sta _ | .br _ | .cmpa _ | .call _ => true
  | .clrc | .tsta | .tstb => true
  | .xchb d => d != .b
  | .dec _ | .inc _ | .inv _ | .clr _ | .swap _ | .push _ | .pop _ | .djnz _ _ | .decd _ => true
  | .rr _ | .rrc _ | .rl _ | .rlc _ => true
  | .jmp _ | .jeq _ | .jz _ | .jc _ | .jhs _ | .jgt _ | .jp _ | .jge _ | .jpz _ => true
  | .jne _ | .jnz _ | .jl _ | .jnc _ => true
  | .trap n => decide (n < 24)

end Sys2Proof
end

