-- ==== Sys2Proof/Decode.lean ====
section
/-! DEFINITION. The decoder, total on any bytes and rejecting by name, and after it the encoder
(spec/30_encoding.md).

The decoder follows the opcode map R102: the high digit of the opcode selects the operand form, the low digit the
operation (R81). Operand bytes follow in the order source, destination, offset (R82); a 16-bit field has its high byte
first (R95). -/

namespace Sys2Proof

open Sys2Proof.Machine (hiByte loByte wordOf)

/-- Why bytes are no instruction. -/
inductive DecodeError
  /-- The opcode is one of the 32 that no row lists (R103). -/
  | unassigned (op : Byte)
  /-- The bytes end before the instruction does. -/
  | truncated
  deriving DecidableEq, Repr

/-- What a decoder of a piece answers: on success, what it read and the bytes after it. -/
abbrev Decoded := Except DecodeError

/-- The next byte. -/
def nextByte : List Byte → Decoded (Byte × List Byte)
  | [] => .error .truncated
  | b :: bs => .ok (b, bs)

/-- A 16-bit field: bits 15..8, then bits 7..0 (R95). -/
def nextWord (bs : List Byte) : Decoded (Addr × List Byte) := do
  let (hi, bs) ← nextByte bs
  let (lo, bs) ← nextByte bs
  .ok (wordOf hi lo, bs)

/-- The operand bytes of the dual-operand form with high digit h, 1 to 7 (R100). -/
def nextDualForm (h : Nat) (bs : List Byte) : Decoded (DualForm × List Byte) := do
  match h with
  | 1 =>
    let (rs, bs) ← nextByte bs
    .ok (.ra rs, bs)
  | 2 =>
    let (iop, bs) ← nextByte bs
    .ok (.ia iop, bs)
  | 3 =>
    let (rs, bs) ← nextByte bs
    .ok (.rb rs, bs)
  | 4 =>
    let (rs, bs) ← nextByte bs
    let (rd, bs) ← nextByte bs
    .ok (.rr rs rd, bs)
  | 5 =>
    let (iop, bs) ← nextByte bs
    .ok (.ib iop, bs)
  | 6 => .ok (.ba, bs)
  | _ =>
    let (iop, bs) ← nextByte bs
    let (rd, bs) ← nextByte bs
    .ok (.ir iop rd, bs)

/-- Row 0 of the map: the operand-less instructions. -/
def decodeImplied (op : Byte) (l : Nat) (bs : List Byte) : Decoded (Instr × List Byte) :=
  match l with
  | 0x0 => .ok (.nop, bs)
  | 0x1 => .ok (.idle, bs)
  | 0x5 => .ok (.eint, bs)
  | 0x6 => .ok (.dint, bs)
  | 0x7 => .ok (.setc, bs)
  | 0x8 => .ok (.popSt, bs)
  | 0x9 => .ok (.stsp, bs)
  | 0xA => .ok (.rets, bs)
  | 0xB => .ok (.reti, bs)
  | 0xD => .ok (.ldsp, bs)
  | 0xE => .ok (.pushSt, bs)
  | _ => .error (.unassigned op)

/-- Rows 1 to 7: the dual-operand instructions; low digit 0 or 1 is unassigned (R100, R103). -/
def decodeDual (op : Byte) (h l : Nat) (bs : List Byte) : Decoded (Instr × List Byte) := do
  if l < 2 then .error (.unassigned op)
  else
    let (f, bs) ← nextDualForm h bs
    match l with
    | 0x2 => .ok (.mov (.dual f), bs)
    | 0x3 => .ok (.and f, bs)
    | 0x4 => .ok (.or f, bs)
    | 0x5 => .ok (.xor f, bs)
    | 0x6 =>
      let (ofst, bs) ← nextByte bs
      .ok (.btjo f ofst, bs)
    | 0x7 =>
      let (ofst, bs) ← nextByte bs
      .ok (.btjz f ofst, bs)
    | 0x8 => .ok (.add f, bs)
    | 0x9 => .ok (.adc f, bs)
    | 0xA => .ok (.sub f, bs)
    | 0xB => .ok (.sbb f, bs)
    | 0xC => .ok (.mpy f, bs)
    | 0xD => .ok (.cmp f, bs)
    | 0xE => .ok (.dac f, bs)
    | _ => .ok (.dsb f, bs)

/-- The CPU-side operand of a peripheral-file instruction: high digit 8, 9 or A (R81). -/
def nextPeriphSource (h : Nat) (bs : List Byte) : Decoded (PeriphSource × List Byte) := do
  match h with
  | 0x8 => .ok (.a, bs)
  | 0x9 => .ok (.b, bs)
  | _ =>
    let (iop, bs) ← nextByte bs
    .ok (.imm iop, bs)

/-- The addressing form of an extended instruction: high digit 8, 9 or A (R210). -/
def nextExtForm (h : Nat) (bs : List Byte) : Decoded (ExtForm × List Byte) := do
  match h with
  | 0x8 =>
    let (label, bs) ← nextWord bs
    .ok (.direct label, bs)
  | 0x9 =>
    let (n, bs) ← nextByte bs
    .ok (.indirect n, bs)
  | _ =>
    let (label, bs) ← nextWord bs
    .ok (.indexed label, bs)

/-- The operands of `MOVD`: high digit 8, 9 or A (R219). -/
def nextMovdForm (h : Nat) (bs : List Byte) : Decoded (MovdForm × List Byte) := do
  match h with
  | 0x8 =>
    let (iop, bs) ← nextWord bs
    let (rp, bs) ← nextByte bs
    .ok (.imm iop rp, bs)
  | 0x9 =>
    let (ps, bs) ← nextByte bs
    let (pd, bs) ← nextByte bs
    .ok (.pair ps pd, bs)
  | _ =>
    let (iop, bs) ← nextWord bs
    let (rp, bs) ← nextByte bs
    .ok (.immB iop rp, bs)

/-- Rows 8 to A, low digits 0 to 7: the peripheral-file instructions. -/
def decodePeriph (op : Byte) (h l : Nat) (bs : List Byte) : Decoded (Instr × List Byte) := do
  match l with
  | 0x0 =>
    if h = 0x8 then
      let (ps, bs) ← nextByte bs
      .ok (.movp (.toA ps), bs)
    else .error (.unassigned op)
  | 0x1 =>
    if h = 0x9 then
      let (ps, bs) ← nextByte bs
      .ok (.movp (.toB ps), bs)
    else .error (.unassigned op)
  | _ =>
    let (src, bs) ← nextPeriphSource h bs
    let (pn, bs) ← nextByte bs
    match l with
    | 0x2 => .ok (.movp (.toPeriph src pn), bs)
    | 0x3 => .ok (.andp src pn, bs)
    | 0x4 => .ok (.orp src pn, bs)
    | 0x5 => .ok (.xorp src pn, bs)
    | 0x6 =>
      let (ofst, bs) ← nextByte bs
      .ok (.btjop src pn ofst, bs)
    | _ =>
      let (ofst, bs) ← nextByte bs
      .ok (.btjzp src pn ofst, bs)

/-- Rows 8 to A, low digits 8 to F: `MOVD` and the extended instructions; 9 and F are unassigned. -/
def decodeExtended (op : Byte) (h l : Nat) (bs : List Byte) : Decoded (Instr × List Byte) := do
  match l with
  | 0x8 =>
    let (f, bs) ← nextMovdForm h bs
    .ok (.movd f, bs)
  | 0xA =>
    let (f, bs) ← nextExtForm h bs
    .ok (.lda f, bs)
  | 0xB =>
    let (f, bs) ← nextExtForm h bs
    .ok (.sta f, bs)
  | 0xC =>
    let (f, bs) ← nextExtForm h bs
    .ok (.br f, bs)
  | 0xD =>
    let (f, bs) ← nextExtForm h bs
    .ok (.cmpa f, bs)
  | 0xE =>
    let (f, bs) ← nextExtForm h bs
    .ok (.call f, bs)
  | _ => .error (.unassigned op)

/-- The operand of a single-operand instruction: high digit B, C or D (R101). -/
def nextSingle (h : Nat) (bs : List Byte) : Decoded (Single × List Byte) := do
  match h with
  | 0xB => .ok (.a, bs)
  | 0xC => .ok (.b, bs)
  | _ =>
    let (n, bs) ← nextByte bs
    .ok (.r n, bs)

/-- Rows B to D: the single-operand instructions. The low digits 0 and 1 are irregular and C6 is unassigned
(R101). -/
def decodeSingle (op : Byte) (h l : Nat) (bs : List Byte) : Decoded (Instr × List Byte) := do
  match l with
  | 0x0 =>
    match h with
    | 0xB => .ok (.clrc, bs)
    | 0xC => .ok (.mov .ab, bs)
    | _ =>
      let (rd, bs) ← nextByte bs
      .ok (.mov (.ar rd), bs)
  | 0x1 =>
    match h with
    | 0xB => .error (.unassigned op)
    | 0xC => .ok (.tstb, bs)
    | _ =>
      let (rd, bs) ← nextByte bs
      .ok (.mov (.br rd), bs)
  | _ =>
    if h = 0xC ∧ l = 0x6 then .error (.unassigned op)
    else
      let (d, bs) ← nextSingle h bs
      match l with
      | 0x2 => .ok (.dec d, bs)
      | 0x3 => .ok (.inc d, bs)
      | 0x4 => .ok (.inv d, bs)
      | 0x5 => .ok (.clr d, bs)
      | 0x6 => .ok (.xchb d, bs)
      | 0x7 => .ok (.swap d, bs)
      | 0x8 => .ok (.push d, bs)
      | 0x9 => .ok (.pop d, bs)
      | 0xA =>
        let (ofst, bs) ← nextByte bs
        .ok (.djnz d ofst, bs)
      | 0xB => .ok (.decd d, bs)
      | 0xC => .ok (.rr d, bs)
      | 0xD => .ok (.rrc d, bs)
      | 0xE => .ok (.rl d, bs)
      | _ => .ok (.rlc d, bs)

/-- E0 to E7: the relative jumps, each under the first of its two mnemonics (R109); E1 is unassigned (R103). -/
def decodeJump (op : Byte) (l : Nat) (bs : List Byte) : Decoded (Instr × List Byte) := do
  if l = 0x1 then .error (.unassigned op)
  else
    let (ofst, bs) ← nextByte bs
    match l with
    | 0x0 => .ok (.jmp ofst, bs)
    | 0x2 => .ok (.jz ofst, bs)
    | 0x3 => .ok (.jc ofst, bs)
    | 0x4 => .ok (.jp ofst, bs)
    | 0x5 => .ok (.jpz ofst, bs)
    | 0x6 => .ok (.jnz ofst, bs)
    | _ => .ok (.jnc ofst, bs)

/-- The instruction at the front of the bytes, and the bytes after it. `TRAP n` is opcode `0xFF - n` (R256). -/
def decode (bs : List Byte) : Decoded (Instr × List Byte) := do
  let (op, bs) ← nextByte bs
  let h := op.toNat / 16
  let l := op.toNat % 16
  if h = 0 then decodeImplied op l bs
  else if h < 0x8 then decodeDual op h l bs
  else if h < 0xB then (if l < 8 then decodePeriph op h l bs else decodeExtended op h l bs)
  else if h < 0xE then decodeSingle op h l bs
  else if op.toNat < 0xE8 then decodeJump op l bs
  else .ok (.trap (0xFF - op.toNat), bs)

/-- The opcodes of each length, the list of R106. -/
def opcodesOfLength : Nat → List (Nat × Nat)
  | 1 => [(0x00, 0x01), (0x05, 0x0B), (0x0D, 0x0E), (0x62, 0x65), (0x68, 0x6F), (0xB0, 0xB0), (0xB2, 0xB9),
      (0xBB, 0xC5), (0xC7, 0xC9), (0xCB, 0xCF), (0xE8, 0xFF)]
  | 2 => [(0x12, 0x15), (0x18, 0x1F), (0x22, 0x25), (0x28, 0x2F), (0x32, 0x35), (0x38, 0x3F), (0x52, 0x55),
      (0x58, 0x5F), (0x66, 0x67), (0x80, 0x80), (0x82, 0x85), (0x91, 0x95), (0x9A, 0x9E), (0xBA, 0xBA),
      (0xCA, 0xCA), (0xD0, 0xD9), (0xDB, 0xE0), (0xE2, 0xE7)]
  | 3 => [(0x16, 0x17), (0x26, 0x27), (0x36, 0x37), (0x42, 0x45), (0x48, 0x4F), (0x56, 0x57), (0x72, 0x75),
      (0x78, 0x7F), (0x86, 0x87), (0x8A, 0x8E), (0x96, 0x98), (0xA2, 0xA5), (0xAA, 0xAE), (0xDA, 0xDA)]
  | 4 => [(0x46, 0x47), (0x76, 0x77), (0x88, 0x88), (0xA6, 0xA8)]
  | _ => []

/-- Whether R106 gives the opcode the length. -/
def hasLength (op : Byte) (n : Nat) : Bool :=
  (opcodesOfLength n).any fun r => decide (r.1 ≤ op.toNat ∧ op.toNat ≤ r.2)

/-- The length of the instruction an opcode begins; an unassigned opcode has none (R106). -/
def instrLength (op : Byte) : Option Nat :=
  if hasLength op 1 then some 1
  else if hasLength op 2 then some 2
  else if hasLength op 3 then some 3
  else if hasLength op 4 then some 4
  else none

/-- The bytes of an instruction whose bits are w: bits 7..0 the first, up to four bytes; the bits from nbits up
are 0. -/
def tableBytes (nbits w : Nat) : List Byte :=
  let v := w % 2 ^ nbits
  [BitVec.ofNat 8 v, BitVec.ofNat 8 (v / 2 ^ 8), BitVec.ofNat 8 (v / 2 ^ 16), BitVec.ofNat 8 (v / 2 ^ 24)]

/-- The instruction the decoder reads from an instruction whose bits are w, numbered as spec/opcode_table.json
numbers them. -/
def decodeTableWord (nbits w : Nat) : Option Instr :=
  match decode (tableBytes nbits w) with
  | .ok (i, _) => some i
  | .error _ => none

/-! ### The encoder -/

/-- The spelling the decoder answers for an instruction's bytes: the first of each pair of R109. -/
def Instr.canonical : Instr → Instr
  | .tsta => .clrc
  | .jeq ofst => .jz ofst
  | .jhs ofst => .jc ofst
  | .jgt ofst => .jp ofst
  | .jge ofst => .jpz ofst
  | .jne ofst => .jnz ofst
  | .jl ofst => .jnc ofst
  | i => i

/-- The high digit of the opcode of a dual-operand form, as a byte (R100). -/
def DualForm.column : DualForm → Byte
  | .ba => 0x60#8
  | .ra _ => 0x10#8
  | .rb _ => 0x30#8
  | .rr _ _ => 0x40#8
  | .ia _ => 0x20#8
  | .ib _ => 0x50#8
  | .ir _ _ => 0x70#8

/-- The operand bytes of a dual-operand form (R82). -/
def DualForm.bytes : DualForm → List Byte
  | .ba => []
  | .ra rs => [rs]
  | .rb rs => [rs]
  | .rr rs rd => [rs, rd]
  | .ia iop => [iop]
  | .ib iop => [iop]
  | .ir iop rd => [iop, rd]

/-- A dual-operand instruction with the given low digit. -/
def encodeDual (l : Byte) (f : DualForm) : List Byte := (f.column + l) :: f.bytes

/-- A single-operand instruction with the given low digit (R101). -/
def encodeSingle (l : Byte) : Single → List Byte
  | .a => [0xB0#8 + l]
  | .b => [0xC0#8 + l]
  | .r n => [0xD0#8 + l, n]

/-- A peripheral-file instruction with the given low digit (R81, R82). -/
def encodePeriph (l : Byte) (src : PeriphSource) (pn : Byte) : List Byte :=
  match src with
  | .a => [0x80#8 + l, pn]
  | .b => [0x90#8 + l, pn]
  | .imm iop => [0xA0#8 + l, iop, pn]

/-- An extended instruction with the given low digit (R210). -/
def encodeExtended (l : Byte) : ExtForm → List Byte
  | .direct label => [0x80#8 + l, hiByte label, loByte label]
  | .indexed label => [0xA0#8 + l, hiByte label, loByte label]
  | .indirect n => [0x90#8 + l, n]

/-- The bytes of a well-formed instruction (R82, R102, R110). -/
def encode : Instr → List Byte
  | .nop => [0x00#8]
  | .idle => [0x01#8]
  | .eint => [0x05#8]
  | .dint => [0x06#8]
  | .setc => [0x07#8]
  | .popSt => [0x08#8]
  | .stsp => [0x09#8]
  | .rets => [0x0A#8]
  | .reti => [0x0B#8]
  | .ldsp => [0x0D#8]
  | .pushSt => [0x0E#8]
  | .mov (.dual f) => encodeDual 0x2#8 f
  | .mov .ab => [0xC0#8]
  | .mov (.ar rd) => [0xD0#8, rd]
  | .mov (.br rd) => [0xD1#8, rd]
  | .and f => encodeDual 0x3#8 f
  | .or f => encodeDual 0x4#8 f
  | .xor f => encodeDual 0x5#8 f
  | .btjo f ofst => encodeDual 0x6#8 f ++ [ofst]
  | .btjz f ofst => encodeDual 0x7#8 f ++ [ofst]
  | .add f => encodeDual 0x8#8 f
  | .adc f => encodeDual 0x9#8 f
  | .sub f => encodeDual 0xA#8 f
  | .sbb f => encodeDual 0xB#8 f
  | .mpy f => encodeDual 0xC#8 f
  | .cmp f => encodeDual 0xD#8 f
  | .dac f => encodeDual 0xE#8 f
  | .dsb f => encodeDual 0xF#8 f
  | .movp (.toPeriph src pd) => encodePeriph 0x2#8 src pd
  | .movp (.toA ps) => [0x80#8, ps]
  | .movp (.toB ps) => [0x91#8, ps]
  | .andp src pn => encodePeriph 0x3#8 src pn
  | .orp src pn => encodePeriph 0x4#8 src pn
  | .xorp src pn => encodePeriph 0x5#8 src pn
  | .btjop src pn ofst => encodePeriph 0x6#8 src pn ++ [ofst]
  | .btjzp src pn ofst => encodePeriph 0x7#8 src pn ++ [ofst]
  | .movd (.imm iop rp) => [0x88#8, hiByte iop, loByte iop, rp]
  | .movd (.immB iop rp) => [0xA8#8, hiByte iop, loByte iop, rp]
  | .movd (.pair ps pd) => [0x98#8, ps, pd]
  | .lda f => encodeExtended 0xA#8 f
  | .sta f => encodeExtended 0xB#8 f
  | .br f => encodeExtended 0xC#8 f
  | .cmpa f => encodeExtended 0xD#8 f
  | .call f => encodeExtended 0xE#8 f
  | .clrc => [0xB0#8]
  | .tsta => [0xB0#8]
  | .dec d => encodeSingle 0x2#8 d
  | .inc d => encodeSingle 0x3#8 d
  | .inv d => encodeSingle 0x4#8 d
  | .clr d => encodeSingle 0x5#8 d
  | .xchb d => encodeSingle 0x6#8 d
  | .swap d => encodeSingle 0x7#8 d
  | .push d => encodeSingle 0x8#8 d
  | .pop d => encodeSingle 0x9#8 d
  | .djnz d ofst => encodeSingle 0xA#8 d ++ [ofst]
  | .decd d => encodeSingle 0xB#8 d
  | .rr d => encodeSingle 0xC#8 d
  | .rrc d => encodeSingle 0xD#8 d
  | .rl d => encodeSingle 0xE#8 d
  | .rlc d => encodeSingle 0xF#8 d
  | .tstb => [0xC1#8]
  | .jmp ofst => [0xE0#8, ofst]
  | .jeq ofst => [0xE2#8, ofst]
  | .jz ofst => [0xE2#8, ofst]
  | .jc ofst => [0xE3#8, ofst]
  | .jhs ofst => [0xE3#8, ofst]
  | .jgt ofst => [0xE4#8, ofst]
  | .jp ofst => [0xE4#8, ofst]
  | .jge ofst => [0xE5#8, ofst]
  | .jpz ofst => [0xE5#8, ofst]
  | .jne ofst => [0xE6#8, ofst]
  | .jnz ofst => [0xE6#8, ofst]
  | .jl ofst => [0xE7#8, ofst]
  | .jnc ofst => [0xE7#8, ofst]
  | .trap n => [BitVec.ofNat 8 (0xFF - n)]

end Sys2Proof
end

