-- ==== Sys2Proof/Machine/Fetch.lean ====
section
/-! DEFINITION. Fetching an instruction's bytes (spec/00_scope.md R11, R12; spec/20_memory.md R62): each byte with
`MemRead`, in ascending address order, pc moving past it. -/

namespace Sys2Proof.Machine

/-- `fetch8()` (R11). -/
def fetch8 (s : State) : Result (Byte × State) := do
  let (v, s) ← memRead s.pc s
  .ok (v, { s with pc := s.pc + 1#16 })

/-- The next n instruction bytes. -/
def fetchBytes : Nat → State → Result (List Byte × State)
  | 0, s => .ok ([], s)
  | n + 1, s => do
    let (v, s) ← fetch8 s
    let (vs, s) ← fetchBytes n s
    .ok (v :: vs, s)

/-- What was fetched: an instruction of the table, or `JN` where the platform admits it (R104). -/
inductive Fetched
  | instr (i : Instr)
  | jn (ofst : Byte)
  deriving DecidableEq, Repr

/-- The instruction at pc and the state with pc past it (R106, R107): the opcode decides how many bytes are fetched.
An unassigned opcode is refused by name (R103); E1 is `JN` under `ADMIT_JN` (R104). -/
def fetchInstr (s : State) : Result (Fetched × State) := do
  let (op, s) ← fetch8 s
  match instrLength op with
  | some n =>
    let (bs, s) ← fetchBytes (n - 1) s
    match decode (op :: bs) with
    | .ok (i, _) => .ok (.instr i, s)
    | .error _ => .error (.refusal (.unassignedOpcode op))
  | none =>
    if op = 0xE1#8 ∧ s.cfg.admitJn = true then
      let (ofst, s) ← fetch8 s
      .ok (.jn ofst, s)
    else .error (.refusal (.unassignedOpcode op))

end Sys2Proof.Machine
end

