-- ==== Sys2Proof/Machine/Step.lean ====
section
/-! DEFINITION. One step of the machine: what happens at one instruction boundary (spec/60_exceptions.md R264). -/

namespace Sys2Proof.Machine

/-- Fetch, decode and run the instruction at pc (R12). -/
def runNext (s : State) : Host.Outcome State Fault Refusal :=
  match fetchInstr s with
  | .ok (.instr i, s') => exec i s'
  | .ok (.jn ofst, s') => execJn ofst s'
  | .error e => finish (.error e)

/-- The boundary (R264): reset before everything, then an accepted interrupt, then waiting while idle, else the next
instruction. -/
def step (s : State) : Host.Outcome State Fault Refusal :=
  if s.resetReq then finish (resetSequence s)
  else
    match acceptedLevel s with
    | some k => finish (interruptEntry k s)
    | none => if s.idle then .next s else runNext s

/-- The bytes stored from the address up, wrapping at the top of the address space. -/
def storeBytes : List Byte → Addr → Memory → Memory
  | [], _, m => m
  | v :: vs, a, m => storeBytes vs (a + 1#16) (m.write a.toNat v)

/-- s with an instruction's bytes stored where the next step fetches it: from pc up, with nothing in the way of the
fetch (no reset request, no pending interrupt, not idle). It stands for loading a program from outside (log entry 9). -/
def State.withFetchWord (s : State) (nbits w : Nat) : State :=
  { s with
    mem := storeBytes (tableBytes nbits w) s.pc s.mem
    idle := false
    pending := []
    resetReq := false }

end Sys2Proof.Machine
end

