-- ==== Sys2Proof/Machine/Environment.lean ====
section
/-! DEFINITION. What the environment may do to the machine between two steps (spec/10_state.md R20,
spec/60_exceptions.md R262, spec/70_reset_and_hazards.md R315): request a level or take the request back, and request
reset. Its answers to peripheral and device reads are free values of Sys2Proof/Config.lean. When it acts is outside
`step`: a statement about every state is a statement about every arrival (log entry 12). -/

namespace Sys2Proof.Machine

/-- A level entered into the set of pending ones, kept in rising order. -/
def insertLevel (k : Nat) : List Nat → List Nat
  | [] => [k]
  | j :: js => if k < j then k :: j :: js else if k = j then j :: js else j :: insertLevel k js

/-- An act of the environment. -/
inductive EnvAct
  /-- Level k is requested. -/
  | raise (k : Nat)
  /-- The request of level k is taken back. -/
  | withdraw (k : Nat)
  /-- Reset is requested. -/
  | requestReset
  deriving DecidableEq, Repr

/-- The state after an act of the environment. Only a level of `IntLevels` can be requested (R262). -/
def envAct (e : EnvAct) (s : State) : State :=
  match e with
  | .raise k => if k ∈ s.cfg.intLevels then { s with pending := insertLevel k s.pending } else s
  | .withdraw k => { s with pending := s.pending.filter (· ≠ k) }
  | .requestReset => { s with resetReq := true }

end Sys2Proof.Machine
end

