-- ==== Sys2Proof/Safety.lean ====
section
/-! DEFINITION. The terms in which claims about the machine are made: the invariant of its states, what an instruction may
store to, runs, and the end of a run. -/

namespace Sys2Proof.Machine

/-- The CPU owns what is stored at the address: a register, RAM or ROM. Reading it has no side effect (R55). -/
abbrev State.Storage (s : State) (a : Addr) : Prop :=
  placeOf s.cfg a = .register ∨ placeOf s.cfg a = .ram ∨ placeOf s.cfg a = .rom

/-- The address may be written and the CPU owns what is stored there: a register or RAM. -/
abbrev State.Writable (s : State) (a : Addr) : Prop :=
  placeOf s.cfg a = .register ∨ placeOf s.cfg a = .ram

/-- Register p names a pair: it is not register 0, and it exists; the register before it then exists too (R23). -/
abbrev State.HasPair (s : State) (p : Byte) : Prop := p ≠ 0#8 ∧ s.HasReg p

/-- The value of the pair named by register p (R23). -/
def State.pair (s : State) (p : Byte) : Addr := s.reg (p - 1#8) ++ s.reg p

/-! ### What an instruction leaves behind -/

/-- The status register after the 8-bit result v: C as given, N its bit 7, Z whether it is zero, I as it was (R29). -/
def State.flags (s : State) (c : Bool) (v : Byte) : Status := ⟨c, v.getLsbD 7, decide (v = 0#8), s.st.i⟩

/-- The status register after the 16-bit result w: N is its bit 15, Z whether its high byte is zero (R29). -/
def State.wideFlags (s : State) (c : Bool) (w : Addr) : Status := ⟨c, w.getLsbD 15, decide (w.toNat < 256), s.st.i⟩

/-- v stored in register n, the status register st, nothing else changed. -/
def State.put (s : State) (n v : Byte) (st : Status) : State := { s with mem := s.mem.write n.toNat v, st := st }

/-- w stored in the pair named by register p, the status register st, nothing else changed (R23). -/
def State.putPair (s : State) (p : Byte) (w : Addr) (st : Status) : State :=
  { s with
    mem := (s.mem.write (p - 1#8).toNat (w.extractLsb' 8 8)).write p.toNat (w.extractLsb' 0 8)
    st := st }

/-- The target of a jump, from the address of the next instruction (R96). -/
def State.target (s : State) (ofst : Byte) : Addr := s.pc + ofst.signExtend 16

end Sys2Proof.Machine

namespace Sys2Proof

open Sys2Proof.Machine (State)

/-! ### Operands and their availability -/

/-- The value of a source operand. -/
def Operand.value (o : Operand) (s : State) : Byte :=
  match o with
  | .reg n => s.reg n
  | .imm v => v

/-- A source operand can be read: an immediate, or a register that exists (R22). -/
abbrev Operand.Available (o : Operand) (s : State) : Prop :=
  match o with
  | .reg n => s.HasReg n
  | .imm _ => True

/-- Both operands of a dual-operand form exist. -/
abbrev DualForm.Available (f : DualForm) (s : State) : Prop := Operand.Available f.source s ∧ s.HasReg f.dest

/-- Both operands of a form of `MOV` exist. -/
abbrev MovForm.Available (f : MovForm) (s : State) : Prop := Operand.Available f.source s ∧ s.HasReg f.dest

/-- The effective address of an extended form can be formed (R97, R98, R99). -/
abbrev ExtForm.Available (f : ExtForm) (s : State) : Prop :=
  match f with
  | .direct _ => True
  | .indexed _ => True
  | .indirect n => s.HasPair n

/-- The effective address of an extended form (R97, R98, R99). -/
def ExtForm.address (f : ExtForm) (s : State) : Addr :=
  match f with
  | .direct label => label
  | .indexed label => label + (s.reg 1#8).setWidth 16
  | .indirect n => s.pair n

/-- Both operands of a form of `MOVD` exist (R219). -/
abbrev MovdForm.Available (f : MovdForm) (s : State) : Prop :=
  match f with
  | .imm _ rp => s.HasPair rp
  | .immB _ rp => s.HasPair rp
  | .pair ps pd => s.HasPair ps ∧ s.HasPair pd

/-- The value a form of `MOVD` moves (R219). -/
def MovdForm.value (f : MovdForm) (s : State) : Addr :=
  match f with
  | .imm iop _ => iop
  | .immB iop _ => iop + (s.reg 1#8).setWidth 16
  | .pair ps _ => s.pair ps

/-! ### The columns of the table -/

/-- The bytes of an instruction that has the seven dual-operand forms, given the seven opcodes in the order of R120:
`B,A`; `Rs,A`; `Rs,B`; `Rs,Rd`; `%iop,A`; `%iop,B`; `%iop,Rd`. -/
def DualEncoding (mk : DualForm → Instr) (ba ra rb rr ia ib ir : Byte) : Prop :=
  encode (mk .ba) = [ba] ∧ (∀ rs, encode (mk (.ra rs)) = [ra, rs]) ∧ (∀ rs, encode (mk (.rb rs)) = [rb, rs]) ∧
  (∀ rs rd, encode (mk (.rr rs rd)) = [rr, rs, rd]) ∧ (∀ v, encode (mk (.ia v)) = [ia, v]) ∧
  (∀ v, encode (mk (.ib v)) = [ib, v]) ∧ (∀ v rd, encode (mk (.ir v rd)) = [ir, v, rd])

/-- The bytes of an instruction that has the forms A, B and `Rn`, given the three opcodes (R101). -/
def SingleEncoding (mk : Single → Instr) (a b r : Byte) : Prop :=
  encode (mk .a) = [a] ∧ encode (mk .b) = [b] ∧ ∀ n, encode (mk (.r n)) = [r, n]

/-- The bytes of a bit test and jump, given the seven opcodes in the same order: the operand bytes of the form, then the
offset (R100, R160). -/
def DualJumpEncoding (mk : DualForm → Byte → Instr) (ba ra rb rr ia ib ir : Byte) : Prop :=
  ∀ o, encode (mk .ba o) = [ba, o] ∧ (∀ rs, encode (mk (.ra rs) o) = [ra, rs, o]) ∧
    (∀ rs, encode (mk (.rb rs) o) = [rb, rs, o]) ∧ (∀ rs rd, encode (mk (.rr rs rd) o) = [rr, rs, rd, o]) ∧
    (∀ v, encode (mk (.ia v) o) = [ia, v, o]) ∧ (∀ v, encode (mk (.ib v) o) = [ib, v, o]) ∧
    (∀ v rd, encode (mk (.ir v rd) o) = [ir, v, rd, o])

/-- The bytes of an instruction on a peripheral register with the sources A, B and `%iop`, given the three opcodes and the bytes
that follow the operands, an offset or none (R82, R200). -/
def PeriphEncoding (mk : PeriphSource → Byte → Instr) (rest : List Byte) (a b imm : Byte) : Prop :=
  ∀ pn, encode (mk .a pn) = [a, pn] ++ rest ∧ encode (mk .b pn) = [b, pn] ++ rest ∧
    ∀ v, encode (mk (.imm v) pn) = [imm, v, pn] ++ rest

/-- The bytes of an instruction that has the forms `@Label`, `@Label(B)` and `*Rn`, given the three opcodes: the label is high
byte first (R95, R210). -/
def ExtEncoding (mk : ExtForm → Instr) (direct indexed indirect : Byte) : Prop :=
  (∀ hi lo : Byte, encode (mk (.direct (hi ++ lo))) = [direct, hi, lo]) ∧
  (∀ hi lo : Byte, encode (mk (.indexed (hi ++ lo))) = [indexed, hi, lo]) ∧
  ∀ n, encode (mk (.indirect n)) = [indirect, n]

/-- The 32 opcodes no row of the table lists (R103). -/
def unassignedOpcodes : List Nat :=
  [0x02, 0x03, 0x04, 0x0C, 0x0F, 0x10, 0x11, 0x20, 0x21, 0x30, 0x31, 0x40, 0x41, 0x50, 0x51, 0x60, 0x61, 0x70, 0x71,
    0x81, 0x89, 0x8F, 0x90, 0x99, 0x9F, 0xA0, 0xA1, 0xA9, 0xAF, 0xB1, 0xC6, 0xE1]

/-- A symbol of the STATUS column (R6). -/
inductive StatusSymbol
  /-- `0`: set always to 0. -/
  | zero
  /-- `1`: set always to 1. -/
  | one
  /-- `R`: set depending on results of the operation. -/
  | result
  /-- `x`: not affected. -/
  | kept
  /-- `b7`, `b0`: set to that bit of the operand as it was before. -/
  | bit (n : Nat)
  deriving DecidableEq, Repr

/-- What a symbol says of a status bit, before and after an instruction with the given operand. -/
def StatusSymbol.Holds (y : StatusSymbol) (operand : Byte) (before after : Bool) : Prop :=
  match y with
  | .zero => after = false
  | .one => after = true
  | .result => True
  | .kept => after = before
  | .bit n => after = operand.getLsbD n

/-- The STATUS column of the table, in its order C, N, Z, I (spec/opcode_table.json, field `status`); `POP ST` and `RETI`
load all four bits (spec/90_conflicts.md C2). -/
def Instr.statusColumn : Instr → StatusSymbol × StatusSymbol × StatusSymbol × StatusSymbol
  | .nop | .idle | .stsp | .rets | .ldsp | .br _ | .call _ | .djnz _ _ | .trap _ => (.kept, .kept, .kept, .kept)
  | .jmp _ | .jeq _ | .jz _ | .jc _ | .jhs _ | .jgt _ | .jp _ | .jge _ | .jpz _ | .jne _ | .jnz _ | .jl _ | .jnc _ =>
    (.kept, .kept, .kept, .kept)
  | .eint => (.one, .one, .one, .one)
  | .dint => (.zero, .zero, .zero, .zero)
  | .setc => (.one, .zero, .one, .kept)
  | .clr _ => (.zero, .zero, .one, .kept)
  | .popSt | .reti => (.result, .result, .result, .result)
  | .pushSt | .mov _ | .and _ | .or _ | .xor _ | .btjo _ _ | .btjz _ _ | .mpy _ => (.zero, .result, .result, .kept)
  | .movp _ | .andp _ _ | .orp _ _ | .xorp _ _ | .btjop _ _ _ | .btjzp _ _ _ => (.zero, .result, .result, .kept)
  | .movd _ | .lda _ | .sta _ | .clrc | .tsta | .tstb | .inv _ | .xchb _ | .push _ | .pop _ =>
    (.zero, .result, .result, .kept)
  | .add _ | .adc _ | .sub _ | .sbb _ | .cmp _ | .dac _ | .dsb _ | .cmpa _ => (.result, .result, .result, .kept)
  | .dec _ | .inc _ | .swap _ | .decd _ => (.result, .result, .result, .kept)
  | .rr _ | .rrc _ => (.bit 0, .result, .result, .kept)
  | .rl _ | .rlc _ => (.bit 7, .result, .result, .kept)

/-- The operand of a rotate; no other instruction has a `b` in its STATUS column. -/
def Instr.rotated (i : Instr) (s : State) : Byte :=
  match i with
  | .rr d | .rrc d | .rl d | .rlc d => s.reg d.num
  | _ => 0#8

/-- The instructions that set pc other than by moving past their own bytes (R24), and `IDLE`, which holds it (R231). -/
def Instr.setsPc : Instr → Bool
  | .br _ | .call _ | .rets | .reti | .trap _ | .idle => true
  | .btjo _ _ | .btjz _ _ | .btjop _ _ _ | .btjzp _ _ _ | .djnz _ _ => true
  | .jmp _ | .jeq _ | .jz _ | .jc _ | .jhs _ | .jgt _ | .jp _ | .jge _ | .jpz _ | .jne _ | .jnz _ | .jl _ | .jnc _ => true
  | _ => false

/-- The stack pointer after an instruction (R25): pushes and pops move it by one a byte, `LDSP` loads it. -/
def Instr.spAfter (i : Instr) (s : State) : Byte :=
  match i with
  | .push _ | .pushSt => s.sp + 1#8
  | .call _ | .trap _ => s.sp + 2#8
  | .pop _ | .popSt => s.sp - 1#8
  | .rets => s.sp - 2#8
  | .reti => s.sp - 3#8
  | .ldsp => s.reg 1#8
  | _ => s.sp

/-- The instructions that may read or write outside the registers and the stack, so that the peripheral file or a
device may answer (R36, R55). -/
def Instr.reachesOut : Instr → Bool
  | .movp _ | .andp _ _ | .orp _ _ | .xorp _ _ | .btjop _ _ _ | .btjzp _ _ _ => true
  | .lda _ | .sta _ | .cmpa _ | .trap _ => true
  | _ => false

end Sys2Proof

namespace Sys2Proof.Machine

/-- What holds of every state the machine reaches. -/
structure State.Inv (s : State) : Prop where
  /-- Memory is in its canonical form. -/
  canonical : s.mem.wf = true
  /-- Only addresses whose bytes the CPU owns are listed: none of the peripheral file, of a device or of a hole. -/
  owned : ∀ c ∈ s.mem, c.1 < 65536 ∧ s.Storage (BitVec.ofNat 16 c.1)
  /-- The pending levels stand in rising order, each once. -/
  rising : s.pending.Pairwise (· < ·)
  /-- Only levels of the platform are pending (R262). -/
  known : ∀ k ∈ s.pending, k ∈ s.cfg.intLevels
  /-- The platform's levels lie in 1..23 (R262). -/
  levels : ∀ k ∈ s.cfg.intLevels, 1 ≤ k ∧ k ≤ 23

/-- The addresses of the bytes an instruction stores to, computed as its meaning computes them. An instruction that
writes to the peripheral file or a device stores nothing there (R31). -/
def storedBy (i : Instr) (s : State) : List Nat :=
  match i with
  | .nop | .idle | .eint | .dint | .setc | .popSt | .rets | .reti | .ldsp => []
  | .stsp => [1]
  | .pushSt => [(s.sp + 1#8).toNat]
  | .mov f => [f.dest.toNat]
  | .and f | .or f | .xor f | .add f | .adc f | .sub f | .sbb f | .dac f | .dsb f => [f.dest.toNat]
  | .mpy _ => [0, 1]
  | .cmp _ | .btjo _ _ | .btjz _ _ => []
  | .movp (.toPeriph _ _) => []
  | .movp (.toA _) => [0]
  | .movp (.toB _) => [1]
  | .andp _ _ | .orp _ _ | .xorp _ _ | .btjop _ _ _ | .btjzp _ _ _ => []
  | .movd f => [(f.dest - 1#8).toNat, f.dest.toNat]
  | .lda _ => [0]
  | .sta f => match effectiveAddr f s with
    | .ok ea => [ea.toNat]
    | .error _ => []
  | .br _ | .cmpa _ => []
  | .call _ => [(s.sp + 1#8).toNat, (s.sp + 2#8).toNat]
  | .clrc | .tsta | .tstb => []
  | .dec d | .inc d | .inv d | .clr d | .swap d | .rr d | .rrc d | .rl d | .rlc d => [d.num.toNat]
  | .xchb d => [d.num.toNat, 1]
  | .push _ => [(s.sp + 1#8).toNat]
  | .pop d => [d.num.toNat]
  | .djnz d _ => [d.num.toNat]
  | .decd d => [(d.num - 1#8).toNat, d.num.toNat]
  | .jmp _ | .jeq _ | .jz _ | .jc _ | .jhs _ | .jgt _ | .jp _ | .jge _ | .jpz _ | .jne _ | .jnz _ | .jl _ | .jnc _ => []
  | .trap _ => [(s.sp + 1#8).toNat, (s.sp + 2#8).toNat]

/-- The n bytes stored from pc up, wrapping at the top of the address space (R24). -/
def State.codeBytes (s : State) (n : Nat) : List Byte :=
  (List.range n).map fun k => s.mem.read (s.pc + BitVec.ofNat 16 k).toNat

/-- The n bytes from pc up lie where the CPU owns what is stored. -/
abbrev State.CodeOwned (s : State) (n : Nat) : Prop := ∀ k < n, s.Storage (s.pc + BitVec.ofNat 16 k)

/-- After the bytes bs of an instruction, one byte more is fetched: the opcode, or a further byte of as many as the opcode has
(R106), `JN` included where the platform admits it (R104). -/
def State.FetchGoesOn (s : State) (bs : List Byte) : Prop :=
  match bs with
  | [] => True
  | op :: operands =>
    operands.length + 1 < (instrLength op).getD (if op = 0xE1#8 ∧ s.cfg.admitJn = true then 2 else 0)

/-- The next step runs an instruction: no reset request, no interrupt to accept, not idle (R264). -/
abbrev State.Ready (s : State) : Prop := s.resetReq = false ∧ acceptedLevel s = none ∧ s.idle = false

/-- The states the machine and its environment reach from a state (R20). -/
inductive Reaches (s : State) : State → Prop
  | start : Reaches s s
  | step {t u : State} : Reaches s t → Sys2Proof.Machine.step t = .next u → Reaches s u
  | environment {t : State} (e : EnvAct) : Reaches s t → Reaches s (envAct e t)

/-- A run ends when pc is the end address at an instruction boundary (R315, parameter `EndAddr`). -/
def State.AtEnd (s : State) (endAddr : Addr) : Prop := s.pc = endAddr

/-- A state is safe when no stop can be reached from it: every state the machine and its environment reach has a
successor. -/
def State.Safe (s : State) : Prop := ∀ t, Reaches s t → ∃ u, Sys2Proof.Machine.step t = .next u

end Sys2Proof.Machine
end

