-- ==== Sys2Proof/Certificates/Slice0/Obligations.lean ====
section
/-! DEFINITION. The statements for the provers. When exec runs an instruction, pc is the address of the next one
(spec/00_scope.md R12); `StepRunsDecodedInstruction` carries what is said of exec to a step.

An equation `exec i s = .next t` with t written as an update of s is the result, the frame and the completion of the
instruction at once: every field the update does not name is as it was. Such a statement begins with the bytes of each form, so
that every opcode of the table is fixed by one.

Throughout, A and B are the registers 0 and 1 and the register file lies at the addresses 0x0000..0x00FF (R21, R22): the
spec's own decision D1, log entry 13, which no statement counts among the rules it cites. The order of operand bytes is its
decision D7 and that of the two bytes of a 16-bit field its decision D5, log entry 16. -/

section

open Sys2Proof Sys2Proof.Machine

/-! ### Encoding -/

/-- Words written out from the spec's encoding of them decode to the instruction they stand for: one word at least of each
format of R82, in the order of its table. The order of the operand bytes is the spec's decision D7 and that of the two bytes
of a 16-bit field its decision D5 (log entry 16); that FB is `TRAP 4` is its decision D12 (log entry 22). -/
def Obligations.SampleWordsDecode : Prop :=
  decode [0x00#8] = .ok (.nop, []) ∧
  decode [0x0B#8] = .ok (.reti, []) ∧
  decode [0xFB#8] = .ok (.trap 4, []) ∧
  decode [0xB2#8] = .ok (.dec .a, []) ∧
  decode [0xC4#8] = .ok (.inv .b, []) ∧
  decode [0xD5#8, 0xC8#8] = .ok (.clr (.r 0xC8#8), []) ∧
  decode [0xBA#8, 0xFE#8] = .ok (.djnz .a 0xFE#8, []) ∧
  decode [0xCA#8, 0xFE#8] = .ok (.djnz .b 0xFE#8, []) ∧
  decode [0xDA#8, 0x07#8, 0xFD#8] = .ok (.djnz (.r 0x07#8) 0xFD#8, []) ∧
  decode [0x68#8] = .ok (.add .ba, []) ∧
  decode [0xC0#8] = .ok (.mov .ab, []) ∧
  decode [0x1A#8, 0x09#8] = .ok (.sub (.ra 0x09#8), []) ∧
  decode [0x39#8, 0x09#8] = .ok (.adc (.rb 0x09#8), []) ∧
  decode [0xD0#8, 0x09#8] = .ok (.mov (.ar 0x09#8), []) ∧
  decode [0xD1#8, 0x09#8] = .ok (.mov (.br 0x09#8), []) ∧
  decode [0x48#8, 0x05#8, 0x06#8] = .ok (.add (.rr 0x05#8 0x06#8), []) ∧
  decode [0x28#8, 0x10#8] = .ok (.add (.ia 0x10#8), []) ∧
  decode [0x5D#8, 0x10#8] = .ok (.cmp (.ib 0x10#8), []) ∧
  decode [0x74#8, 0x80#8, 0x09#8] = .ok (.or (.ir 0x80#8 0x09#8), []) ∧
  decode [0x67#8, 0x05#8] = .ok (.btjz .ba 0x05#8, []) ∧
  decode [0x16#8, 0x02#8, 0x03#8] = .ok (.btjo (.ra 0x02#8) 0x03#8, []) ∧
  decode [0x37#8, 0x02#8, 0x03#8] = .ok (.btjz (.rb 0x02#8) 0x03#8, []) ∧
  decode [0x46#8, 0x01#8, 0x02#8, 0x03#8] = .ok (.btjo (.rr 0x01#8 0x02#8) 0x03#8, []) ∧
  decode [0x26#8, 0x01#8, 0x05#8] = .ok (.btjo (.ia 0x01#8) 0x05#8, []) ∧
  decode [0x57#8, 0x01#8, 0x05#8] = .ok (.btjz (.ib 0x01#8) 0x05#8, []) ∧
  decode [0x76#8, 0x01#8, 0x02#8, 0x03#8] = .ok (.btjo (.ir 0x01#8 0x02#8) 0x03#8, []) ∧
  decode [0x83#8, 0x06#8] = .ok (.andp .a 0x06#8, []) ∧
  decode [0x94#8, 0x06#8] = .ok (.orp .b 0x06#8, []) ∧
  decode [0xA2#8, 0xAA#8, 0x06#8] = .ok (.movp (.toPeriph (.imm 0xAA#8) 0x06#8), []) ∧
  decode [0x80#8, 0x04#8] = .ok (.movp (.toA 0x04#8), []) ∧
  decode [0x91#8, 0x04#8] = .ok (.movp (.toB 0x04#8), []) ∧
  decode [0x86#8, 0x06#8, 0x03#8] = .ok (.btjop .a 0x06#8 0x03#8, []) ∧
  decode [0x97#8, 0x04#8, 0x03#8] = .ok (.btjzp .b 0x04#8 0x03#8, []) ∧
  decode [0xA6#8, 0x08#8, 0x06#8, 0x03#8] = .ok (.btjop (.imm 0x08#8) 0x06#8 0x03#8, []) ∧
  decode [0x8A#8, 0x20#8, 0x01#8] = .ok (.lda (.direct 0x2001#16), []) ∧
  decode [0xAB#8, 0x20#8, 0x00#8] = .ok (.sta (.indexed 0x2000#16), []) ∧
  decode [0x9E#8, 0x05#8] = .ok (.call (.indirect 0x05#8), []) ∧
  decode [0x88#8, 0x12#8, 0x34#8, 0x05#8] = .ok (.movd (.imm 0x1234#16 0x05#8), []) ∧
  decode [0xA8#8, 0x12#8, 0x34#8, 0x07#8] = .ok (.movd (.immB 0x1234#16 0x07#8), []) ∧
  decode [0x98#8, 0x03#8, 0x05#8] = .ok (.movd (.pair 0x03#8 0x05#8), []) ∧
  decode [0xE0#8, 0x80#8] = .ok (.jmp 0x80#8, [])

/-- Decoding the bytes of any well-formed instruction gives it back, under the first of its spellings where it has two
(R109), and leaves the bytes after it: no operand bit of any of the table's forms is dropped (R82, R102, R105). -/
def Obligations.DecodeOfEncode : Prop :=
  ∀ (i : Instr) (rest : List Byte), WellFormed i = true → decode (encode i ++ rest) = .ok (i.canonical, rest)

/-- The other direction: whatever the decoder reads is well formed, is a first spelling, and stands for exactly the bytes
it was read from, so two different byte sequences never decode to one instruction (R80, R107, R109). -/
def Obligations.DecodedBytesAreTheEncoding : Prop :=
  ∀ (bs rest : List Byte) (i : Instr), decode bs = .ok (i, rest) →
    WellFormed i = true ∧ i.canonical = i ∧ bs = encode i ++ rest

/-- The opcode alone decides the length: that of R106 for every instruction of the table; and exactly the 32 opcodes of R103
have none and are rejected by name, whatever bytes follow (R80, R103, R106). -/
def Obligations.OpcodeDecidesLength : Prop :=
  (∀ i : Instr, WellFormed i = true → ∃ op operands, encode i = op :: operands ∧
    instrLength op = some (1 + operands.length)) ∧
  (∀ op : Byte, instrLength op = none ↔ op.toNat ∈ unassignedOpcodes) ∧
  ∀ (op : Byte) (bs : List Byte),
    decode (op :: bs) = .error (.unassigned op) ↔ op.toNat ∈ unassignedOpcodes

/-- R109: the two spellings of each of the seven shared opcodes have the same bytes and the same meaning, and the decoder
prints the first. -/
def Obligations.SharedOpcodesAreOneInstruction : Prop :=
  ∀ (ofst : Byte) (s : State),
    (encode .clrc = [0xB0#8] ∧ encode .tsta = [0xB0#8] ∧ exec .tsta s = exec .clrc s ∧
      decode [0xB0#8] = .ok (.clrc, [])) ∧
    (encode (.jz ofst) = [0xE2#8, ofst] ∧ encode (.jeq ofst) = [0xE2#8, ofst] ∧ exec (.jeq ofst) s = exec (.jz ofst) s ∧
      decode [0xE2#8, ofst] = .ok (.jz ofst, [])) ∧
    (encode (.jc ofst) = [0xE3#8, ofst] ∧ encode (.jhs ofst) = [0xE3#8, ofst] ∧ exec (.jhs ofst) s = exec (.jc ofst) s ∧
      decode [0xE3#8, ofst] = .ok (.jc ofst, [])) ∧
    (encode (.jp ofst) = [0xE4#8, ofst] ∧ encode (.jgt ofst) = [0xE4#8, ofst] ∧ exec (.jgt ofst) s = exec (.jp ofst) s ∧
      decode [0xE4#8, ofst] = .ok (.jp ofst, [])) ∧
    (encode (.jpz ofst) = [0xE5#8, ofst] ∧ encode (.jge ofst) = [0xE5#8, ofst] ∧
      exec (.jge ofst) s = exec (.jpz ofst) s ∧ decode [0xE5#8, ofst] = .ok (.jpz ofst, [])) ∧
    (encode (.jnz ofst) = [0xE6#8, ofst] ∧ encode (.jne ofst) = [0xE6#8, ofst] ∧
      exec (.jne ofst) s = exec (.jnz ofst) s ∧ decode [0xE6#8, ofst] = .ok (.jnz ofst, [])) ∧
    (encode (.jnc ofst) = [0xE7#8, ofst] ∧ encode (.jl ofst) = [0xE7#8, ofst] ∧ exec (.jl ofst) s = exec (.jnc ofst) s ∧
      decode [0xE7#8, ofst] = .ok (.jnc ofst, []))

/-! ### A step -/

/-- Where the n bytes at pc decode to an instruction and the CPU owns them, a step at a boundary with nothing else to do is
that instruction, with pc moved past its bytes (R12, R24, R62, R264; the fetch is the spec's decisions D11, D23 and D24, log
entries 19, 29 and 30). -/
def Obligations.StepRunsDecodedInstruction : Prop :=
  ∀ (s : State) (n : Nat) (i : Instr),
    s.Ready → s.CodeOwned n → decode (s.codeBytes n) = .ok (i, []) →
    step s = exec i { s with pc := s.pc + BitVec.ofNat 16 n }

/-- After the bits of a table row are placed by `withFetchWord`, the next step runs the instruction the decoder reads from
them, with pc past its bytes: loading a program is the model's own (log entry 9). -/
def Obligations.LoadedWordRunsNext : Prop :=
  ∀ (s : State) (nbits w : Nat) (i : Instr) (rest : List Byte),
    (∀ k < 4, s.Storage (s.pc + BitVec.ofNat 16 k)) → decode (tableBytes nbits w) = .ok (i, rest) →
    step (s.withFetchWord nbits w) =
      exec i { s.withFetchWord nbits w with pc := s.pc + BitVec.ofNat 16 (4 - rest.length) }

/-- An opcode of R103 at pc is refused by its name (R103, R261); where the platform admits E1, it jumps on N = 1 instead and
changes no flag (R104, R255: the spec's own parameter `ADMIT_JN`, decision D13; log entry 11). -/
def Obligations.UnassignedOpcodesAtPc : Prop :=
  ∀ s : State, s.Ready → s.Storage s.pc →
    (∀ op : Byte, s.mem.read s.pc.toNat = op → op.toNat ∈ unassignedOpcodes →
      (op = 0xE1#8 → s.cfg.admitJn = false) → step s = .refused (.unassignedOpcode op)) ∧
    (s.mem.read s.pc.toNat = 0xE1#8 → s.cfg.admitJn = true → s.Storage (s.pc + 1#16) →
      step s = .next { s with
        pc := if s.st.n = true then s.pc + 2#16 + (s.mem.read (s.pc + 1#16).toNat).signExtend 16 else s.pc + 2#16 })

/-- A reset request comes before everything: A and B take the old pc, `sp` is 0x01, the four status bits and `idle` are
cleared, pc is the vector at 0xFFFE and nothing else changes (R264, R300: the spec's decision D22; that the request is
taken back and the pending set untouched is log entry 10). -/
def Obligations.ResetComesFirst : Prop :=
  ∀ s : State, s.resetReq = true → s.Storage 0xFFFE#16 → s.Storage 0xFFFF#16 →
    step s = .next { s with
      mem := (s.mem.write 0 (s.pc.extractLsb' 8 8)).write 1 (s.pc.extractLsb' 0 8)
      sp := 0x01#8
      st := ⟨false, false, false, false⟩
      idle := false
      resetReq := false
      pc := s.mem.read 0xFFFE ++ s.mem.read 0xFFFF }

/-- With I set, the lowest pending level k is entered: the status byte, then the return address (from idle that after the
`IDLE`) are pushed, the four status bits and `idle` are cleared, pc is vector k, the request of k is consumed, and
nothing else changes (R264, R265, R266: the spec's decision D20). Bits 3..0 of the status byte are `ST_LOW`, by default
any value (R28). -/
def Obligations.LowestPendingLevelIsEntered : Prop :=
  ∀ (s : State) (k : Nat),
    s.resetReq = false → s.st.i = true → k ∈ s.pending → (∀ j ∈ s.pending, k ≤ j) → k ≤ 23 →
    s.HasReg (s.sp + 1#8) → s.HasReg (s.sp + 2#8) → s.HasReg (s.sp + 3#8) →
    s.Storage (BitVec.ofNat 16 (0xFFFE - 2 * k)) → s.Storage (BitVec.ofNat 16 (0xFFFF - 2 * k)) →
    ∀ ret, ret = (if s.idle = true then s.pc + 1#16 else s.pc) →
    ∃ low : Nibble, (∀ l, s.cfg.stLow = some l → low = l) ∧
      step s = .next { s with
        sp := s.sp + 3#8
        st := ⟨false, false, false, false⟩
        mem := ((s.mem.write (s.sp + 1#8).toNat
            (BitVec.ofBool s.st.c ++ BitVec.ofBool s.st.n ++ BitVec.ofBool s.st.z ++ BitVec.ofBool s.st.i ++ low)).write
            (s.sp + 2#8).toNat (ret.extractLsb' 8 8)).write (s.sp + 3#8).toNat (ret.extractLsb' 0 8)
        idle := false
        pc := s.mem.read (0xFFFE - 2 * k) ++ s.mem.read (0xFFFF - 2 * k)
        pending := s.pending.filter (· ≠ k)
        draws := if s.cfg.stLow = none then s.draws + 1 else s.draws }

/-- `RETI` undoes interrupt entry: executed in any state u whose stack pointer, platform and three stack bytes are those the
entry left, whatever the handler did besides, it returns to the interrupted instruction (after the `IDLE`, if the CPU
was idle) with the status bits and the stack pointer of the moment of acceptance (R238, R265, R267: the entry is the spec's
decision D20, log entry 26). -/
def Obligations.ReturnUndoesInterruptEntry : Prop :=
  ∀ s t u : State,
    s.resetReq = false → s.st.i = true → s.pending ≠ [] → step s = .next t →
    u.sp = t.sp → u.cfg = t.cfg → (∀ n ∈ [s.sp + 1#8, s.sp + 2#8, s.sp + 3#8], u.reg n = t.reg n) →
    exec .reti u = .next { u with
      pc := if s.idle = true then s.pc + 1#16 else s.pc
      st := s.st
      sp := s.sp }

/-! ### Invariants -/

/-- The invariant of Sys2Proof/Safety.lean: memory canonical and confined to what the CPU owns, the pending levels in
rising order and of the platform, the platform's levels within 1..23. Every step keeps it (R22, R31, R57, R262, R265). -/
def Obligations.StepKeepsInvariant : Prop :=
  ∀ s t : State, s.Inv → step s = .next t → t.Inv

/-- The reset state has the invariant. -/
def Obligations.ResetHasInvariant : Prop := State.reset.Inv

/-- The state right after reset: `sp` is 0x01, C, N, Z, I and `idle` are 0 (R35, R301); pc is the vector of an empty memory
and A, B the bytes of an old pc 0x0000 (the model's choices, log entries 4 and 9; all of reset is the spec's decision
D22, log entry 28). That no level is pending and reset is not requested is the model's choice too, the spec leaving both to
the environment (log entry 36). -/
def Obligations.ResetValues : Prop :=
  State.reset.sp = 0x01#8 ∧ State.reset.st = ⟨false, false, false, false⟩ ∧ State.reset.idle = false ∧
  State.reset.pc = State.reset.mem.read 0xFFFE ++ State.reset.mem.read 0xFFFF ∧
  State.reset.reg 0#8 = 0x00#8 ∧ State.reset.reg 1#8 = 0x00#8 ∧
  State.reset.pending = [] ∧ State.reset.resetReq = false

/-- The invariant holds along every run, with the environment acting at every boundary as it likes (R20, R59, R315). -/
def Obligations.ReachedStatesHaveInvariant : Prop :=
  ∀ s t : State, s.Inv → Reaches s t → t.Inv

/-- The environment can make pending only a level of the platform, and takes back only the level it names; it changes
nothing else (R262, R315: the spec's decision D20, log entries 12 and 26). -/
def Obligations.EnvironmentSetsPending : Prop :=
  ∀ (s : State) (k : Nat),
    ((∃ p, envAct (.raise k) s = { s with pending := p } ∧
        ∀ j, j ∈ p ↔ j ∈ s.pending ∨ (j = k ∧ k ∈ s.cfg.intLevels)) ∧
     (∃ p, envAct (.withdraw k) s = { s with pending := p } ∧ ∀ j, j ∈ p ↔ j ∈ s.pending ∧ j ≠ k)) ∧
    envAct .requestReset s = { s with resetReq := true }

/-- Two memories in canonical form that read alike at every address are equal: the form has one representation of each
memory (R32; the representation is the model's, log entry 4). -/
def Obligations.CanonicalMemoriesAreDeterminedByReads : Prop :=
  ∀ m m' : Memory, m.wf = true → m'.wf = true → (∀ a, m.read a = m'.read a) → m = m'

/-! ### What no instruction does -/

/-- Every byte of memory, a register included, is unchanged except those the instruction stores to: `storedBy` computes
their addresses as the meanings do (R36, R55). -/
def Obligations.OnlyStoredBytesChange : Prop :=
  ∀ (i : Instr) (s t : State), exec i s = .next t → ∀ a, a ∉ storedBy i s → t.mem.read a = s.mem.read a

/-- R6: for every instruction, each status bit does what its symbol of the STATUS column says: `x` leaves it, `0` and `1`
fix it, `b7` and `b0` take the bit of the operand as it was. `PUSH ST` has its printed cell under `PUSH_ST_FLAGS` =
`table` (R240). In particular only `EINT`, `DINT`, `POP ST` and `RETI` write I (R30). -/
def Obligations.StatusColumnHolds : Prop :=
  ∀ (i : Instr) (s t : State), exec i s = .next t → (i = .pushSt → s.cfg.pushStFlags = .table) →
    i.statusColumn.1.Holds (i.rotated s) s.st.c t.st.c ∧
    i.statusColumn.2.1.Holds (i.rotated s) s.st.n t.st.n ∧
    i.statusColumn.2.2.1.Holds (i.rotated s) s.st.z t.st.z ∧
    i.statusColumn.2.2.2.Holds (i.rotated s) s.st.i t.st.i

/-- The stack pointer and pc after every instruction: pushes raise `sp` and pops lower it by one a byte modulo 256, `LDSP` loads
B, nothing else moves it; an instruction that is no jump, call, return or trap, and not `IDLE`, leaves pc at the next
instruction (R12, R24, R25, R27: the wrap is the spec's decision D10). -/
def Obligations.StackPointerAndPcFrame : Prop :=
  ∀ (i : Instr) (s t : State), exec i s = .next t → t.sp = i.spAfter s ∧ (i.setsPc = false → t.pc = s.pc)

/-- No instruction touches the pending requests, the reset request or the platform, only `IDLE` makes the CPU wait, and only the
peripheral-file instructions, `LDA`, `STA`, `CMPA` and a trap's vector fetch can be seen by the environment (R33, R34,
R36, R55, R231; the hidden state is the spec's decisions D20 and D21, the history the model's, log entry 6). -/
def Obligations.HiddenStateFrame : Prop :=
  ∀ (i : Instr) (s t : State), exec i s = .next t →
    t.pending = s.pending ∧ t.resetReq = s.resetReq ∧ t.cfg = s.cfg ∧ t.idle = (s.idle || decide (i = .idle)) ∧
    (i.reachesOut = false → t.events = s.events)

/-- A step adds to the history of accesses and never rewrites it, and keeps the platform (R34, R50, R55; the history is
a field of the model, log entry 6). -/
def Obligations.StepExtendsHistory : Prop :=
  ∀ s t : State, step s = .next t →
    t.cfg = s.cfg ∧ s.draws ≤ t.draws ∧ ∃ new, t.events = new ++ s.events

/-! ### Stops -/

/-- A pair operand that names register 0 is refused, `DECD A` included (R23, R183, R261: the spec's decision D6). -/
def Obligations.PairAtRegisterZeroStops : Prop :=
  ∀ s : State,
    (∀ i ∈ [Instr.decd .a, .decd (.r 0#8), .lda (.indirect 0#8), .sta (.indirect 0#8), .br (.indirect 0#8),
        .cmpa (.indirect 0#8), .call (.indirect 0#8)], exec i s = .refused .pairAtRegister0) ∧
    (∀ pd, exec (.movd (.pair 0#8 pd)) s = .refused .pairAtRegister0) ∧
    (∀ iop, exec (.movd (.imm iop 0#8)) s = .refused .pairAtRegister0) ∧
    (∀ iop, exec (.movd (.immB iop 0#8)) s = .refused .pairAtRegister0) ∧
    (∀ ps, s.HasPair ps → exec (.movd (.pair ps 0#8)) s = .refused .pairAtRegister0)

/-- A register n at or above `NREG` stops the instruction by the register's name, whatever names it: the source of any
dual-operand form of any instruction, its destination where the source is available, a single operand, either register of a
pair, the byte an effective address names, and a byte of the instruction itself (R22, R23, R50, R62, R261: the spec's
decision D29; log entry 5; which of two missing registers is named, log entry 30). -/
def Obligations.MissingRegisterStops : Prop :=
  ∀ (s : State) (n : Byte), ¬ s.HasReg n →
    (∀ (f : DualForm) (ofst : Byte), f.source = .reg n ∨ (f.source.Available s ∧ f.dest = n) →
      ∀ i ∈ [Instr.and f, .or f, .xor f, .btjo f ofst, .btjz f ofst, .add f, .adc f, .sub f, .sbb f, .mpy f, .cmp f, .dac f,
          .dsb f],
        exec i s = .fault (.unimplementedRegister n)) ∧
    (∀ f : MovForm, f.source = .reg n ∨ (f.source.Available s ∧ f.dest = n) →
      exec (.mov f) s = .fault (.unimplementedRegister n)) ∧
    (∀ ofst, ∀ i ∈ [Instr.dec (.r n), .inc (.r n), .inv (.r n), .clr (.r n), .xchb (.r n), .swap (.r n), .push (.r n),
        .djnz (.r n) ofst, .rr (.r n), .rrc (.r n), .rl (.r n), .rlc (.r n)],
      exec i s = .fault (.unimplementedRegister n)) ∧
    (s.HasReg s.sp → exec (.pop (.r n)) s = .fault (.unimplementedRegister n)) ∧
    (∀ p : Byte, p ≠ 0#8 → (p - 1#8 = n ∨ (s.HasReg (p - 1#8) ∧ p = n)) →
      (∀ i ∈ [Instr.decd (.r p), .lda (.indirect p), .sta (.indirect p), .br (.indirect p), .cmpa (.indirect p),
          .call (.indirect p)],
        exec i s = .fault (.unimplementedRegister n)) ∧
      (∀ pd, exec (.movd (.pair p pd)) s = .fault (.unimplementedRegister n)) ∧
      (∀ iop, exec (.movd (.imm iop p)) s = .fault (.unimplementedRegister n)) ∧
      (∀ iop, exec (.movd (.immB iop p)) s = .fault (.unimplementedRegister n)) ∧
      (∀ ps, s.HasPair ps → exec (.movd (.pair ps p)) s = .fault (.unimplementedRegister n))) ∧
    (∀ f : ExtForm, f.Available s → f.address s = n.setWidth 16 → ∀ i ∈ [Instr.lda f, .sta f, .cmpa f],
      exec i s = .fault (.unimplementedRegister n)) ∧
    (∀ (j : Nat) (bs : List Byte) (t : State), s.Ready → fetchBytes j s = .ok (bs, t) → s.FetchGoesOn bs →
      s.pc + BitVec.ofNat 16 j = n.setWidth 16 → step s = .fault (.unimplementedRegister n))

/-- A stack byte at a register n at or above `NREG` stops the push or the pop that meets it by the register's name: the one byte
of `PUSH`, `PUSH ST`, `POP` and `POP ST`, either byte of `CALL`, `TRAP` and `RETS`, each of the three bytes of `RETI` and of
interrupt entry (R26, R27, R261, R265: the spec's decisions D10, D20 and D29; log entries 5, 20 and 26). -/
def Obligations.MissingStackByteStops : Prop :=
  ∀ (s : State) (n : Byte), ¬ s.HasReg n →
    (s.sp + 1#8 = n →
      (∀ d : Single, s.HasReg d.num → exec (.push d) s = .fault (.unimplementedRegister n)) ∧
      exec .pushSt s = .fault (.unimplementedRegister n)) ∧
    (s.sp + 1#8 = n ∨ (s.HasReg (s.sp + 1#8) ∧ s.sp + 2#8 = n) →
      (∀ f : ExtForm, f.Available s → exec (.call f) s = .fault (.unimplementedRegister n)) ∧
      ∀ k, exec (.trap k) s = .fault (.unimplementedRegister n)) ∧
    (s.sp = n →
      (∀ d, exec (.pop d) s = .fault (.unimplementedRegister n)) ∧ exec .popSt s = .fault (.unimplementedRegister n)) ∧
    (s.sp = n ∨ (s.HasReg s.sp ∧ s.sp - 1#8 = n) → exec .rets s = .fault (.unimplementedRegister n)) ∧
    (s.sp = n ∨ (s.HasReg s.sp ∧ (s.sp - 1#8 = n ∨ (s.HasReg (s.sp - 1#8) ∧ s.sp - 2#8 = n))) →
      exec .reti s = .fault (.unimplementedRegister n)) ∧
    (s.resetReq = false → s.st.i = true → s.pending ≠ [] →
      (s.sp + 1#8 = n ∨ (s.HasReg (s.sp + 1#8) ∧ (s.sp + 2#8 = n ∨ (s.HasReg (s.sp + 2#8) ∧ s.sp + 3#8 = n)))) →
      step s = .fault (.unimplementedRegister n))

/-- A write to ROM and an access of any kind to an unimplemented address stop by the address: the data access of `LDA`, `STA` and
`CMPA`, the fetch of any byte of an instruction, and either byte of the vector that `TRAP`, interrupt entry (their stack bytes
being there) or reset reads (R50, R58, R62, R256, R261, R265, R300: the spec's decision D29; log entry 5; the vectors are its
decision D12, log entry 22). -/
def Obligations.RomWritesAndHolesStop : Prop :=
  ∀ s : State,
    (∀ f : ExtForm, f.Available s →
      (placeOf s.cfg (f.address s) = .rom → exec (.sta f) s = .fault (.writeToRom (f.address s))) ∧
      (placeOf s.cfg (f.address s) = .unimplemented →
        ∀ i ∈ [Instr.lda f, .sta f, .cmpa f], exec i s = .fault (.unimplementedAddress (f.address s)))) ∧
    (∀ (j : Nat) (bs : List Byte) (t : State), s.Ready → fetchBytes j s = .ok (bs, t) → s.FetchGoesOn bs →
      placeOf s.cfg (s.pc + BitVec.ofNat 16 j) = .unimplemented →
      step s = .fault (.unimplementedAddress (s.pc + BitVec.ofNat 16 j))) ∧
    (∀ (k : Nat) (hi lo a : Addr),
      k ≤ 23 → hi = BitVec.ofNat 16 (0xFFFE - 2 * k) → lo = BitVec.ofNat 16 (0xFFFF - 2 * k) →
      placeOf s.cfg a = .unimplemented → a = hi ∨ (placeOf s.cfg hi ≠ .unimplemented ∧ a = lo) →
      (s.HasReg (s.sp + 1#8) → s.HasReg (s.sp + 2#8) → exec (.trap k) s = .fault (.unimplementedAddress a)) ∧
      (s.resetReq = false → s.st.i = true → k ∈ s.pending → (∀ j ∈ s.pending, k ≤ j) →
        s.HasReg (s.sp + 1#8) → s.HasReg (s.sp + 2#8) → s.HasReg (s.sp + 3#8) →
        step s = .fault (.unimplementedAddress a)) ∧
      (k = 0 → s.resetReq = true → step s = .fault (.unimplementedAddress a)))

/-- The registers and the peripheral file are regions of the one address space: `LDA` and `STA` addressed there do what `MOV`
and `MOVP` do, with the same events, flags and stops (R22, R31, R212: the spec's decisions D1, D3). -/
def Obligations.FilesLieInTheAddressSpace : Prop :=
  ∀ (s : State) (n : Byte),
    exec (.lda (.direct (n.setWidth 16))) s = exec (.mov (.dual (.ra n))) s ∧
    exec (.sta (.direct (n.setWidth 16))) s = exec (.mov (.ar n)) s ∧
    exec (.lda (.direct (0x0100#16 + n.setWidth 16))) s = exec (.movp (.toA n)) s ∧
    exec (.sta (.direct (0x0100#16 + n.setWidth 16))) s = exec (.movp (.toPeriph .a n)) s

/-! ### Dual-operand instructions -/

/-- ADD and ADC: the sum modulo 256 goes to the destination, C is the carry out of bit 7, N and Z are the result's, I is not
affected (R121, R122, R123; the sense of C is the spec's decision D15). -/
def Obligations.AddResult : Prop :=
  DualEncoding .add 0x68#8 0x18#8 0x38#8 0x48#8 0x28#8 0x58#8 0x78#8 ∧
  DualEncoding .adc 0x69#8 0x19#8 0x39#8 0x49#8 0x29#8 0x59#8 0x79#8 ∧
  ∀ (f : DualForm) (s : State), f.Available s →
    ∀ x d c : Byte, x = f.source.value s → d = s.reg f.dest → c = (if s.st.c = true then 1#8 else 0#8) →
    exec (.add f) s = .next (s.put f.dest (x + d) (s.flags (decide (256 ≤ x.toNat + d.toNat)) (x + d))) ∧
    exec (.adc f) s =
      .next (s.put f.dest (x + d + c) (s.flags (decide (256 ≤ x.toNat + d.toNat + c.toNat)) (x + d + c)))

/-- SUB, SBB and CMP: the source is taken from the destination, SBB less 1 plus the carry; C = 1 exactly where no borrow
occurs; CMP writes no operand (R121, R124, R125, R126; the sense of C is the spec's decision D15). -/
def Obligations.SubtractResult : Prop :=
  DualEncoding .sub 0x6A#8 0x1A#8 0x3A#8 0x4A#8 0x2A#8 0x5A#8 0x7A#8 ∧
  DualEncoding .sbb 0x6B#8 0x1B#8 0x3B#8 0x4B#8 0x2B#8 0x5B#8 0x7B#8 ∧
  DualEncoding .cmp 0x6D#8 0x1D#8 0x3D#8 0x4D#8 0x2D#8 0x5D#8 0x7D#8 ∧
  ∀ (f : DualForm) (s : State), f.Available s →
    ∀ x d b : Byte, x = f.source.value s → d = s.reg f.dest → b = (if s.st.c = true then 0#8 else 1#8) →
    exec (.sub f) s = .next (s.put f.dest (d - x) (s.flags (decide (x.toNat ≤ d.toNat)) (d - x))) ∧
    exec (.sbb f) s =
      .next (s.put f.dest (d - x - b) (s.flags (decide (x.toNat + b.toNat ≤ d.toNat)) (d - x - b))) ∧
    exec (.cmp f) s = .next { s with st := s.flags (decide (x.toNat ≤ d.toNat)) (d - x) }

/-- DAC and DSB on valid BCD operands: the destination gets the BCD byte v whose value, with C as the hundred carried or as
the absent borrow, is the exact decimal sum or difference; N and Z are those of v (R127, R128, R129; the digit layout is
marked by the spec as general knowledge, decision D18). -/
def Obligations.DecimalResult : Prop :=
  DualEncoding .dac 0x6E#8 0x1E#8 0x3E#8 0x4E#8 0x2E#8 0x5E#8 0x7E#8 ∧
  DualEncoding .dsb 0x6F#8 0x1F#8 0x3F#8 0x4F#8 0x2F#8 0x5F#8 0x7F#8 ∧
  ∀ (f : DualForm) (s : State), f.Available s →
    ∀ x d : Byte, x = f.source.value s → d = s.reg f.dest → isBcd x = true → isBcd d = true →
    (∃ (v : Byte) (c : Bool), isBcd v = true ∧
      bcdToNat v + 100 * c.toNat = bcdToNat x + bcdToNat d + s.st.c.toNat ∧
      exec (.dac f) s = .next (s.put f.dest v (s.flags c v))) ∧
    (∃ (v : Byte) (c : Bool), isBcd v = true ∧
      bcdToNat v + bcdToNat x + 1 = bcdToNat d + s.st.c.toNat + 100 * (!c).toNat ∧
      exec (.dsb f) s = .next (s.put f.dest v (s.flags c v)))

/-- DAC and DSB on an operand that is no valid BCD byte still run: the destination byte and C, N, Z are four free values, I
and everything else are as they were (R127; the choice of draws over refusal is the model's, log entry 8). -/
def Obligations.InvalidDecimalRuns : Prop :=
  ∀ (f : DualForm) (s : State), f.Available s → (isBcd (f.source.value s) && isBcd (s.reg f.dest)) = false →
    ∀ i ∈ [Instr.dac f, .dsb f], ∃ (v : Byte) (c n z : Bool),
      exec i s = .next { s.put f.dest v ⟨c, n, z, s.st.i⟩ with draws := s.draws + 1 }

/-- MPY: the unsigned product goes to A (high byte) and B (low byte) in every form, C is cleared, N and Z are the high
byte's; a destination register other than A and B is not written (R131; N and Z are the spec's decision D16). -/
def Obligations.MultiplyResult : Prop :=
  DualEncoding .mpy 0x6C#8 0x1C#8 0x3C#8 0x4C#8 0x2C#8 0x5C#8 0x7C#8 ∧
  ∀ (f : DualForm) (s : State), f.Available s →
    exec (.mpy f) s = .next (s.putPair 1#8 ((f.source.value s).setWidth 16 * (s.reg f.dest).setWidth 16)
      (s.wideFlags false ((f.source.value s).setWidth 16 * (s.reg f.dest).setWidth 16)))

/-- R141: MOV copies the source to the destination in all ten forms, clears C and sets N and Z on the byte moved; I and the
rest are unchanged. -/
def Obligations.MoveResult : Prop :=
  DualEncoding (fun f => .mov (.dual f)) 0x62#8 0x12#8 0x32#8 0x42#8 0x22#8 0x52#8 0x72#8 ∧
  encode (.mov .ab) = [0xC0#8] ∧ (∀ rd, encode (.mov (.ar rd)) = [0xD0#8, rd]) ∧
  (∀ rd, encode (.mov (.br rd)) = [0xD1#8, rd]) ∧
  ∀ (f : MovForm) (s : State), f.Available s →
    exec (.mov f) s = .next (s.put f.dest (f.source.value s) (s.flags false (f.source.value s)))

/-- R142, R143, R144: AND, OR and XOR write the bitwise result to the destination, clear C and set N and Z on it; I and
the rest are unchanged. -/
def Obligations.LogicResult : Prop :=
  DualEncoding .and 0x63#8 0x13#8 0x33#8 0x43#8 0x23#8 0x53#8 0x73#8 ∧
  DualEncoding .or 0x64#8 0x14#8 0x34#8 0x44#8 0x24#8 0x54#8 0x74#8 ∧
  DualEncoding .xor 0x65#8 0x15#8 0x35#8 0x45#8 0x25#8 0x55#8 0x75#8 ∧
  ∀ (f : DualForm) (s : State), f.Available s →
    ∀ x d : Byte, x = f.source.value s → d = s.reg f.dest →
    exec (.and f) s = .next (s.put f.dest (x &&& d) (s.flags false (x &&& d))) ∧
    exec (.or f) s = .next (s.put f.dest (x ||| d) (s.flags false (x ||| d))) ∧
    exec (.xor f) s = .next (s.put f.dest (x ^^^ d) (s.flags false (x ^^^ d)))

/-- BTJO and BTJZ: C is cleared, N and Z are those of the test value, and the jump is taken exactly where it is not zero;
no operand is written (R160, R161, R162; the target is the spec's decision D8). -/
def Obligations.BitTestResult : Prop :=
  DualJumpEncoding .btjo 0x66#8 0x16#8 0x36#8 0x46#8 0x26#8 0x56#8 0x76#8 ∧
  DualJumpEncoding .btjz 0x67#8 0x17#8 0x37#8 0x47#8 0x27#8 0x57#8 0x77#8 ∧
  ∀ (f : DualForm) (ofst : Byte) (s : State), f.Available s →
    ∀ x d : Byte, x = f.source.value s → d = s.reg f.dest →
    exec (.btjo f ofst) s = .next { s with
      st := s.flags false (x &&& d)
      pc := if x &&& d = 0#8 then s.pc else s.target ofst } ∧
    exec (.btjz f ofst) s = .next { s with
      st := s.flags false (x &&& ~~~d)
      pc := if x &&& ~~~d = 0#8 then s.pc else s.target ofst }

/-! ### Peripheral-file instructions -/

/-- BTJOP and BTJZP: one read of the peripheral register, answered by the environment, recorded, and tested as BTJO and BTJZ
test a register (R55, R163, R164, R200; the environment's answer is a free value, log entry 6). -/
def Obligations.PeripheralBitTestResult : Prop :=
  (∀ ofst, PeriphEncoding (fun src pn => .btjop src pn ofst) [ofst] 0x86#8 0x96#8 0xA6#8) ∧
  (∀ ofst, PeriphEncoding (fun src pn => .btjzp src pn ofst) [ofst] 0x87#8 0x97#8 0xA7#8) ∧
  ∀ (src : PeriphSource) (pn ofst : Byte) (s : State),
    ∀ x p : Byte, x = src.source.value s → p = Config.periphAnswer s.events s.draws pn →
    exec (.btjop src pn ofst) s = .next { s with
      st := s.flags false (x &&& p)
      pc := if x &&& p = 0#8 then s.pc else s.target ofst
      events := .periphRead pn p :: s.events
      draws := s.draws + 1 } ∧
    exec (.btjzp src pn ofst) s = .next { s with
      st := s.flags false (x &&& ~~~p)
      pc := if x &&& ~~~p = 0#8 then s.pc else s.target ofst
      events := .periphRead pn p :: s.events
      draws := s.draws + 1 }

/-- MOVP: the write forms are one output event and no read, the read forms one recorded read into A or B; C is cleared, N and Z
are those of the byte moved (R55, R200, R201; the environment's answer is a free value, log entry 6). -/
def Obligations.PeripheralMoveResult : Prop :=
  PeriphEncoding (fun src pn => .movp (.toPeriph src pn)) [] 0x82#8 0x92#8 0xA2#8 ∧
  (∀ pn, encode (.movp (.toA pn)) = [0x80#8, pn]) ∧ (∀ pn, encode (.movp (.toB pn)) = [0x91#8, pn]) ∧
  ∀ (src : PeriphSource) (pn : Byte) (s : State),
    ∀ x p : Byte, x = src.source.value s → p = Config.periphAnswer s.events s.draws pn →
    exec (.movp (.toPeriph src pn)) s =
      .next { s with st := s.flags false x, events := .periphWrite pn x :: s.events } ∧
    exec (.movp (.toA pn)) s =
      .next { s.put 0#8 p (s.flags false p) with events := .periphRead pn p :: s.events, draws := s.draws + 1 } ∧
    exec (.movp (.toB pn)) s =
      .next { s.put 1#8 p (s.flags false p) with events := .periphRead pn p :: s.events, draws := s.draws + 1 }

/-- ANDP, ORP and XORP: one read, then one write of the value computed from the byte read, in that order; C is cleared, N and
Z are those of the byte written; no register is written (R55, R200, R202, R203, R204; log entry 6). -/
def Obligations.PeripheralLogicResult : Prop :=
  PeriphEncoding .andp [] 0x83#8 0x93#8 0xA3#8 ∧
  PeriphEncoding .orp [] 0x84#8 0x94#8 0xA4#8 ∧
  PeriphEncoding .xorp [] 0x85#8 0x95#8 0xA5#8 ∧
  ∀ (src : PeriphSource) (pn : Byte) (s : State),
    ∀ x p : Byte, x = src.source.value s → p = Config.periphAnswer s.events s.draws pn →
    ∀ (i : Instr) (r : Byte),
      (i, r) ∈ [(Instr.andp src pn, x &&& p), (.orp src pn, x ||| p), (.xorp src pn, x ^^^ p)] →
      exec i s = .next { s with
        st := s.flags false r
        events := .periphWrite pn r :: .periphRead pn p :: s.events
        draws := s.draws + 1 }

/-! ### Extended addressing -/

/-- LDA and CMPA on a byte the CPU owns: LDA moves it to A, CMPA compares A with it and writes nothing; no event (R97 to R99,
R210, R211, R214; the sense of C is the spec's decision D15, the index its decision D26). -/
def Obligations.LoadOwnedByte : Prop :=
  ExtEncoding .lda 0x8A#8 0xAA#8 0x9A#8 ∧ ExtEncoding .cmpa 0x8D#8 0xAD#8 0x9D#8 ∧
  ∀ (f : ExtForm) (s : State), f.Available s → s.Storage (f.address s) →
    ∀ v a : Byte, v = s.mem.read (f.address s).toNat → a = s.reg 0#8 →
    exec (.lda f) s = .next (s.put 0#8 v (s.flags false v)) ∧
    exec (.cmpa f) s = .next { s with st := s.flags (decide (v.toNat ≤ a.toNat)) (a - v) }

/-- LDA and CMPA on the peripheral file or a device: the same with the byte the environment answers, one recorded read (R50,
R55, R211, R214; the environment's answer is a free value, log entry 6). -/
def Obligations.LoadAnsweredByte : Prop :=
  ExtEncoding .lda 0x8A#8 0xAA#8 0x9A#8 ∧ ExtEncoding .cmpa 0x8D#8 0xAD#8 0x9D#8 ∧
  ∀ (f : ExtForm) (s : State) (v a : Byte) (e : Event), f.Available s → a = s.reg 0#8 →
    (placeOf s.cfg (f.address s) = .peripheral ∧
        v = Config.periphAnswer s.events s.draws ((f.address s).extractLsb' 0 8) ∧
        e = .periphRead ((f.address s).extractLsb' 0 8) v ∨
      placeOf s.cfg (f.address s) = .device ∧ v = Config.deviceAnswer s.events s.draws (f.address s) ∧
        e = .deviceRead (f.address s) v) →
    exec (.lda f) s =
      .next { s.put 0#8 v (s.flags false v) with events := e :: s.events, draws := s.draws + 1 } ∧
    exec (.cmpa f) s = .next { s with
      st := s.flags (decide (v.toNat ≤ a.toNat)) (a - v)
      events := e :: s.events
      draws := s.draws + 1 }

/-- STA: A goes to the byte at the effective address, to a register or RAM as a stored byte, to the peripheral file or a device
as one output event that changes no other state; A is unchanged unless stored on itself (R31, R50, R55, R212). -/
def Obligations.StoreResult : Prop :=
  ExtEncoding .sta 0x8B#8 0xAB#8 0x9B#8 ∧
  ∀ (f : ExtForm) (s : State) (a : Byte), f.Available s → a = s.reg 0#8 →
    (s.Writable (f.address s) →
      exec (.sta f) s = .next { s with mem := s.mem.write (f.address s).toNat a, st := s.flags false a }) ∧
    (placeOf s.cfg (f.address s) = .peripheral →
      exec (.sta f) s = .next { s with
        st := s.flags false a
        events := .periphWrite ((f.address s).extractLsb' 0 8) a :: s.events }) ∧
    (placeOf s.cfg (f.address s) = .device →
      exec (.sta f) s = .next { s with st := s.flags false a, events := .deviceWrite (f.address s) a :: s.events })

/-- BR sets pc to the effective address itself; CALL pushes the address of the next instruction, high byte first, and does the
same; no flag changes (R27, R210, R213, R215; the pushed address is marked general knowledge, decisions D8, D26). -/
def Obligations.BranchAndCallResult : Prop :=
  ExtEncoding .br 0x8C#8 0xAC#8 0x9C#8 ∧ ExtEncoding .call 0x8E#8 0xAE#8 0x9E#8 ∧
  ∀ (f : ExtForm) (s : State), f.Available s →
    exec (.br f) s = .next { s with pc := f.address s } ∧
    (s.HasReg (s.sp + 1#8) → s.HasReg (s.sp + 2#8) →
      exec (.call f) s = .next { s with
        sp := s.sp + 2#8
        mem := (s.mem.write (s.sp + 1#8).toNat (s.pc.extractLsb' 8 8)).write (s.sp + 2#8).toNat (s.pc.extractLsb' 0 8)
        pc := f.address s })

/-- MOVD moves the 16-bit value of each of its three forms to the destination pair, both source bytes read before any write;
C is cleared, N and Z are the high byte's (R23, R219; the spec's decisions D6, D16, D26). -/
def Obligations.MovePairResult : Prop :=
  (∀ hi lo p : Byte, encode (.movd (.imm (hi ++ lo) p)) = [0x88#8, hi, lo, p]) ∧
  (∀ hi lo p : Byte, encode (.movd (.immB (hi ++ lo) p)) = [0xA8#8, hi, lo, p]) ∧
  (∀ ps pd, encode (.movd (.pair ps pd)) = [0x98#8, ps, pd]) ∧
  ∀ (f : MovdForm) (s : State), f.Available s →
    exec (.movd f) s = .next (s.putPair f.dest (f.value s) (s.wideFlags false (f.value s)))

/-! ### Single-operand instructions -/

/-- R173, R174: INV writes the complement, CLR writes zero; both clear C and set N and Z on the byte written; I and the rest are
unchanged. -/
def Obligations.InvertAndClearResult : Prop :=
  SingleEncoding .inv 0xB4#8 0xC4#8 0xD4#8 ∧ SingleEncoding .clr 0xB5#8 0xC5#8 0xD5#8 ∧
  ∀ (d : Single) (s : State), s.HasReg d.num →
    exec (.inv d) s = .next (s.put d.num (s.reg d.num ^^^ 0xFF#8) (s.flags false (s.reg d.num ^^^ 0xFF#8))) ∧
    exec (.clr d) s = .next (s.put d.num 0x00#8 ⟨false, false, true, s.st.i⟩)

/-- DEC and INC: modulo 256; DEC clears C only from 0x00, INC sets C only from 0xFF (R171, R172; the sense of C is the spec's
decision D15). -/
def Obligations.DecrementAndIncrementResult : Prop :=
  SingleEncoding .dec 0xB2#8 0xC2#8 0xD2#8 ∧ SingleEncoding .inc 0xB3#8 0xC3#8 0xD3#8 ∧
  ∀ (d : Single) (s : State), s.HasReg d.num → ∀ v : Byte, v = s.reg d.num →
    exec (.dec d) s = .next (s.put d.num (v - 1#8) (s.flags (decide (v ≠ 0x00#8)) (v - 1#8))) ∧
    exec (.inc d) s = .next (s.put d.num (v + 1#8) (s.flags (decide (v = 0xFF#8)) (v + 1#8)))

/-- XCHB exchanges the operand with B, B written second, C cleared, N and Z those of the original B, so that on B itself the
value stays; SWAP exchanges the nibbles of the operand, C bit 0 of the result and bit 4 of the operand (R176, R177; the
flags are the spec's decision D17). -/
def Obligations.ExchangeResult : Prop :=
  encode (.xchb .a) = [0xB6#8] ∧ (∀ n, encode (.xchb (.r n)) = [0xD6#8, n]) ∧
  SingleEncoding .swap 0xB7#8 0xC7#8 0xD7#8 ∧
  ∀ (d : Single) (s : State), s.HasReg d.num → ∀ v r : Byte, v = s.reg d.num →
    r = v.extractLsb' 0 4 ++ v.extractLsb' 4 4 →
    exec (.xchb d) s = .next { s with
      mem := (s.mem.write d.num.toNat (s.reg 1#8)).write 1 v
      st := s.flags false (s.reg 1#8) } ∧
    exec (.swap d) s = .next (s.put d.num r (s.flags (v.getLsbD 4) r))

/-- R184 to R187: the four rotates by one bit, through the carry or not; C is the bit that left, N and Z are the result's; I and
the rest are unchanged. -/
def Obligations.RotateResult : Prop :=
  SingleEncoding .rr 0xBC#8 0xCC#8 0xDC#8 ∧ SingleEncoding .rrc 0xBD#8 0xCD#8 0xDD#8 ∧
  SingleEncoding .rl 0xBE#8 0xCE#8 0xDE#8 ∧ SingleEncoding .rlc 0xBF#8 0xCF#8 0xDF#8 ∧
  ∀ (d : Single) (s : State), s.HasReg d.num → ∀ v : Byte, v = s.reg d.num →
    ∀ (i : Instr) (r : Byte) (c : Bool),
      (i, r, c) ∈ [(Instr.rr d, v.extractLsb' 0 1 ++ v.extractLsb' 1 7, v.getLsbD 0),
        (.rrc d, BitVec.ofBool s.st.c ++ v.extractLsb' 1 7, v.getLsbD 0),
        (.rl d, v.extractLsb' 0 7 ++ v.extractLsb' 7 1, v.getLsbD 7),
        (.rlc d, v.extractLsb' 0 7 ++ BitVec.ofBool s.st.c, v.getLsbD 7)] →
      exec i s = .next (s.put d.num r (s.flags c r))

/-- TSTA and TSTB clear C and set N and Z on A and on B; nothing else changes (R181, R182). CLRC has the opcode of TSTA and does
the same, N and Z included: the spec's decision D30 (R188; log entry 21). -/
def Obligations.TestRegisterResult : Prop :=
  encode .tsta = [0xB0#8] ∧ encode .clrc = [0xB0#8] ∧ encode .tstb = [0xC1#8] ∧
  ∀ s : State,
    exec .tsta s = .next { s with st := s.flags false s.a } ∧
    exec .clrc s = .next { s with st := s.flags false s.a } ∧
    exec .tstb s = .next { s with st := s.flags false s.b }

/-- PUSH raises `sp`, stores the operand there and leaves the operand; POP reads the byte at `sp`, lowers `sp` and leaves the
stack byte; both clear C and set N and Z on the byte moved (R26, R27, R178, R179; the stack's place is the spec's decision
D10). -/
def Obligations.PushAndPopResult : Prop :=
  SingleEncoding .push 0xB8#8 0xC8#8 0xD8#8 ∧ SingleEncoding .pop 0xB9#8 0xC9#8 0xD9#8 ∧
  ∀ (d : Single) (s : State), s.HasReg d.num →
    (s.HasReg (s.sp + 1#8) →
      exec (.push d) s =
        .next { s.put (s.sp + 1#8) (s.reg d.num) (s.flags false (s.reg d.num)) with sp := s.sp + 1#8 }) ∧
    (s.HasReg s.sp →
      exec (.pop d) s = .next { s.put d.num (s.reg s.sp) (s.flags false (s.reg s.sp)) with sp := s.sp - 1#8 })

/-- DJNZ decrements modulo 256 and jumps where the result is not zero; no flag changes (R180; the target is the spec's decision
D8). -/
def Obligations.DecrementAndJumpResult : Prop :=
  (∀ ofst, encode (.djnz .a ofst) = [0xBA#8, ofst] ∧ encode (.djnz .b ofst) = [0xCA#8, ofst]) ∧
  (∀ n ofst, encode (.djnz (.r n) ofst) = [0xDA#8, n, ofst]) ∧
  ∀ (d : Single) (ofst : Byte) (s : State), s.HasReg d.num →
    exec (.djnz d ofst) s = .next { s with
      mem := s.mem.write d.num.toNat (s.reg d.num - 1#8)
      pc := if s.reg d.num = 1#8 then s.pc else s.target ofst }

/-- DECD decrements the pair modulo 65536; C = 0 exactly from 0x0000, N and Z are the high byte's (R183; N and Z are the spec's
decision D16, the pair its decision D6). -/
def Obligations.DecrementPairResult : Prop :=
  SingleEncoding .decd 0xBB#8 0xCB#8 0xDB#8 ∧
  ∀ (d : Single) (s : State), s.HasPair d.num → ∀ w : Addr, w = s.pair d.num →
    exec (.decd d) s = .next (s.putPair d.num (w - 1#16) (s.wideFlags (decide (w ≠ 0x0000#16)) (w - 1#16)))

/-! ### Control instructions -/

/-- R230, R232, R233, R234: NOP changes nothing; EINT sets and DINT clears all four status bits; SETC sets C and Z, clears N and
leaves I; nothing else changes. -/
def Obligations.StatusInstructionsResult : Prop :=
  encode .nop = [0x00#8] ∧ encode .eint = [0x05#8] ∧ encode .dint = [0x06#8] ∧ encode .setc = [0x07#8] ∧
  ∀ s : State,
    exec .nop s = .next s ∧
    exec .eint s = .next { s with st := ⟨true, true, true, true⟩ } ∧
    exec .dint s = .next { s with st := ⟨false, false, false, false⟩ } ∧
    exec .setc s = .next { s with st := ⟨true, false, true, s.st.i⟩ }

/-- R236, R239: STSP copies `sp` to B and LDSP copies B to `sp`; no flag and nothing else changes. -/
def Obligations.StackPointerTransfersResult : Prop :=
  encode .stsp = [0x09#8] ∧ encode .ldsp = [0x0D#8] ∧
  ∀ s : State,
    exec .stsp s = .next { s with mem := s.mem.write 1 s.sp } ∧ exec .ldsp s = .next { s with sp := s.reg 1#8 }

/-- IDLE holds pc at its own address and makes the CPU wait, no flag changing; while the CPU waits and no interrupt can be
accepted, a step changes nothing and fetches nothing, with I = 0 until reset (R231, R264: the spec's decision D21). -/
def Obligations.IdleResult : Prop :=
  encode .idle = [0x01#8] ∧
  (∀ (s : State) (here : Addr), s.pc = here + 1#16 → exec .idle s = .next { s with pc := here, idle := true }) ∧
  ∀ s : State, s.resetReq = false → s.idle = true → (s.st.i = false ∨ s.pending = []) → step s = .next s

/-- POP ST loads all four status bits from the stack byte; RETS pops pc low, then high; RETI pops pc low, pc high and the status
byte; the stack bytes stay (R27, R28, R235, R237, R238; the layout of the byte is the spec's decision D9, the stack's place
its decision D10). -/
def Obligations.StackReturnsResult : Prop :=
  encode .popSt = [0x08#8] ∧ encode .rets = [0x0A#8] ∧ encode .reti = [0x0B#8] ∧
  ∀ s : State, s.HasReg s.sp →
    exec .popSt s = .next { s with
      st := ⟨(s.reg s.sp).getLsbD 7, (s.reg s.sp).getLsbD 6, (s.reg s.sp).getLsbD 5, (s.reg s.sp).getLsbD 4⟩
      sp := s.sp - 1#8 } ∧
    (s.HasReg (s.sp - 1#8) →
      exec .rets s = .next { s with pc := s.reg (s.sp - 1#8) ++ s.reg s.sp, sp := s.sp - 2#8 } ∧
      (s.HasReg (s.sp - 2#8) → ∀ v : Byte, v = s.reg (s.sp - 2#8) →
        exec .reti s = .next { s with
          pc := s.reg (s.sp - 1#8) ++ s.reg s.sp
          st := ⟨v.getLsbD 7, v.getLsbD 6, v.getLsbD 5, v.getLsbD 4⟩
          sp := s.sp - 3#8 }))

/-- PUSH ST stores the status byte above the stack, bits 3..0 as `ST_LOW` says, by default any value; C, N and Z afterwards are
the printed cell's or unaffected, as `PUSH_ST_FLAGS` says; I is not affected (R28, R240: the spec's decisions D9, D19). -/
def Obligations.PushStatusResult : Prop :=
  encode .pushSt = [0x0E#8] ∧
  ∀ s : State, s.HasReg (s.sp + 1#8) →
    ∃ (low : Nibble) (v : Byte), (∀ l, s.cfg.stLow = some l → low = l) ∧
      v = BitVec.ofBool s.st.c ++ BitVec.ofBool s.st.n ++ BitVec.ofBool s.st.z ++ BitVec.ofBool s.st.i ++ low ∧
      exec .pushSt s = .next { s with
        sp := s.sp + 1#8
        mem := s.mem.write (s.sp + 1#8).toNat v
        st := if s.cfg.pushStFlags = .table then s.flags false v else s.st
        draws := if s.cfg.stLow = none then s.draws + 1 else s.draws }

/-- The relative jumps, each under both of its spellings: taken on its condition, else pc stays at the next instruction; no flag
changes (R96, R241 to R254; the conditions are the spec's decision D14, the target its decision D8). -/
def Obligations.JumpResult : Prop :=
  ∀ (ofst : Byte) (s : State) (i : Instr) (op : Byte) (taken : Bool),
    (i, op, taken) ∈ [(Instr.jmp ofst, 0xE0#8, true), (.jz ofst, 0xE2#8, s.st.z), (.jeq ofst, 0xE2#8, s.st.z),
      (.jc ofst, 0xE3#8, s.st.c), (.jhs ofst, 0xE3#8, s.st.c), (.jp ofst, 0xE4#8, !s.st.n && !s.st.z),
      (.jgt ofst, 0xE4#8, !s.st.n && !s.st.z), (.jpz ofst, 0xE5#8, !s.st.n), (.jge ofst, 0xE5#8, !s.st.n),
      (.jnz ofst, 0xE6#8, !s.st.z), (.jne ofst, 0xE6#8, !s.st.z), (.jnc ofst, 0xE7#8, !s.st.c),
      (.jl ofst, 0xE7#8, !s.st.c)] →
    encode i = [op, ofst] ∧ exec i s = .next { s with pc := if taken = true then s.target ofst else s.pc }

/-- TRAP n pushes the address of the next instruction, high byte first, and loads pc from vector n; the status register is
neither pushed nor changed (R256, R270; numbering and vectors are the spec's decision D12). -/
def Obligations.TrapResult : Prop :=
  ∀ (n : Nat) (s : State), n < 24 → s.HasReg (s.sp + 1#8) → s.HasReg (s.sp + 2#8) →
    s.Storage (BitVec.ofNat 16 (0xFFFE - 2 * n)) → s.Storage (BitVec.ofNat 16 (0xFFFF - 2 * n)) →
    encode (.trap n) = [BitVec.ofNat 8 (0xFF - n)] ∧
    exec (.trap n) s = .next { s with
      sp := s.sp + 2#8
      mem := (s.mem.write (s.sp + 1#8).toNat (s.pc.extractLsb' 8 8)).write (s.sp + 2#8).toNat (s.pc.extractLsb' 0 8)
      pc := s.mem.read (0xFFFE - 2 * n) ++ s.mem.read (0xFFFF - 2 * n) }

/-! ### Calls and returns together -/

/-- RETS undoes CALL, in every form, and TRAP: executed in any state u with the stack pointer, platform and two stack bytes
the call left, it returns to the instruction after the call with the stack pointer of before (R27, R215, R216, R237,
R256; that the pushed address is the next instruction's is the spec's decision D8). -/
def Obligations.ReturnUndoesCall : Prop :=
  ∀ (i : Instr) (s t u : State), ((∃ f, i = .call f) ∨ ∃ n, i = .trap n) → exec i s = .next t →
    u.sp = t.sp → u.cfg = t.cfg → (∀ n ∈ [s.sp + 1#8, s.sp + 2#8], u.reg n = t.reg n) →
    exec .rets u = .next { u with pc := s.pc, sp := s.sp }

/-- POP undoes PUSH and POP ST undoes PUSH ST, on either reading of the flags of PUSH ST and for every `ST_LOW`: the byte or the
four status bits and the stack pointer come back (R27, R178, R179, R235, R240; the stack's place is the spec's decision
D10, the status byte its decision D9). -/
def Obligations.PopUndoesPush : Prop :=
  ∀ (s t u : State), u.sp = t.sp → u.cfg = t.cfg → u.reg (s.sp + 1#8) = t.reg (s.sp + 1#8) →
    (∀ d e : Single, exec (.push d) s = .next t → u.HasReg e.num →
      exec (.pop e) u = .next { u.put e.num (s.reg d.num) (u.flags false (s.reg d.num)) with sp := s.sp }) ∧
    (exec .pushSt s = .next t → exec .popSt u = .next { u with st := s.st, sp := s.sp })

end
end

