-- ==== Sys2Proof/Laws/Memory.lean ====
section
/-! SUPPORT. The laws of memory: what a read gives after a write, and that the canonical form is kept. The read laws hold of
every list of cells, in canonical form or not. -/

namespace Sys2Proof.Machine

theorem Memory.read_dropWhile {m : Memory} {a b : Nat} (h : a < b) :
    Memory.read (m.dropWhile fun c => decide (c.1 ≤ a)) b = Memory.read m b := by
  induction m with
  | nil => rfl
  | cons c m ih =>
    obtain ⟨k, v⟩ := c
    by_cases hk : k ≤ a
    · rw [List.dropWhile_cons_of_pos (by simpa using hk), ih]
      simp [Memory.read, show k < b by omega]
    · rw [List.dropWhile_cons_of_neg (by simpa using hk)]

theorem Memory.read_dropWhile_le {m : Memory} {a b : Nat} (h : b ≤ a) :
    Memory.read (m.dropWhile fun c => decide (c.1 ≤ a)) b = unwritten := by
  induction m with
  | nil => rfl
  | cons c m ih =>
    obtain ⟨k, v⟩ := c
    by_cases hk : k ≤ a
    · rw [List.dropWhile_cons_of_pos (by simpa using hk), ih]
    · rw [List.dropWhile_cons_of_neg (by simpa using hk)]
      simp [Memory.read, show ¬ k < b by omega, show k ≠ b by omega]

/-- Reading behind a placed cell. -/
theorem Memory.read_place (a : Nat) (v : Byte) (m : Memory) (b : Nat) :
    Memory.read (Memory.place a v m) b =
      if v = unwritten then Memory.read m b else if a < b then Memory.read m b else if a = b then v else unwritten := by
  unfold Memory.place
  split <;> simp [Memory.read, *]

/-- A read of the address just written gives the byte written. -/
@[simp] theorem Memory.read_write_same (m : Memory) (a : Nat) (v : Byte) : (m.write a v).read a = v := by
  induction m with
  | nil => simp only [Memory.write, Memory.read_place, Memory.read]; split <;> simp_all
  | cons c m ih =>
    obtain ⟨k, w⟩ := c
    unfold Memory.write
    split
    · next h => simp [Memory.read, h, ih]
    · rw [Memory.read_place, Memory.read_dropWhile_le (Nat.le_refl a)]
      split <;> simp_all

/-- A read of any other address gives what it gave. -/
theorem Memory.read_write_other (m : Memory) {a b : Nat} (v : Byte) (h : b ≠ a) :
    (m.write a v).read b = m.read b := by
  induction m with
  | nil => simp only [Memory.write, Memory.read_place, Memory.read]; split <;> simp; omega
  | cons c m ih =>
    obtain ⟨k, w⟩ := c
    unfold Memory.write
    split
    · simp [Memory.read, ih]
    · next hk =>
      rw [Memory.read_place]
      rcases Nat.lt_or_gt_of_ne h with hb | hb
      · rw [Memory.read_dropWhile_le (Nat.le_of_lt hb)]
        have : ¬ k < b := by omega
        have : k ≠ b := by omega
        simp [Memory.read, *]; omega
      · rw [Memory.read_dropWhile hb]
        simp [hb]

/-- Both laws in one. -/
theorem Memory.read_write (m : Memory) (a : Nat) (v : Byte) (b : Nat) :
    (m.write a v).read b = if b = a then v else m.read b := by
  split
  · next h => rw [h, Memory.read_write_same]
  · next h => exact Memory.read_write_other m v h

theorem Memory.risesFrom_weaken {m : Memory} {j k : Nat} (h : j ≤ k) (hm : Memory.risesFrom (some k) m = true) :
    Memory.risesFrom (some j) m = true := by
  cases m with
  | nil => rfl
  | cons c m =>
    obtain ⟨l, v⟩ := c
    simp only [Memory.risesFrom, Bool.and_eq_true, decide_eq_true_eq] at hm ⊢
    exact ⟨⟨by omega, hm.1.2⟩, hm.2⟩

theorem Memory.risesFrom_dropWhile {m : Memory} {low : Option Nat} (a : Nat) (hm : Memory.risesFrom low m = true) :
    Memory.risesFrom (some a) (m.dropWhile fun c => decide (c.1 ≤ a)) = true := by
  induction m generalizing low with
  | nil => rfl
  | cons c m ih =>
    obtain ⟨k, v⟩ := c
    simp only [Memory.risesFrom, Bool.and_eq_true] at hm
    by_cases hk : k ≤ a
    · rw [List.dropWhile_cons_of_pos (by simpa using hk)]
      exact ih hm.2
    · rw [List.dropWhile_cons_of_neg (by simpa using hk)]
      simp only [Memory.risesFrom, Bool.and_eq_true, decide_eq_true_eq]
      exact ⟨⟨by omega, hm.1.2⟩, hm.2⟩

theorem Memory.risesFrom_write {m : Memory} {low : Option Nat} {a : Nat} (v : Byte)
    (hlow : ∀ j, low = some j → j < a) (hm : Memory.risesFrom low m = true) :
    Memory.risesFrom low (m.write a v) = true := by
  have place : ∀ t : Memory, Memory.risesFrom (some a) t = true →
      Memory.risesFrom low (Memory.place a v t) = true := by
    intro t ht
    unfold Memory.place
    split
    · cases low with
      | none => cases t <;> simp_all [Memory.risesFrom]
      | some j => exact Memory.risesFrom_weaken (Nat.le_of_lt (hlow j rfl)) ht
    · cases low <;> simp_all [Memory.risesFrom]
  induction m generalizing low with
  | nil => exact place [] rfl
  | cons c m ih =>
    obtain ⟨k, w⟩ := c
    unfold Memory.write
    split
    · next hk =>
      simp only [Memory.risesFrom, Bool.and_eq_true] at hm ⊢
      refine ⟨hm.1, ih (by rintro j ⟨⟩; exact hk) hm.2 ?_⟩
      intro t ht
      unfold Memory.place
      split
      · exact Memory.risesFrom_weaken (Nat.le_of_lt hk) ht
      · simp_all [Memory.risesFrom]
    · exact place _ (Memory.risesFrom_dropWhile a hm)

/-- A write keeps the canonical form. -/
theorem Memory.wf_write {m : Memory} (a : Nat) (v : Byte) (hm : m.wf = true) : (m.write a v).wf = true :=
  Memory.risesFrom_write v (by simp) hm

/-- The memory of the reset state is in canonical form. -/
theorem Memory.wf_reset : State.reset.mem.wf = true := rfl

/-- The cells after a write are cells from before and the one written. -/
theorem Memory.mem_write {m : Memory} {a : Nat} {v : Byte} {c : Host.Cell} (h : c ∈ m.write a v) :
    c ∈ m ∨ c = (a, v) := by
  induction m with
  | nil =>
    simp only [Memory.write, Memory.place] at h
    split at h <;> simp_all
  | cons d m ih =>
    obtain ⟨k, w⟩ := d
    unfold Memory.write at h
    split at h
    · rcases List.mem_cons.mp h with rfl | h
      · simp
      · rcases ih h with h | h <;> simp [h]
    · unfold Memory.place at h
      split at h
      · exact .inl ((List.dropWhile_suffix _).subset h)
      · rcases List.mem_cons.mp h with rfl | h
        · simp
        · exact .inl ((List.dropWhile_suffix _).subset h)

end Sys2Proof.Machine
end

