-- ==== Sys2Proof/Laws/State.lean ====
section
/-! SUPPORT. One lemma per field for every named update of the state, so that no later proof unfolds a record update. -/

namespace Sys2Proof.Machine

@[simp] theorem State.setReg_pc (s : State) (n v : Byte) : (s.setReg n v).pc = s.pc := rfl
@[simp] theorem State.setReg_sp (s : State) (n v : Byte) : (s.setReg n v).sp = s.sp := rfl
@[simp] theorem State.setReg_st (s : State) (n v : Byte) : (s.setReg n v).st = s.st := rfl
@[simp] theorem State.setReg_idle (s : State) (n v : Byte) : (s.setReg n v).idle = s.idle := rfl
@[simp] theorem State.setReg_pending (s : State) (n v : Byte) : (s.setReg n v).pending = s.pending := rfl
@[simp] theorem State.setReg_resetReq (s : State) (n v : Byte) : (s.setReg n v).resetReq = s.resetReq := rfl
@[simp] theorem State.setReg_events (s : State) (n v : Byte) : (s.setReg n v).events = s.events := rfl
@[simp] theorem State.setReg_draws (s : State) (n v : Byte) : (s.setReg n v).draws = s.draws := rfl
@[simp] theorem State.setReg_cfg (s : State) (n v : Byte) : (s.setReg n v).cfg = s.cfg := rfl
@[simp] theorem State.setReg_mem (s : State) (n v : Byte) : (s.setReg n v).mem = s.mem.write n.toNat v := rfl

@[simp] theorem State.jumpRel_sp (s : State) (ofst : Byte) : (s.jumpRel ofst).sp = s.sp := rfl
@[simp] theorem State.jumpRel_st (s : State) (ofst : Byte) : (s.jumpRel ofst).st = s.st := rfl
@[simp] theorem State.jumpRel_mem (s : State) (ofst : Byte) : (s.jumpRel ofst).mem = s.mem := rfl
@[simp] theorem State.jumpRel_idle (s : State) (ofst : Byte) : (s.jumpRel ofst).idle = s.idle := rfl
@[simp] theorem State.jumpRel_pending (s : State) (ofst : Byte) : (s.jumpRel ofst).pending = s.pending := rfl
@[simp] theorem State.jumpRel_resetReq (s : State) (ofst : Byte) : (s.jumpRel ofst).resetReq = s.resetReq := rfl
@[simp] theorem State.jumpRel_events (s : State) (ofst : Byte) : (s.jumpRel ofst).events = s.events := rfl
@[simp] theorem State.jumpRel_draws (s : State) (ofst : Byte) : (s.jumpRel ofst).draws = s.draws := rfl
@[simp] theorem State.jumpRel_cfg (s : State) (ofst : Byte) : (s.jumpRel ofst).cfg = s.cfg := rfl
@[simp] theorem State.jumpRel_pc (s : State) (ofst : Byte) : (s.jumpRel ofst).pc = s.pc + sext16 ofst := rfl

@[simp] theorem testAndJump_sp (t ofst : Byte) (s : State) : (testAndJump t ofst s).sp = s.sp := by
  unfold testAndJump; split <;> rfl
@[simp] theorem testAndJump_mem (t ofst : Byte) (s : State) : (testAndJump t ofst s).mem = s.mem := by
  unfold testAndJump; split <;> rfl
@[simp] theorem testAndJump_idle (t ofst : Byte) (s : State) : (testAndJump t ofst s).idle = s.idle := by
  unfold testAndJump; split <;> rfl
@[simp] theorem testAndJump_pending (t ofst : Byte) (s : State) : (testAndJump t ofst s).pending = s.pending := by
  unfold testAndJump; split <;> rfl
@[simp] theorem testAndJump_resetReq (t ofst : Byte) (s : State) : (testAndJump t ofst s).resetReq = s.resetReq := by
  unfold testAndJump; split <;> rfl
@[simp] theorem testAndJump_events (t ofst : Byte) (s : State) : (testAndJump t ofst s).events = s.events := by
  unfold testAndJump; split <;> rfl
@[simp] theorem testAndJump_draws (t ofst : Byte) (s : State) : (testAndJump t ofst s).draws = s.draws := by
  unfold testAndJump; split <;> rfl
@[simp] theorem testAndJump_cfg (t ofst : Byte) (s : State) : (testAndJump t ofst s).cfg = s.cfg := by
  unfold testAndJump; split <;> rfl
@[simp] theorem testAndJump_st (t ofst : Byte) (s : State) : (testAndJump t ofst s).st = s.st.result false t := by
  unfold testAndJump; split <;> rfl
@[simp] theorem testAndJump_pc (t ofst : Byte) (s : State) :
    (testAndJump t ofst s).pc = if t = 0#8 then s.pc else s.pc + sext16 ofst := by
  unfold testAndJump; split <;> rfl

@[simp] theorem Status.result_c (st : Status) (c : Bool) (v : Byte) : (st.result c v).c = c := rfl
@[simp] theorem Status.result_n (st : Status) (c : Bool) (v : Byte) : (st.result c v).n = v.msb := rfl
@[simp] theorem Status.result_z (st : Status) (c : Bool) (v : Byte) : (st.result c v).z = (v == 0#8) := rfl
@[simp] theorem Status.result_i (st : Status) (c : Bool) (v : Byte) : (st.result c v).i = st.i := rfl
@[simp] theorem Status.wideResult_c (st : Status) (c : Bool) (w : Addr) : (st.wideResult c w).c = c := rfl
@[simp] theorem Status.wideResult_n (st : Status) (c : Bool) (w : Addr) : (st.wideResult c w).n = w.msb := rfl
@[simp] theorem Status.wideResult_i (st : Status) (c : Bool) (w : Addr) : (st.wideResult c w).i = st.i := rfl

end Sys2Proof.Machine
end

