-- ==== Sys2Proof/Laws/Ops.lean ====
section
/-! SUPPORT. One lemma for each shared operation that says everything it can do. A proof cites these and unfolds no
operation. -/

namespace Sys2Proof.Machine

variable {α β : Type}

/-! ### Sequencing -/

@[simp] theorem ok_bind (a : α) (f : α → Result β) : ((Except.ok a : Result α) >>= f) = f a := rfl

@[simp] theorem error_bind (e : Stop) (f : α → Result β) : ((Except.error e : Result α) >>= f) = .error e := rfl

/-- A sequence succeeds where both of its parts do. -/
theorem bind_eq_ok {x : Result α} {f : α → Result β} {b : β} :
    (x >>= f) = .ok b ↔ ∃ a, x = .ok a ∧ f a = .ok b := by
  cases x <;> simp

@[simp] theorem finish_ok (s : State) : finish (.ok s) = .next s := rfl

/-- A meaning answers a next state where its operations do. -/
@[simp] theorem finish_eq_next {r : Result State} {t : State} : finish r = .next t ↔ r = .ok t := by
  cases r with
  | ok s => simp [finish]
  | error e => cases e <;> simp [finish]

/-! ### Bytes and words -/

@[simp] theorem hiByte_append (hi lo : Byte) : hiByte (hi ++ lo) = hi := by
  apply BitVec.eq_of_getLsbD_eq
  intro i h
  simp only [hiByte, BitVec.getLsbD_append, BitVec.getLsbD_extractLsb', h]
  simp

@[simp] theorem loByte_append (hi lo : Byte) : loByte (hi ++ lo) = lo := by
  apply BitVec.eq_of_getLsbD_eq
  intro i h
  simp only [loByte, BitVec.getLsbD_append, BitVec.getLsbD_extractLsb', h]
  simp [h]

/-! ### Registers -/

/-- A and B exist on every platform. -/
theorem State.hasReg_of_lt (s : State) {n : Byte} (h : n.toNat < 128) : s.HasReg n := by
  unfold State.HasReg
  cases s.cfg.nreg <;> simp [RegFile.size] <;> omega

@[simp] theorem State.hasReg_a (s : State) : s.HasReg 0#8 := s.hasReg_of_lt (by decide)

@[simp] theorem State.hasReg_b (s : State) : s.HasReg 1#8 := s.hasReg_of_lt (by decide)

theorem State.reg_setReg (s : State) (n v m : Byte) : (s.setReg n v).reg m = if m = n then v else s.reg m := by
  simp only [State.reg, State.setReg_mem]
  rw [Memory.read_write]
  simp [BitVec.toNat_inj]

@[simp] theorem State.reg_setReg_same (s : State) (n v : Byte) : (s.setReg n v).reg n = v := by
  simp [State.reg_setReg]

theorem regRead_eq_ok {n v : Byte} {s : State} : regRead n s = .ok v ↔ s.HasReg n ∧ v = s.reg n := by
  unfold regRead
  split <;> simp_all [eq_comm]

theorem regWrite_eq_ok {n v : Byte} {s t : State} : regWrite n v s = .ok t ↔ s.HasReg n ∧ t = s.setReg n v := by
  unfold regWrite
  split <;> simp_all [eq_comm]

/-- A register that exists is read. -/
theorem regRead_of_hasReg {n : Byte} {s : State} (h : s.HasReg n) : regRead n s = .ok (s.reg n) :=
  regRead_eq_ok.mpr ⟨h, rfl⟩

/-- A register that exists is written. -/
theorem regWrite_of_hasReg {n : Byte} (v : Byte) {s : State} (h : s.HasReg n) :
    regWrite n v s = .ok (s.setReg n v) :=
  regWrite_eq_ok.mpr ⟨h, rfl⟩

@[simp] theorem regRead_a (s : State) : regRead 0#8 s = .ok s.a := regRead_of_hasReg s.hasReg_a

@[simp] theorem regRead_b (s : State) : regRead 1#8 s = .ok s.b := regRead_of_hasReg s.hasReg_b

@[simp] theorem regWrite_a (v : Byte) (s : State) : regWrite 0#8 v s = .ok (s.setReg 0#8 v) :=
  regWrite_of_hasReg v s.hasReg_a

@[simp] theorem regWrite_b (v : Byte) (s : State) : regWrite 1#8 v s = .ok (s.setReg 1#8 v) :=
  regWrite_of_hasReg v s.hasReg_b

theorem readPair_eq_ok {p : Byte} {s : State} {w : Addr} :
    readPair p s = .ok w ↔
      p ≠ 0#8 ∧ s.HasReg (p - 1#8) ∧ s.HasReg p ∧ w = wordOf (s.reg (p - 1#8)) (s.reg p) := by
  unfold readPair
  by_cases hp : p = 0#8
  · simp [hp]
  · simp only [hp, if_false, bind_eq_ok, regRead_eq_ok, Except.ok.injEq]
    constructor
    · rintro ⟨hi, ⟨h1, rfl⟩, lo, ⟨h2, rfl⟩, rfl⟩
      exact ⟨hp, h1, h2, rfl⟩
    · rintro ⟨-, h1, h2, rfl⟩
      exact ⟨_, ⟨h1, rfl⟩, _, ⟨h2, rfl⟩, rfl⟩

theorem writePair_eq_ok {p : Byte} {w : Addr} {s t : State} :
    writePair p w s = .ok t ↔
      p ≠ 0#8 ∧ s.HasReg (p - 1#8) ∧ s.HasReg p ∧ t = (s.setReg (p - 1#8) (hiByte w)).setReg p (loByte w) := by
  unfold writePair
  by_cases hp : p = 0#8
  · simp [hp]
  · simp only [hp, if_false, bind_eq_ok, regWrite_eq_ok]
    constructor
    · rintro ⟨u, ⟨h1, rfl⟩, h2, rfl⟩
      exact ⟨hp, h1, by simpa using h2, rfl⟩
    · rintro ⟨-, h1, h2, rfl⟩
      exact ⟨_, ⟨h1, rfl⟩, by simpa using h2, rfl⟩

/-! ### The address space -/

/-- Where a read succeeds, it gives a stored byte and changes nothing, or the environment's answer and records it. -/
theorem memRead_eq_ok {a : Addr} {s t : State} {v : Byte} (h : memRead a s = .ok (v, t)) :
    ((placeOf s.cfg a = .register ∨ placeOf s.cfg a = .ram ∨ placeOf s.cfg a = .rom) ∧
        v = s.mem.read a.toNat ∧ t = s) ∨
    (placeOf s.cfg a = .peripheral ∧ v = Config.periphAnswer s.events s.draws (loByte a) ∧
        t = { s with events := .periphRead (loByte a) v :: s.events, draws := s.draws + 1 }) ∨
    (placeOf s.cfg a = .device ∧ v = Config.deviceAnswer s.events s.draws a ∧
        t = { s with events := .deviceRead a v :: s.events, draws := s.draws + 1 }) := by
  unfold memRead at h
  cases hp : placeOf s.cfg a <;> simp only [hp] at h <;> simp_all
  all_goals (obtain ⟨rfl, rfl⟩ := h; simp)

/-- A stored byte is read. -/
theorem memRead_storage {a : Addr} {s : State}
    (h : placeOf s.cfg a = .register ∨ placeOf s.cfg a = .ram ∨ placeOf s.cfg a = .rom) :
    memRead a s = .ok (s.mem.read a.toNat, s) := by
  unfold memRead
  rcases h with h | h | h <;> simp [h]

/-- Where a write succeeds, it stores the byte, or hands it to the environment and records it. -/
theorem memWrite_eq_ok {a : Addr} {v : Byte} {s t : State} (h : memWrite a v s = .ok t) :
    ((placeOf s.cfg a = .register ∨ placeOf s.cfg a = .ram) ∧ t = { s with mem := s.mem.write a.toNat v }) ∨
    (placeOf s.cfg a = .peripheral ∧ t = { s with events := .periphWrite (loByte a) v :: s.events }) ∨
    (placeOf s.cfg a = .device ∧ t = { s with events := .deviceWrite a v :: s.events }) := by
  unfold memWrite at h
  cases hp : placeOf s.cfg a <;> simp only [hp] at h <;> simp_all

/-- A byte is stored where the address is a register or RAM. -/
theorem memWrite_writable {a : Addr} {v : Byte} {s : State}
    (h : placeOf s.cfg a = .register ∨ placeOf s.cfg a = .ram) :
    memWrite a v s = .ok { s with mem := s.mem.write a.toNat v } := by
  unfold memWrite
  rcases h with h | h <;> simp [h]

theorem periphAddr_toNat (n : Byte) : (periphAddr n).toNat = 0x100 + n.toNat := by
  have := n.isLt
  simp only [periphAddr, zext16, BitVec.toNat_add, BitVec.toNat_setWidth]
  have : (0x0100#16).toNat = 256 := rfl
  omega

/-- The address of `P[n]` lies in the peripheral file. -/
@[simp] theorem placeOf_periphAddr (cfg : Platform) (n : Byte) : placeOf cfg (periphAddr n) = .peripheral := by
  have := n.isLt
  simp [placeOf, periphAddr_toNat, show 256 + n.toNat < 512 by omega]

/-- The number of the peripheral register at the address of `P[n]` is n. -/
@[simp] theorem loByte_periphAddr (n : Byte) : loByte (periphAddr n) = n := by
  apply BitVec.eq_of_toNat_eq
  have := n.isLt
  simp only [loByte, BitVec.extractLsb'_toNat, periphAddr_toNat]
  simp only [Nat.shiftRight_zero]
  omega

/-- A peripheral read: the environment's answer, recorded. -/
theorem periphRead_eq (n : Byte) (s : State) :
    periphRead n s = .ok (Config.periphAnswer s.events s.draws n,
      { s with
        events := .periphRead n (Config.periphAnswer s.events s.draws n) :: s.events
        draws := s.draws + 1 }) := by
  simp [periphRead, memRead]

/-- A peripheral write: an output event. -/
theorem periphWrite_eq (n v : Byte) (s : State) :
    periphWrite n v s = .ok { s with events := .periphWrite n v :: s.events } := by
  simp [periphWrite, memWrite]

/-! ### The stack -/

theorem push8_eq_ok {v : Byte} {s t : State} :
    push8 v s = .ok t ↔ s.HasReg (s.sp + 1#8) ∧ t = { s with sp := s.sp + 1#8 }.setReg (s.sp + 1#8) v := by
  unfold push8
  rw [regWrite_eq_ok]

theorem pop8_eq_ok {s t : State} {v : Byte} :
    pop8 s = .ok (v, t) ↔ s.HasReg s.sp ∧ v = s.reg s.sp ∧ t = { s with sp := s.sp - 1#8 } := by
  simp only [pop8, bind_eq_ok, regRead_eq_ok, Except.ok.injEq, Prod.mk.injEq]
  constructor
  · rintro ⟨w, ⟨h, rfl⟩, rfl, rfl⟩
    exact ⟨h, rfl, rfl⟩
  · rintro ⟨h, rfl, rfl⟩
    exact ⟨_, ⟨h, rfl⟩, rfl, rfl⟩

theorem push16_eq_ok {w : Addr} {s t : State} :
    push16 w s = .ok t ↔ s.HasReg (s.sp + 1#8) ∧ s.HasReg (s.sp + 2#8) ∧
      t = ({ s with sp := s.sp + 2#8 }.setReg (s.sp + 1#8) (hiByte w)).setReg (s.sp + 2#8) (loByte w) := by
  have h2 : s.sp + 1#8 + 1#8 = s.sp + 2#8 := by rw [BitVec.add_assoc]; rfl
  simp only [push16, bind_eq_ok, push8_eq_ok]
  constructor
  · rintro ⟨u, ⟨h1, rfl⟩, h, rfl⟩
    simp only [State.setReg_sp, h2] at h
    exact ⟨h1, h, by simp only [State.setReg_sp, h2]; rfl⟩
  · rintro ⟨h1, h, rfl⟩
    refine ⟨_, ⟨h1, rfl⟩, ?_, ?_⟩
    · simp only [State.setReg_sp, h2]; exact h
    · simp only [State.setReg_sp, h2]; rfl

theorem pop16_eq_ok {s t : State} {w : Addr} :
    pop16 s = .ok (w, t) ↔ s.HasReg s.sp ∧ s.HasReg (s.sp - 1#8) ∧
      w = wordOf (s.reg (s.sp - 1#8)) (s.reg s.sp) ∧ t = { s with sp := s.sp - 2#8 } := by
  have h2 : s.sp - 1#8 - 1#8 = s.sp - 2#8 := by rw [BitVec.sub_sub]; rfl
  simp only [pop16, bind_eq_ok, Prod.exists, pop8_eq_ok, Except.ok.injEq, Prod.mk.injEq]
  constructor
  · rintro ⟨lo, u, ⟨h1, rfl, rfl⟩, hi, u', ⟨h, rfl, rfl⟩, rfl, rfl⟩
    exact ⟨h1, h, rfl, by simp only [h2]⟩
  · rintro ⟨h1, h, rfl, rfl⟩
    exact ⟨_, _, ⟨h1, rfl, rfl⟩, _, _, ⟨h, rfl, rfl⟩, rfl, by simp only [h2]⟩

/-- The low bits of a status byte about to be stored: those the platform fixes, or a free value. -/
theorem statusLow_cases (s : State) :
    (∃ low, s.cfg.stLow = some low ∧ statusLow s = (low, s)) ∨
    (s.cfg.stLow = none ∧ statusLow s = (Config.statusLow s.draws, { s with draws := s.draws + 1 })) := by
  unfold statusLow
  cases s.cfg.stLow <;> simp

/-! ### Reads that may ask the environment -/

/-- s and t differ at most in what reading a peripheral register or a device leaves behind. -/
def State.SameButEvents (s t : State) : Prop := t = { s with events := t.events, draws := t.draws }

theorem State.SameButEvents.refl (s : State) : s.SameButEvents s := rfl

theorem State.SameButEvents.trans {s t u : State} (h1 : s.SameButEvents t) (h2 : t.SameButEvents u) :
    s.SameButEvents u := by
  unfold State.SameButEvents at *
  rw [h2, h1]

theorem memRead_sameButEvents {a : Addr} {s t : State} {v : Byte} (h : memRead a s = .ok (v, t)) :
    s.SameButEvents t := by
  rcases memRead_eq_ok h with ⟨-, -, rfl⟩ | ⟨-, -, rfl⟩ | ⟨-, -, rfl⟩ <;> rfl

theorem readVector_sameButEvents {k : Nat} {s t : State} {w : Addr} (h : readVector k s = .ok (w, t)) :
    s.SameButEvents t := by
  simp only [readVector, bind_eq_ok, Prod.exists, Except.ok.injEq, Prod.mk.injEq] at h
  obtain ⟨hi, s1, h1, lo, s2, h2, -, rfl⟩ := h
  exact (memRead_sameButEvents h1).trans (memRead_sameButEvents h2)

/-- A vector that is stored is read, high byte first. -/
theorem readVector_storage {k : Nat} {s : State}
    (h1 : placeOf s.cfg (vectorAddr k) = .register ∨ placeOf s.cfg (vectorAddr k) = .ram ∨
      placeOf s.cfg (vectorAddr k) = .rom)
    (h2 : placeOf s.cfg (vectorAddr k + 1#16) = .register ∨ placeOf s.cfg (vectorAddr k + 1#16) = .ram ∨
      placeOf s.cfg (vectorAddr k + 1#16) = .rom) :
    readVector k s =
      .ok (wordOf (s.mem.read (vectorAddr k).toNat) (s.mem.read (vectorAddr k + 1#16).toNat), s) := by
  simp only [readVector, memRead_storage h1, ok_bind, memRead_storage h2]

/-! ### Operands -/

theorem readOperand_eq_ok {o : Operand} {s : State} {v : Byte} :
    readOperand o s = .ok v ↔ (∃ n, o = .reg n ∧ s.HasReg n ∧ v = s.reg n) ∨ o = .imm v := by
  cases o <;> simp [readOperand, regRead_eq_ok]

theorem readDual_eq_ok {f : DualForm} {s : State} {x d : Byte} :
    readDual f s = .ok (x, d) ↔ readOperand f.source s = .ok x ∧ s.HasReg f.dest ∧ d = s.reg f.dest := by
  simp only [readDual, bind_eq_ok, regRead_eq_ok, Except.ok.injEq, Prod.mk.injEq]
  constructor
  · rintro ⟨x', h1, d', ⟨h2, rfl⟩, rfl, rfl⟩
    exact ⟨h1, h2, rfl⟩
  · rintro ⟨h1, h2, rfl⟩
    exact ⟨_, h1, _, ⟨h2, rfl⟩, rfl, rfl⟩

theorem effectiveAddr_eq_ok {f : ExtForm} {s : State} {ea : Addr} :
    effectiveAddr f s = .ok ea ↔
      f = .direct ea ∨ (∃ label, f = .indexed label ∧ ea = label + zext16 s.b) ∨
      (∃ n, f = .indirect n ∧ readPair n s = .ok ea) := by
  cases f <;> simp [effectiveAddr, indexedBy, eq_comm]

theorem movdSource_eq_ok {f : MovdForm} {s : State} {w : Addr} :
    movdSource f s = .ok w ↔
      (∃ rp, f = .imm w rp) ∨ (∃ iop rp, f = .immB iop rp ∧ w = iop + zext16 s.b) ∨
      (∃ ps pd, f = .pair ps pd ∧ readPair ps s = .ok w) := by
  cases f <;> simp [movdSource, indexedBy, eq_comm]

/-! ### Shared meanings -/

theorem dualUpdate_eq_ok {op : Byte → Byte → Bool → Alu} {f : DualForm} {s t : State} :
    dualUpdate op f s = .ok t ↔ ∃ x d, readDual f s = .ok (x, d) ∧
      t = { s.setReg f.dest (op x d s.st.c).value with
            st := s.st.result (op x d s.st.c).carry (op x d s.st.c).value } := by
  simp only [dualUpdate, bind_eq_ok, Prod.exists, regWrite_eq_ok, Except.ok.injEq]
  constructor
  · rintro ⟨x, d, h, u, ⟨-, rfl⟩, rfl⟩
    exact ⟨x, d, h, rfl⟩
  · rintro ⟨x, d, h, rfl⟩
    exact ⟨x, d, h, _, ⟨(readDual_eq_ok.mp h).2.1, rfl⟩, rfl⟩

theorem dualCompare_eq_ok {op : Byte → Byte → Bool → Alu} {f : DualForm} {s t : State} :
    dualCompare op f s = .ok t ↔ ∃ x d, readDual f s = .ok (x, d) ∧
      t = { s with st := s.st.result (op x d s.st.c).carry (op x d s.st.c).value } := by
  simp only [dualCompare, bind_eq_ok, Prod.exists, Except.ok.injEq, eq_comm (b := t)]

/-- A decimal operation: the operation's result on valid operands, four free values otherwise. -/
theorem decimalUpdate_eq_ok {op : Byte → Byte → Bool → Alu} {f : DualForm} {s t : State}
    (h : decimalUpdate op f s = .ok t) :
    ∃ x d, readDual f s = .ok (x, d) ∧
      (((isBcd x && isBcd d) = true ∧
        t = { s.setReg f.dest (op x d s.st.c).value with
              st := s.st.result (op x d s.st.c).carry (op x d s.st.c).value }) ∨
       ((isBcd x && isBcd d) = false ∧
        t = { s.setReg f.dest (Config.bcdValue s.draws) with
              st := ⟨Config.bcdCarry s.draws, Config.bcdSign s.draws, Config.bcdZero s.draws, s.st.i⟩
              draws := s.draws + 1 })) := by
  simp only [decimalUpdate, bind_eq_ok, Prod.exists] at h
  obtain ⟨x, d, hr, h⟩ := h
  refine ⟨x, d, hr, ?_⟩
  split at h
  · next hb =>
    simp only [bind_eq_ok, regWrite_eq_ok, Except.ok.injEq] at h
    obtain ⟨u, ⟨-, rfl⟩, rfl⟩ := h
    exact .inl ⟨hb, rfl⟩
  · next hb =>
    simp only [bind_eq_ok, regWrite_eq_ok, Except.ok.injEq] at h
    obtain ⟨u, ⟨-, rfl⟩, rfl⟩ := h
    exact .inr ⟨by simpa using hb, rfl⟩

theorem singleUpdate_eq_ok {op : Byte → Bool → Alu} {d : Single} {s t : State} :
    singleUpdate op d s = .ok t ↔ s.HasReg d.num ∧
      t = { s.setReg d.num (op (s.reg d.num) s.st.c).value with
            st := s.st.result (op (s.reg d.num) s.st.c).carry (op (s.reg d.num) s.st.c).value } := by
  simp only [singleUpdate, bind_eq_ok, regRead_eq_ok, regWrite_eq_ok, Except.ok.injEq]
  constructor
  · rintro ⟨v, ⟨h, rfl⟩, u, ⟨-, rfl⟩, rfl⟩
    exact ⟨h, rfl⟩
  · rintro ⟨h, rfl⟩
    exact ⟨_, ⟨h, rfl⟩, _, ⟨h, rfl⟩, rfl⟩

/-- A read and a write of the same peripheral register, in that order. -/
theorem periphUpdate_eq_ok {op : Byte → Byte → Alu} {src : PeriphSource} {pd : Byte} {s t : State} :
    periphUpdate op src pd s = .ok t ↔ ∃ x, readOperand src.source s = .ok x ∧
      t = { s with
            st := s.st.result (op x (Config.periphAnswer s.events s.draws pd)).carry
              (op x (Config.periphAnswer s.events s.draws pd)).value
            events := .periphWrite pd (op x (Config.periphAnswer s.events s.draws pd)).value ::
              .periphRead pd (Config.periphAnswer s.events s.draws pd) :: s.events
            draws := s.draws + 1 } := by
  simp only [periphUpdate, bind_eq_ok, periphRead_eq, periphWrite_eq, Prod.exists, Except.ok.injEq, Prod.mk.injEq]
  constructor
  · rintro ⟨x, h, p, u, ⟨rfl, rfl⟩, w, rfl, rfl⟩
    exact ⟨x, h, rfl⟩
  · rintro ⟨x, h, rfl⟩
    exact ⟨x, h, _, _, ⟨rfl, rfl⟩, _, rfl, rfl⟩

theorem testRegister_eq_ok {n : Byte} {s t : State} :
    testRegister n s = .ok t ↔ s.HasReg n ∧ t = { s with st := s.st.result false (s.reg n) } := by
  simp only [testRegister, bind_eq_ok, regRead_eq_ok, Except.ok.injEq]
  constructor
  · rintro ⟨v, ⟨h, rfl⟩, rfl⟩
    exact ⟨h, rfl⟩
  · rintro ⟨h, rfl⟩
    exact ⟨_, ⟨h, rfl⟩, rfl⟩

/-! ### Interrupts and reset -/

/-- The return from an interrupt: three stack bytes popped, pc and the four status bits from them. -/
theorem interruptReturn_eq_ok {s t : State} :
    interruptReturn s = .ok t ↔
      s.HasReg s.sp ∧ s.HasReg (s.sp - 1#8) ∧ s.HasReg (s.sp - 2#8) ∧
      t = { s with
            sp := s.sp - 3#8
            pc := wordOf (s.reg (s.sp - 1#8)) (s.reg s.sp)
            st := Status.ofByte (s.reg (s.sp - 2#8)) } := by
  have h3 : s.sp - 2#8 - 1#8 = s.sp - 3#8 := by rw [BitVec.sub_sub]; rfl
  simp only [interruptReturn, bind_eq_ok, Prod.exists, pop16_eq_ok, pop8_eq_ok, Except.ok.injEq]
  constructor
  · rintro ⟨w, u, ⟨h0, h1, rfl, rfl⟩, v, u', ⟨h2, rfl, rfl⟩, rfl⟩
    exact ⟨h0, h1, h2, by simp only [h3]; rfl⟩
  · rintro ⟨h0, h1, h2, rfl⟩
    exact ⟨_, _, ⟨h0, h1, rfl, rfl⟩, _, _, ⟨h2, rfl, rfl⟩, by simp only [h3]; rfl⟩

/-- Interrupt entry: three bytes pushed above the old stack pointer, the status cleared, the request consumed, pc
anywhere the vector says. -/
theorem interruptEntry_eq_ok {k : Nat} {s t : State} (h : interruptEntry k s = .ok t) :
    s.HasReg (s.sp + 1#8) ∧ s.HasReg (s.sp + 2#8) ∧ s.HasReg (s.sp + 3#8) ∧ ∃ low u entry,
      (s.cfg.stLow = some low ∨ (s.cfg.stLow = none ∧ low = Config.statusLow s.draws)) ∧
      u = { s with
            sp := s.sp + 3#8
            st := Status.all false
            mem := ((s.mem.write (s.sp + 1#8).toNat (s.st.toByte low)).write (s.sp + 2#8).toNat
                (hiByte (if s.idle then s.pc + 1#16 else s.pc))).write (s.sp + 3#8).toNat
                (loByte (if s.idle then s.pc + 1#16 else s.pc))
            idle := false
            draws := if s.cfg.stLow = none then s.draws + 1 else s.draws } ∧
      readVector k u = .ok (entry, { u with events := t.events, draws := t.draws }) ∧
      t = { u with
            pc := entry
            pending := s.pending.filter (· ≠ k)
            events := t.events
            draws := t.draws } := by
  have e2 : s.sp + 1#8 + 1#8 = s.sp + 2#8 := by rw [BitVec.add_assoc]; rfl
  have e3 : s.sp + 1#8 + 2#8 = s.sp + 3#8 := by rw [BitVec.add_assoc]; rfl
  rcases statusLow_cases s with ⟨low, hl, hs⟩ | ⟨hl, hs⟩ <;>
    simp only [interruptEntry, hs, bind_eq_ok, push8_eq_ok, push16_eq_ok, Prod.exists, Except.ok.injEq] at h <;>
    obtain ⟨s1, ⟨h1, rfl⟩, s2, ⟨h2, h3, rfl⟩, entry, s3, hv, rfl⟩ := h
  · simp only [State.setReg_sp, e2, e3] at h2 h3 hv
    have hsame := readVector_sameButEvents hv
    rw [hsame] at hv
    exact ⟨h1, h2, h3, low, _, entry, .inl hl, rfl, by simpa [State.setReg, hl] using hv, by
      rw [hsame]; simp [State.setReg]⟩
  · simp only [State.setReg_sp, e2, e3] at h2 h3 hv
    have hsame := readVector_sameButEvents hv
    rw [hsame] at hv
    exact ⟨h1, h2, h3, _, _, entry, .inr ⟨hl, rfl⟩, rfl, by simpa [State.setReg, hl] using hv, by
      rw [hsame]; simp [State.setReg]⟩

/-- The reset sequence: A and B take the old pc, `sp`, status, `idle` and the request are reset, pc is what vector 0
says. -/
theorem resetSequence_eq_ok {s t : State} (h : resetSequence s = .ok t) :
    ∃ u entry,
      u = { s with
            mem := (s.mem.write 0 (hiByte s.pc)).write 1 (loByte s.pc)
            sp := 0x01#8
            st := Status.all false
            idle := false
            resetReq := false } ∧
      readVector 0 u = .ok (entry, { u with events := t.events, draws := t.draws }) ∧
      t = { u with pc := entry, events := t.events, draws := t.draws } := by
  simp only [resetSequence, bind_eq_ok, regWrite_a, regWrite_b, Prod.exists, Except.ok.injEq] at h
  obtain ⟨s1, rfl, s2, rfl, entry, s3, hv, rfl⟩ := h
  have hsame := readVector_sameButEvents hv
  rw [hsame] at hv
  exact ⟨_, entry, rfl, by simpa [State.setReg] using hv, by rw [hsame]; simp [State.setReg]⟩

end Sys2Proof.Machine
end

