-- ==== Sys2Proof/Laws/PerInstr.lean ====
section
/-! SUPPORT. The family EncodedLength: every well-formed instruction has as many bytes as R106 gives its opcode
(spec/30_encoding.md R80, R106). -/

namespace Sys2Proof.Laws

/-- The first byte of the encoding alone decides how many bytes there are. -/
def EncodedLength.Statement (i : Instr) : Prop :=
  WellFormed i = true → (encode i).head?.bind instrLength = some (encode i).length

theorem EncodedLength.nop : EncodedLength.Statement .nop := fun _ => rfl

theorem EncodedLength.idle : EncodedLength.Statement .idle := fun _ => rfl

theorem EncodedLength.eint : EncodedLength.Statement .eint := fun _ => rfl

theorem EncodedLength.dint : EncodedLength.Statement .dint := fun _ => rfl

theorem EncodedLength.setc : EncodedLength.Statement .setc := fun _ => rfl

theorem EncodedLength.popSt : EncodedLength.Statement .popSt := fun _ => rfl

theorem EncodedLength.stsp : EncodedLength.Statement .stsp := fun _ => rfl

theorem EncodedLength.rets : EncodedLength.Statement .rets := fun _ => rfl

theorem EncodedLength.reti : EncodedLength.Statement .reti := fun _ => rfl

theorem EncodedLength.ldsp : EncodedLength.Statement .ldsp := fun _ => rfl

theorem EncodedLength.pushSt : EncodedLength.Statement .pushSt := fun _ => rfl

theorem EncodedLength.mov (f : MovForm) : EncodedLength.Statement (.mov f) := by
  intro _
  rcases f with f | _ | _ | _
  · cases f <;> rfl
  all_goals rfl

theorem EncodedLength.and (f : DualForm) : EncodedLength.Statement (.and f) := by
  intro _
  cases f <;> rfl

theorem EncodedLength.or (f : DualForm) : EncodedLength.Statement (.or f) := by
  intro _
  cases f <;> rfl

theorem EncodedLength.xor (f : DualForm) : EncodedLength.Statement (.xor f) := by
  intro _
  cases f <;> rfl

theorem EncodedLength.btjo (f : DualForm) (ofst : Byte) : EncodedLength.Statement (.btjo f ofst) := by
  intro _
  cases f <;> rfl

theorem EncodedLength.btjz (f : DualForm) (ofst : Byte) : EncodedLength.Statement (.btjz f ofst) := by
  intro _
  cases f <;> rfl

theorem EncodedLength.add (f : DualForm) : EncodedLength.Statement (.add f) := by
  intro _
  cases f <;> rfl

theorem EncodedLength.adc (f : DualForm) : EncodedLength.Statement (.adc f) := by
  intro _
  cases f <;> rfl

theorem EncodedLength.sub (f : DualForm) : EncodedLength.Statement (.sub f) := by
  intro _
  cases f <;> rfl

theorem EncodedLength.sbb (f : DualForm) : EncodedLength.Statement (.sbb f) := by
  intro _
  cases f <;> rfl

theorem EncodedLength.mpy (f : DualForm) : EncodedLength.Statement (.mpy f) := by
  intro _
  cases f <;> rfl

theorem EncodedLength.cmp (f : DualForm) : EncodedLength.Statement (.cmp f) := by
  intro _
  cases f <;> rfl

theorem EncodedLength.dac (f : DualForm) : EncodedLength.Statement (.dac f) := by
  intro _
  cases f <;> rfl

theorem EncodedLength.dsb (f : DualForm) : EncodedLength.Statement (.dsb f) := by
  intro _
  cases f <;> rfl

theorem EncodedLength.movp (f : MovpForm) : EncodedLength.Statement (.movp f) := by
  intro _
  rcases f with ⟨s, _⟩ | _ | _
  · cases s <;> rfl
  all_goals rfl

theorem EncodedLength.andp (src : PeriphSource) (pn : Byte) : EncodedLength.Statement (.andp src pn) := by
  intro _
  cases src <;> rfl

theorem EncodedLength.orp (src : PeriphSource) (pn : Byte) : EncodedLength.Statement (.orp src pn) := by
  intro _
  cases src <;> rfl

theorem EncodedLength.xorp (src : PeriphSource) (pn : Byte) : EncodedLength.Statement (.xorp src pn) := by
  intro _
  cases src <;> rfl

theorem EncodedLength.btjop (src : PeriphSource) (pn : Byte) (ofst : Byte) : EncodedLength.Statement (.btjop src pn ofst) := by
  intro _
  cases src <;> rfl

theorem EncodedLength.btjzp (src : PeriphSource) (pn : Byte) (ofst : Byte) : EncodedLength.Statement (.btjzp src pn ofst) := by
  intro _
  cases src <;> rfl

theorem EncodedLength.movd (f : MovdForm) : EncodedLength.Statement (.movd f) := by
  intro _
  cases f <;> rfl

theorem EncodedLength.lda (f : ExtForm) : EncodedLength.Statement (.lda f) := by
  intro _
  cases f <;> rfl

theorem EncodedLength.sta (f : ExtForm) : EncodedLength.Statement (.sta f) := by
  intro _
  cases f <;> rfl

theorem EncodedLength.br (f : ExtForm) : EncodedLength.Statement (.br f) := by
  intro _
  cases f <;> rfl

theorem EncodedLength.cmpa (f : ExtForm) : EncodedLength.Statement (.cmpa f) := by
  intro _
  cases f <;> rfl

theorem EncodedLength.call (f : ExtForm) : EncodedLength.Statement (.call f) := by
  intro _
  cases f <;> rfl

theorem EncodedLength.clrc : EncodedLength.Statement .clrc := fun _ => rfl

theorem EncodedLength.tsta : EncodedLength.Statement .tsta := fun _ => rfl

theorem EncodedLength.dec (d : Single) : EncodedLength.Statement (.dec d) := by
  intro _
  cases d <;> rfl

theorem EncodedLength.inc (d : Single) : EncodedLength.Statement (.inc d) := by
  intro _
  cases d <;> rfl

theorem EncodedLength.inv (d : Single) : EncodedLength.Statement (.inv d) := by
  intro _
  cases d <;> rfl

theorem EncodedLength.clr (d : Single) : EncodedLength.Statement (.clr d) := by
  intro _
  cases d <;> rfl

theorem EncodedLength.xchb (d : Single) : EncodedLength.Statement (.xchb d) := by
  intro h
  cases d
  · rfl
  · exact absurd h (by decide)
  · rfl

theorem EncodedLength.swap (d : Single) : EncodedLength.Statement (.swap d) := by
  intro _
  cases d <;> rfl

theorem EncodedLength.push (d : Single) : EncodedLength.Statement (.push d) := by
  intro _
  cases d <;> rfl

theorem EncodedLength.pop (d : Single) : EncodedLength.Statement (.pop d) := by
  intro _
  cases d <;> rfl

theorem EncodedLength.djnz (d : Single) (ofst : Byte) : EncodedLength.Statement (.djnz d ofst) := by
  intro _
  cases d <;> rfl

theorem EncodedLength.decd (d : Single) : EncodedLength.Statement (.decd d) := by
  intro _
  cases d <;> rfl

theorem EncodedLength.rr (d : Single) : EncodedLength.Statement (.rr d) := by
  intro _
  cases d <;> rfl

theorem EncodedLength.rrc (d : Single) : EncodedLength.Statement (.rrc d) := by
  intro _
  cases d <;> rfl

theorem EncodedLength.rl (d : Single) : EncodedLength.Statement (.rl d) := by
  intro _
  cases d <;> rfl

theorem EncodedLength.rlc (d : Single) : EncodedLength.Statement (.rlc d) := by
  intro _
  cases d <;> rfl

theorem EncodedLength.tstb : EncodedLength.Statement .tstb := fun _ => rfl

theorem EncodedLength.jmp (ofst : Byte) : EncodedLength.Statement (.jmp ofst) := fun _ => rfl

theorem EncodedLength.jeq (ofst : Byte) : EncodedLength.Statement (.jeq ofst) := fun _ => rfl

theorem EncodedLength.jz (ofst : Byte) : EncodedLength.Statement (.jz ofst) := fun _ => rfl

theorem EncodedLength.jc (ofst : Byte) : EncodedLength.Statement (.jc ofst) := fun _ => rfl

theorem EncodedLength.jhs (ofst : Byte) : EncodedLength.Statement (.jhs ofst) := fun _ => rfl

theorem EncodedLength.jgt (ofst : Byte) : EncodedLength.Statement (.jgt ofst) := fun _ => rfl

theorem EncodedLength.jp (ofst : Byte) : EncodedLength.Statement (.jp ofst) := fun _ => rfl

theorem EncodedLength.jge (ofst : Byte) : EncodedLength.Statement (.jge ofst) := fun _ => rfl

theorem EncodedLength.jpz (ofst : Byte) : EncodedLength.Statement (.jpz ofst) := fun _ => rfl

theorem EncodedLength.jne (ofst : Byte) : EncodedLength.Statement (.jne ofst) := fun _ => rfl

theorem EncodedLength.jnz (ofst : Byte) : EncodedLength.Statement (.jnz ofst) := fun _ => rfl

theorem EncodedLength.jl (ofst : Byte) : EncodedLength.Statement (.jl ofst) := fun _ => rfl

theorem EncodedLength.jnc (ofst : Byte) : EncodedLength.Statement (.jnc ofst) := fun _ => rfl

theorem EncodedLength.trap (n : Nat) : EncodedLength.Statement (.trap n) := by
  intro h
  have h : n < 24 := by simpa [WellFormed] using h
  interval_cases n <;> rfl

end Sys2Proof.Laws
end

