-- ==== Sys2Proof/Laws/Results.lean ====
section
/-! SUPPORT. The terms of Sys2Proof/Safety.lean and the operations of the machine say the same: an available operand is read as
its value, a pair as its 16 bits, and the flags of a result are those of `setNZ`. -/

namespace Sys2Proof.Machine

theorem Status.result_eq_flags (s : State) (c : Bool) (v : Byte) : s.st.result c v = s.flags c v := by
  simp only [Status.result, State.flags, BitVec.msb_eq_getLsbD_last, Status.mk.injEq, true_and, and_true]
  exact beq_eq_decide v 0#8

theorem Status.wideResult_eq_wideFlags (s : State) (c : Bool) (w : Addr) :
    s.st.wideResult c w = s.wideFlags c w := by
  simp only [Status.wideResult, State.wideFlags, BitVec.msb_eq_getLsbD_last, Status.mk.injEq, true_and, and_true]
  rw [beq_eq_decide]
  have h : w.extractLsb' 8 8 = 0#8 ↔ w.toNat < 256 := by
    rw [← BitVec.toNat_inj]
    have := w.isLt
    simp only [BitVec.extractLsb'_toNat, Nat.shiftRight_eq_div_pow, BitVec.toNat_ofNat]
    omega
  simp [h]

/-- Both registers of a pair exist where the named one does. -/
theorem State.HasPair.pred {s : State} {p : Byte} (h : s.HasPair p) : s.HasReg (p - 1#8) := by
  obtain ⟨h0, h1⟩ := h
  unfold State.HasReg at *
  have hn : p.toNat ≠ 0 := fun h => h0 (BitVec.eq_of_toNat_eq (by simpa using h))
  have := p.isLt
  have : (p - 1#8).toNat = p.toNat - 1 := by
    rw [BitVec.toNat_sub]
    simp only [BitVec.toNat_ofNat]
    omega
  omega

/-- A pair that exists is read. -/
theorem readPair_of_hasPair {s : State} {p : Byte} (h : s.HasPair p) : readPair p s = .ok (s.pair p) :=
  readPair_eq_ok.mpr ⟨h.1, h.pred, h.2, rfl⟩

/-- A pair that exists is written. -/
theorem writePair_of_hasPair {s : State} {p : Byte} (w : Addr) (h : s.HasPair p) :
    writePair p w s = .ok ((s.setReg (p - 1#8) (hiByte w)).setReg p (loByte w)) :=
  writePair_eq_ok.mpr ⟨h.1, h.pred, h.2, rfl⟩

/-- An available source operand is read as its value. -/
theorem readOperand_of_available {o : Operand} {s : State} (h : o.Available s) : readOperand o s = .ok (o.value s) := by
  cases o with
  | reg n => exact regRead_of_hasReg h
  | imm v => rfl

/-- The CPU-side operand of a peripheral-file instruction is always available. -/
theorem PeriphSource.readOperand_source (src : PeriphSource) (s : State) :
    readOperand src.source s = .ok (src.source.value s) := by
  cases src
  · exact regRead_of_hasReg s.hasReg_a
  · exact regRead_of_hasReg s.hasReg_b
  · rfl

/-- Available operands are read as their values, the source and the destination. -/
theorem readDual_of_available {f : DualForm} {s : State} (h : f.Available s) :
    readDual f s = .ok (f.source.value s, s.reg f.dest) :=
  readDual_eq_ok.mpr ⟨readOperand_of_available h.1, h.2, rfl⟩

/-- The effective address of an available form is the one of `ExtForm.address`. -/
theorem effectiveAddr_of_available {f : ExtForm} {s : State} (h : f.Available s) :
    effectiveAddr f s = .ok (f.address s) := by
  cases f with
  | direct label => rfl
  | indexed label => simp only [effectiveAddr, regRead_b, ok_bind]; rfl
  | indirect n => exact readPair_of_hasPair h

/-- The value an available form of `MOVD` moves is the one of `MovdForm.value`. -/
theorem movdSource_of_available {f : MovdForm} {s : State} (h : f.Available s) : movdSource f s = .ok (f.value s) := by
  cases f with
  | imm iop rp => rfl
  | immB iop rp => simp only [movdSource, regRead_b, ok_bind]; rfl
  | pair ps pd => exact readPair_of_hasPair h.1

/-- The destination pair of an available form of `MOVD` exists. -/
theorem MovdForm.hasPair_dest {f : MovdForm} {s : State} (h : f.Available s) : s.HasPair f.dest := by
  cases f with
  | imm iop rp => exact h
  | immB iop rp => exact h
  | pair ps pd => exact h.2

/-- Both bytes of a vector k ≤ 23 lie in the vector area (R56). -/
theorem vectorAddr_toNat {k : Nat} (h : k ≤ 23) : (vectorAddr k).toNat = 0xFFFE - 2 * k := by
  simp only [vectorAddr, BitVec.toNat_ofNat]
  omega

theorem vectorAddr_succ {k : Nat} (h : k ≤ 23) : vectorAddr k + 1#16 = BitVec.ofNat 16 (0xFFFF - 2 * k) := by
  apply BitVec.eq_of_toNat_eq
  simp only [BitVec.toNat_add, vectorAddr_toNat h, BitVec.toNat_ofNat]
  omega

end Sys2Proof.Machine
end

