-- ==== Sys2Proof/Laws/Stops.lean ====
section
/-! SUPPORT. Where each shared operation stops, and by which name: a missing register, an unimplemented address, a write to
ROM, a pair at register 0 (R261). -/

namespace Sys2Proof.Machine

@[simp] theorem finish_fault (f : Fault) : finish (.error (.fault f)) = .fault f := rfl

@[simp] theorem finish_refusal (r : Refusal) : finish (.error (.refusal r)) = .refused r := rfl

/-! ### Registers and pairs -/

theorem regRead_missing {n : Byte} {s : State} (h : ¬ s.HasReg n) :
    regRead n s = .error (.fault (.unimplementedRegister n)) := if_neg h

theorem regWrite_missing {n : Byte} (v : Byte) {s : State} (h : ¬ s.HasReg n) :
    regWrite n v s = .error (.fault (.unimplementedRegister n)) := if_neg h

theorem readPair_zero (s : State) : readPair 0#8 s = .error (.refusal .pairAtRegister0) := rfl

theorem writePair_zero (w : Addr) (s : State) : writePair 0#8 w s = .error (.refusal .pairAtRegister0) := rfl

/-- A pair is read high register first, and stops at the first of the two that is missing. -/
theorem readPair_missing {p n : Byte} {s : State} (hn : ¬ s.HasReg n) (hp : p ≠ 0#8)
    (h : p - 1#8 = n ∨ (s.HasReg (p - 1#8) ∧ p = n)) :
    readPair p s = .error (.fault (.unimplementedRegister n)) := by
  unfold readPair
  rw [if_neg hp]
  obtain rfl | ⟨h1, rfl⟩ := h
  · rw [regRead_missing hn]; rfl
  · rw [regRead_of_hasReg h1, ok_bind, regRead_missing hn]; rfl

/-- A pair is written high register first, and stops at the first of the two that is missing. -/
theorem writePair_missing {p n : Byte} (w : Addr) {s : State} (hn : ¬ s.HasReg n) (hp : p ≠ 0#8)
    (h : p - 1#8 = n ∨ (s.HasReg (p - 1#8) ∧ p = n)) :
    writePair p w s = .error (.fault (.unimplementedRegister n)) := by
  unfold writePair
  rw [if_neg hp]
  obtain rfl | ⟨h1, rfl⟩ := h
  · rw [regWrite_missing _ hn]; rfl
  · rw [regWrite_of_hasReg _ h1, ok_bind]; exact regWrite_missing _ hn

/-! ### The address space -/

theorem placeOf_register (cfg : Platform) (n : Byte) :
    placeOf cfg (n.setWidth 16) = if n.toNat < cfg.nreg.size then .register else .missingRegister := by
  have := n.isLt
  have h : (n.setWidth 16).toNat = n.toNat := by
    rw [BitVec.toNat_setWidth]
    omega
  unfold placeOf
  rw [h, if_pos (by omega)]

theorem loByte_setWidth (n : Byte) : loByte (n.setWidth 16) = n := by
  apply BitVec.eq_of_toNat_eq
  have := n.isLt
  simp only [loByte, BitVec.extractLsb'_toNat, BitVec.toNat_setWidth, Nat.shiftRight_zero]
  omega

theorem memRead_missing {n : Byte} {s : State} (h : ¬ s.HasReg n) :
    memRead (n.setWidth 16) s = .error (.fault (.unimplementedRegister n)) := by
  unfold memRead
  rw [placeOf_register, if_neg h, loByte_setWidth]

theorem memWrite_missing {n : Byte} (v : Byte) {s : State} (h : ¬ s.HasReg n) :
    memWrite (n.setWidth 16) v s = .error (.fault (.unimplementedRegister n)) := by
  unfold memWrite
  rw [placeOf_register, if_neg h, loByte_setWidth]

theorem memRead_unimplemented {a : Addr} {s : State} (h : placeOf s.cfg a = .unimplemented) :
    memRead a s = .error (.fault (.unimplementedAddress a)) := by
  unfold memRead
  rw [h]

theorem memWrite_unimplemented {a : Addr} (v : Byte) {s : State} (h : placeOf s.cfg a = .unimplemented) :
    memWrite a v s = .error (.fault (.unimplementedAddress a)) := by
  unfold memWrite
  rw [h]

theorem memWrite_rom {a : Addr} (v : Byte) {s : State} (h : placeOf s.cfg a = .rom) :
    memWrite a v s = .error (.fault (.writeToRom a)) := by
  unfold memWrite
  rw [h]

/-! ### The stack -/

theorem push8_missing {v : Byte} {s : State} (h : ¬ s.HasReg (s.sp + 1#8)) :
    push8 v s = .error (.fault (.unimplementedRegister (s.sp + 1#8))) := regWrite_missing v h

theorem push8_of_hasReg (v : Byte) {s : State} (h : s.HasReg (s.sp + 1#8)) :
    push8 v s = .ok ({ s with sp := s.sp + 1#8 }.setReg (s.sp + 1#8) v) := push8_eq_ok.mpr ⟨h, rfl⟩

theorem pop8_missing {s : State} (h : ¬ s.HasReg s.sp) : pop8 s = .error (.fault (.unimplementedRegister s.sp)) := by
  unfold pop8
  rw [regRead_missing h]
  rfl

theorem pop8_of_hasReg {s : State} (h : s.HasReg s.sp) : pop8 s = .ok (s.reg s.sp, { s with sp := s.sp - 1#8 }) :=
  pop8_eq_ok.mpr ⟨h, rfl, rfl⟩

/-- The push of 16 bits stops at the first of its two bytes that is missing. -/
theorem push16_missing {w : Addr} {n : Byte} {s : State} (hn : ¬ s.HasReg n)
    (h : s.sp + 1#8 = n ∨ (s.HasReg (s.sp + 1#8) ∧ s.sp + 2#8 = n)) :
    push16 w s = .error (.fault (.unimplementedRegister n)) := by
  unfold push16
  obtain rfl | ⟨h1, rfl⟩ := h
  · rw [push8_missing hn]; rfl
  · have e : s.sp + 1#8 + 1#8 = s.sp + 2#8 := by rw [BitVec.add_assoc]; rfl
    rw [push8_of_hasReg _ h1, ok_bind, ← e]
    exact push8_missing (by rw [← e] at hn; exact hn)

/-- The pop of 16 bits stops at the first of its two bytes that is missing. -/
theorem pop16_missing {n : Byte} {s : State} (hn : ¬ s.HasReg n)
    (h : s.sp = n ∨ (s.HasReg s.sp ∧ s.sp - 1#8 = n)) : pop16 s = .error (.fault (.unimplementedRegister n)) := by
  unfold pop16
  obtain rfl | ⟨h1, rfl⟩ := h
  · rw [pop8_missing hn]; rfl
  · rw [pop8_of_hasReg h1, ok_bind]
    simp only
    rw [pop8_missing hn]; rfl

/-! ### Vectors -/

theorem memRead_cfg {a : Addr} {s t : State} {v : Byte} (h : memRead a s = .ok (v, t)) : t.cfg = s.cfg := by
  rcases memRead_eq_ok h with ⟨-, -, rfl⟩ | ⟨-, -, rfl⟩ | ⟨-, -, rfl⟩ <;> rfl

/-- Above the two files only an unimplemented address stops a read. -/
theorem memRead_implemented {a : Addr} {s : State} (h1 : 0x200 ≤ a.toNat) (h2 : placeOf s.cfg a ≠ .unimplemented) :
    ∃ v t, memRead a s = .ok (v, t) := by
  unfold memRead
  have h3 : placeOf s.cfg a ≠ .missingRegister := by
    unfold placeOf
    rw [if_neg (by omega), if_neg (by omega)]
    split <;> simp
  split
  all_goals first | exact ⟨_, _, rfl⟩ | contradiction

/-- A vector is read high byte first, and stops at the first of its two bytes that is unimplemented. -/
theorem readVector_unimplemented {k : Nat} {a : Addr} {s : State} (hk : k ≤ 23) (ha : placeOf s.cfg a = .unimplemented)
    (h : a = vectorAddr k ∨ (placeOf s.cfg (vectorAddr k) ≠ .unimplemented ∧ a = vectorAddr k + 1#16)) :
    readVector k s = .error (.fault (.unimplementedAddress a)) := by
  unfold readVector
  obtain rfl | ⟨h1, rfl⟩ := h
  · rw [memRead_unimplemented ha]; rfl
  · obtain ⟨v, t, ht⟩ := memRead_implemented (by rw [vectorAddr_toNat hk]; omega) h1
    rw [ht, ok_bind]
    simp only
    rw [memRead_unimplemented (by rw [memRead_cfg ht]; exact ha)]; rfl

/-! ### Fetching -/

/-- Fetching j bytes moves pc by j, answers j bytes and keeps the platform. -/
theorem fetchBytes_eq_ok {j : Nat} {s t : State} {bs : List Byte} (h : fetchBytes j s = .ok (bs, t)) :
    t.pc = s.pc + BitVec.ofNat 16 j ∧ bs.length = j ∧ t.cfg = s.cfg := by
  induction j generalizing s bs with
  | zero =>
    simp only [fetchBytes, Except.ok.injEq, Prod.mk.injEq] at h
    obtain ⟨rfl, rfl⟩ := h
    simp
  | succ j ih =>
    simp only [fetchBytes, fetch8, bind_eq_ok, Prod.exists, Except.ok.injEq, Prod.mk.injEq] at h
    obtain ⟨v, u, ⟨_, u', hm, rfl, rfl⟩, vs, w, hf, rfl, rfl⟩ := h
    obtain ⟨h1, h2, h3⟩ := ih hf
    have hs : s.SameButEvents u' := memRead_sameButEvents hm
    have hpc : u'.pc = s.pc := by
      unfold State.SameButEvents at hs
      rw [hs]
    refine ⟨?_, by simp [h2], h3.trans (memRead_cfg hm :)⟩
    rw [h1, hpc, BitVec.add_assoc]
    congr 1
    apply BitVec.eq_of_toNat_eq
    simp only [BitVec.toNat_add, BitVec.toNat_ofNat]
    omega

/-- Where the byte after j fetched bytes cannot be read, a longer fetch stops there. -/
theorem fetchBytes_stop {j n : Nat} {e : Stop} {s t : State} {bs : List Byte} (h : fetchBytes j s = .ok (bs, t))
    (hj : j < n) (he : memRead t.pc t = .error e) : fetchBytes n s = .error e := by
  obtain ⟨n, rfl⟩ : ∃ m, n = m + 1 := ⟨n - 1, by omega⟩
  induction j generalizing s bs n with
  | zero =>
    simp only [fetchBytes, Except.ok.injEq, Prod.mk.injEq] at h
    obtain ⟨rfl, rfl⟩ := h
    simp only [fetchBytes, fetch8, he, error_bind]
  | succ j ih =>
    simp only [fetchBytes, bind_eq_ok, Prod.exists, Except.ok.injEq, Prod.mk.injEq] at h
    obtain ⟨v, u, h8, vs, w, hf, rfl, rfl⟩ := h
    obtain ⟨m, rfl⟩ : ∃ m, n = m + 1 := ⟨n - 1, by omega⟩
    rw [fetchBytes, h8, ok_bind]
    simp only [ih hf m (by omega), error_bind]

end Sys2Proof.Machine
end

