-- ==== Sys2Proof/Machine/Timing.lean ====
section
/-! DEFINITION. The CYCLES column (spec/70_reset_and_hazards.md R310): information only. No rule reads it, no state counts
cycles, and `step` does not use it. -/

namespace Sys2Proof

/-- Cycles of a dual-operand form over those of `B,A` (R310, the regularities under its table). -/
def DualForm.extraCycles : DualForm → Nat
  | .ba => 0
  | .ra _ => 3
  | .rb _ => 3
  | .rr _ _ => 5
  | .ia _ => 2
  | .ib _ => 2
  | .ir _ _ => 4

/-- Cycles of a single-operand form over those of the A and B forms. -/
def Single.extraCycles : Single → Nat
  | .a => 0
  | .b => 0
  | .r _ => 2

/-- Cycles of a peripheral form over those of the form with source B. -/
def PeriphSource.extraCycles : PeriphSource → Nat
  | .a => 1
  | .b => 0
  | .imm _ => 2

/-- Cycles of an extended form over those of the indirect form. -/
def ExtForm.extraCycles : ExtForm → Nat
  | .direct _ => 1
  | .indexed _ => 3
  | .indirect _ => 0

/-- The cycle count of an instruction whose jump, if it has one, is not taken (R310). -/
def Instr.cycles : Instr → Nat
  | .nop | .eint | .dint | .setc | .ldsp => 5
  | .idle | .popSt | .stsp | .pushSt | .clrc | .tsta | .tstb => 6
  | .rets => 7
  | .reti => 9
  | .mov (.dual f) => 5 + f.extraCycles
  | .mov .ab => 6
  | .mov (.ar _) => 8
  | .mov (.br _) => 7
  | .and f | .or f | .xor f | .add f | .adc f | .sub f | .sbb f | .cmp f => 5 + f.extraCycles
  | .btjo f _ | .btjz f _ | .dac f | .dsb f => 7 + f.extraCycles
  | .mpy f => 44 + f.extraCycles
  | .movp (.toPeriph src _) => 9 + src.extraCycles
  | .movp (.toA _) => 9
  | .movp (.toB _) => 8
  | .andp src _ | .orp src _ | .xorp src _ => 9 + src.extraCycles
  | .btjop src _ _ | .btjzp src _ _ => 10 + src.extraCycles
  | .movd (.imm _ _) => 15
  | .movd (.immB _ _) => 17
  | .movd (.pair _ _) => 14
  | .lda f | .sta f => 10 + f.extraCycles
  | .br f => 9 + f.extraCycles
  | .cmpa f => 11 + f.extraCycles
  | .call f => 13 + f.extraCycles
  | .dec d | .inc d | .inv d | .clr d | .rr d | .rrc d | .rl d | .rlc d => 5 + d.extraCycles
  | .xchb d | .push d | .pop d => 6 + d.extraCycles
  | .swap d => 8 + d.extraCycles
  | .djnz d _ => 7 + d.extraCycles
  | .decd d => 9 + d.extraCycles
  | .jmp _ => 7
  | .jeq _ | .jz _ | .jc _ | .jhs _ | .jgt _ | .jp _ | .jge _ | .jpz _ | .jne _ | .jnz _ | .jl _ | .jnc _ => 5
  | .trap _ => 14

/-- Whether the row carries the mark (1), "Add two to cycle count if branch is taken" (R8, R310). -/
def Instr.addsTwoIfTaken : Instr → Bool
  | .btjo _ _ | .btjz _ _ | .btjop _ _ _ | .btjzp _ _ _ | .djnz _ _ => true
  | .jeq _ | .jz _ | .jc _ | .jhs _ | .jgt _ | .jp _ | .jge _ | .jpz _ | .jne _ | .jnz _ | .jl _ | .jnc _ => true
  | .nop | .idle | .eint | .dint | .setc | .popSt | .stsp | .rets | .reti | .ldsp | .pushSt => false
  | .mov _ | .and _ | .or _ | .xor _ | .add _ | .adc _ | .sub _ | .sbb _ | .mpy _ | .cmp _ | .dac _ | .dsb _ => false
  | .movp _ | .andp _ _ | .orp _ _ | .xorp _ _ | .movd _ | .lda _ | .sta _ | .br _ | .cmpa _ | .call _ => false
  | .clrc | .tsta | .tstb | .dec _ | .inc _ | .inv _ | .clr _ | .xchb _ | .swap _ | .push _ | .pop _ => false
  | .decd _ | .rr _ | .rrc _ | .rl _ | .rlc _ | .jmp _ | .trap _ => false

/-- The cycle count, with the two more of a taken jump. -/
def Instr.cyclesWhen (i : Instr) (taken : Bool) : Nat :=
  if taken && i.addsTwoIfTaken then i.cycles + 2 else i.cycles

end Sys2Proof
end

