-- ==== Sys2Proof/Tests/Slice0.lean ====
section
/-! SUPPORT. Tests. The words of the decode tests are written out from spec/opcode_table.json and the operand order of R82;
the expected results of the step tests are those of spec/95_test_vectors.md, section 2. The witnesses show, for every
statement of Sys2Proof/Certificates/Slice0/Obligations.lean that has hypotheses, a state and operands that meet all of
them together. -/

namespace Sys2Proof.Tests

open Sys2Proof Sys2Proof.Machine

/-! ### WellFormed -/

theorem test_trap_24_is_ill_formed : WellFormed (.trap 24) = false := by decide

theorem test_trap_23_is_well_formed : WellFormed (.trap 23) = true := by decide

theorem test_xchb_b_is_ill_formed : WellFormed (.xchb .b) = false := by decide

theorem test_xchb_r1_is_well_formed : WellFormed (.xchb (.r 1#8)) = true := by decide

/-! ### Decoding and encoding: every row of the table -/

/-- The bytes decode to exactly the instruction, whose encoding they are. -/
def isWord (r : List Byte × Instr) : Bool :=
  (match decode r.1 with
    | .ok (i, []) => i == r.2
    | _ => false) && encode r.2 == r.1 && WellFormed r.2

theorem test_decode_row_0 :
    ([
    ([0x00#8], .nop), ([0x01#8], .idle), ([0x05#8], .eint), ([0x06#8], .dint), ([0x07#8], .setc),
    ([0x08#8], .popSt), ([0x09#8], .stsp), ([0x0A#8], .rets), ([0x0B#8], .reti), ([0x0D#8], .ldsp),
    ([0x0E#8], .pushSt)] : List (List Byte × Instr)).all isWord =
      true := by
  decide

theorem test_decode_row_1 :
    ([
    ([0x12#8, 0x21#8], .mov (.dual (.ra 0x21#8))), ([0x13#8, 0x21#8], .and (.ra 0x21#8)),
    ([0x14#8, 0x21#8], .or (.ra 0x21#8)), ([0x15#8, 0x21#8], .xor (.ra 0x21#8)),
    ([0x16#8, 0x21#8, 0x43#8], .btjo (.ra 0x21#8) 0x43#8), ([0x17#8, 0x21#8, 0x43#8], .btjz (.ra 0x21#8) 0x43#8),
    ([0x18#8, 0x21#8], .add (.ra 0x21#8)), ([0x19#8, 0x21#8], .adc (.ra 0x21#8)),
    ([0x1A#8, 0x21#8], .sub (.ra 0x21#8)), ([0x1B#8, 0x21#8], .sbb (.ra 0x21#8)),
    ([0x1C#8, 0x21#8], .mpy (.ra 0x21#8)), ([0x1D#8, 0x21#8], .cmp (.ra 0x21#8)),
    ([0x1E#8, 0x21#8], .dac (.ra 0x21#8)), ([0x1F#8, 0x21#8], .dsb (.ra 0x21#8))] : List (List Byte × Instr)).all isWord =
      true := by
  decide

theorem test_decode_row_2 :
    ([
    ([0x22#8, 0x21#8], .mov (.dual (.ia 0x21#8))), ([0x23#8, 0x21#8], .and (.ia 0x21#8)),
    ([0x24#8, 0x21#8], .or (.ia 0x21#8)), ([0x25#8, 0x21#8], .xor (.ia 0x21#8)),
    ([0x26#8, 0x21#8, 0x43#8], .btjo (.ia 0x21#8) 0x43#8), ([0x27#8, 0x21#8, 0x43#8], .btjz (.ia 0x21#8) 0x43#8),
    ([0x28#8, 0x21#8], .add (.ia 0x21#8)), ([0x29#8, 0x21#8], .adc (.ia 0x21#8)),
    ([0x2A#8, 0x21#8], .sub (.ia 0x21#8)), ([0x2B#8, 0x21#8], .sbb (.ia 0x21#8)),
    ([0x2C#8, 0x21#8], .mpy (.ia 0x21#8)), ([0x2D#8, 0x21#8], .cmp (.ia 0x21#8)),
    ([0x2E#8, 0x21#8], .dac (.ia 0x21#8)), ([0x2F#8, 0x21#8], .dsb (.ia 0x21#8))] : List (List Byte × Instr)).all isWord =
      true := by
  decide

theorem test_decode_row_3 :
    ([
    ([0x32#8, 0x21#8], .mov (.dual (.rb 0x21#8))), ([0x33#8, 0x21#8], .and (.rb 0x21#8)),
    ([0x34#8, 0x21#8], .or (.rb 0x21#8)), ([0x35#8, 0x21#8], .xor (.rb 0x21#8)),
    ([0x36#8, 0x21#8, 0x43#8], .btjo (.rb 0x21#8) 0x43#8), ([0x37#8, 0x21#8, 0x43#8], .btjz (.rb 0x21#8) 0x43#8),
    ([0x38#8, 0x21#8], .add (.rb 0x21#8)), ([0x39#8, 0x21#8], .adc (.rb 0x21#8)),
    ([0x3A#8, 0x21#8], .sub (.rb 0x21#8)), ([0x3B#8, 0x21#8], .sbb (.rb 0x21#8)),
    ([0x3C#8, 0x21#8], .mpy (.rb 0x21#8)), ([0x3D#8, 0x21#8], .cmp (.rb 0x21#8)),
    ([0x3E#8, 0x21#8], .dac (.rb 0x21#8)), ([0x3F#8, 0x21#8], .dsb (.rb 0x21#8))] : List (List Byte × Instr)).all isWord =
      true := by
  decide

theorem test_decode_row_4 :
    ([
    ([0x42#8, 0x21#8, 0x43#8], .mov (.dual (.rr 0x21#8 0x43#8))),
    ([0x43#8, 0x21#8, 0x43#8], .and (.rr 0x21#8 0x43#8)), ([0x44#8, 0x21#8, 0x43#8], .or (.rr 0x21#8 0x43#8)),
    ([0x45#8, 0x21#8, 0x43#8], .xor (.rr 0x21#8 0x43#8)),
    ([0x46#8, 0x21#8, 0x43#8, 0x65#8], .btjo (.rr 0x21#8 0x43#8) 0x65#8),
    ([0x47#8, 0x21#8, 0x43#8, 0x65#8], .btjz (.rr 0x21#8 0x43#8) 0x65#8),
    ([0x48#8, 0x21#8, 0x43#8], .add (.rr 0x21#8 0x43#8)), ([0x49#8, 0x21#8, 0x43#8], .adc (.rr 0x21#8 0x43#8)),
    ([0x4A#8, 0x21#8, 0x43#8], .sub (.rr 0x21#8 0x43#8)), ([0x4B#8, 0x21#8, 0x43#8], .sbb (.rr 0x21#8 0x43#8)),
    ([0x4C#8, 0x21#8, 0x43#8], .mpy (.rr 0x21#8 0x43#8)), ([0x4D#8, 0x21#8, 0x43#8], .cmp (.rr 0x21#8 0x43#8)),
    ([0x4E#8, 0x21#8, 0x43#8], .dac (.rr 0x21#8 0x43#8)), ([0x4F#8, 0x21#8, 0x43#8], .dsb (.rr 0x21#8 0x43#8))] : List (List Byte × Instr)).all isWord =
      true := by
  decide

theorem test_decode_row_5 :
    ([
    ([0x52#8, 0x21#8], .mov (.dual (.ib 0x21#8))), ([0x53#8, 0x21#8], .and (.ib 0x21#8)),
    ([0x54#8, 0x21#8], .or (.ib 0x21#8)), ([0x55#8, 0x21#8], .xor (.ib 0x21#8)),
    ([0x56#8, 0x21#8, 0x43#8], .btjo (.ib 0x21#8) 0x43#8), ([0x57#8, 0x21#8, 0x43#8], .btjz (.ib 0x21#8) 0x43#8),
    ([0x58#8, 0x21#8], .add (.ib 0x21#8)), ([0x59#8, 0x21#8], .adc (.ib 0x21#8)),
    ([0x5A#8, 0x21#8], .sub (.ib 0x21#8)), ([0x5B#8, 0x21#8], .sbb (.ib 0x21#8)),
    ([0x5C#8, 0x21#8], .mpy (.ib 0x21#8)), ([0x5D#8, 0x21#8], .cmp (.ib 0x21#8)),
    ([0x5E#8, 0x21#8], .dac (.ib 0x21#8)), ([0x5F#8, 0x21#8], .dsb (.ib 0x21#8))] : List (List Byte × Instr)).all isWord =
      true := by
  decide

theorem test_decode_row_6 :
    ([
    ([0x62#8], .mov (.dual .ba)), ([0x63#8], .and .ba), ([0x64#8], .or .ba), ([0x65#8], .xor .ba),
    ([0x66#8, 0x21#8], .btjo .ba 0x21#8), ([0x67#8, 0x21#8], .btjz .ba 0x21#8), ([0x68#8], .add .ba),
    ([0x69#8], .adc .ba), ([0x6A#8], .sub .ba), ([0x6B#8], .sbb .ba), ([0x6C#8], .mpy .ba), ([0x6D#8], .cmp .ba),
    ([0x6E#8], .dac .ba), ([0x6F#8], .dsb .ba)] : List (List Byte × Instr)).all isWord =
      true := by
  decide

theorem test_decode_row_7 :
    ([
    ([0x72#8, 0x21#8, 0x43#8], .mov (.dual (.ir 0x21#8 0x43#8))),
    ([0x73#8, 0x21#8, 0x43#8], .and (.ir 0x21#8 0x43#8)), ([0x74#8, 0x21#8, 0x43#8], .or (.ir 0x21#8 0x43#8)),
    ([0x75#8, 0x21#8, 0x43#8], .xor (.ir 0x21#8 0x43#8)),
    ([0x76#8, 0x21#8, 0x43#8, 0x65#8], .btjo (.ir 0x21#8 0x43#8) 0x65#8),
    ([0x77#8, 0x21#8, 0x43#8, 0x65#8], .btjz (.ir 0x21#8 0x43#8) 0x65#8),
    ([0x78#8, 0x21#8, 0x43#8], .add (.ir 0x21#8 0x43#8)), ([0x79#8, 0x21#8, 0x43#8], .adc (.ir 0x21#8 0x43#8)),
    ([0x7A#8, 0x21#8, 0x43#8], .sub (.ir 0x21#8 0x43#8)), ([0x7B#8, 0x21#8, 0x43#8], .sbb (.ir 0x21#8 0x43#8)),
    ([0x7C#8, 0x21#8, 0x43#8], .mpy (.ir 0x21#8 0x43#8)), ([0x7D#8, 0x21#8, 0x43#8], .cmp (.ir 0x21#8 0x43#8)),
    ([0x7E#8, 0x21#8, 0x43#8], .dac (.ir 0x21#8 0x43#8)), ([0x7F#8, 0x21#8, 0x43#8], .dsb (.ir 0x21#8 0x43#8))] : List (List Byte × Instr)).all isWord =
      true := by
  decide

theorem test_decode_row_8 :
    ([
    ([0x80#8, 0x21#8], .movp (.toA 0x21#8)), ([0x82#8, 0x21#8], .movp (.toPeriph .a 0x21#8)),
    ([0x83#8, 0x21#8], .andp .a 0x21#8), ([0x84#8, 0x21#8], .orp .a 0x21#8), ([0x85#8, 0x21#8], .xorp .a 0x21#8),
    ([0x86#8, 0x21#8, 0x43#8], .btjop .a 0x21#8 0x43#8), ([0x87#8, 0x21#8, 0x43#8], .btjzp .a 0x21#8 0x43#8),
    ([0x88#8, 0x21#8, 0x43#8, 0x65#8], .movd (.imm 0x2143#16 0x65#8)),
    ([0x8A#8, 0x21#8, 0x43#8], .lda (.direct 0x2143#16)), ([0x8B#8, 0x21#8, 0x43#8], .sta (.direct 0x2143#16)),
    ([0x8C#8, 0x21#8, 0x43#8], .br (.direct 0x2143#16)), ([0x8D#8, 0x21#8, 0x43#8], .cmpa (.direct 0x2143#16)),
    ([0x8E#8, 0x21#8, 0x43#8], .call (.direct 0x2143#16))] : List (List Byte × Instr)).all isWord =
      true := by
  decide

theorem test_decode_row_9 :
    ([
    ([0x91#8, 0x21#8], .movp (.toB 0x21#8)), ([0x92#8, 0x21#8], .movp (.toPeriph .b 0x21#8)),
    ([0x93#8, 0x21#8], .andp .b 0x21#8), ([0x94#8, 0x21#8], .orp .b 0x21#8), ([0x95#8, 0x21#8], .xorp .b 0x21#8),
    ([0x96#8, 0x21#8, 0x43#8], .btjop .b 0x21#8 0x43#8), ([0x97#8, 0x21#8, 0x43#8], .btjzp .b 0x21#8 0x43#8),
    ([0x98#8, 0x21#8, 0x43#8], .movd (.pair 0x21#8 0x43#8)), ([0x9A#8, 0x21#8], .lda (.indirect 0x21#8)),
    ([0x9B#8, 0x21#8], .sta (.indirect 0x21#8)), ([0x9C#8, 0x21#8], .br (.indirect 0x21#8)),
    ([0x9D#8, 0x21#8], .cmpa (.indirect 0x21#8)), ([0x9E#8, 0x21#8], .call (.indirect 0x21#8))] : List (List Byte × Instr)).all isWord =
      true := by
  decide

theorem test_decode_row_A :
    ([
    ([0xA2#8, 0x21#8, 0x43#8], .movp (.toPeriph (.imm 0x21#8) 0x43#8)),
    ([0xA3#8, 0x21#8, 0x43#8], .andp (.imm 0x21#8) 0x43#8), ([0xA4#8, 0x21#8, 0x43#8], .orp (.imm 0x21#8) 0x43#8),
    ([0xA5#8, 0x21#8, 0x43#8], .xorp (.imm 0x21#8) 0x43#8),
    ([0xA6#8, 0x21#8, 0x43#8, 0x65#8], .btjop (.imm 0x21#8) 0x43#8 0x65#8),
    ([0xA7#8, 0x21#8, 0x43#8, 0x65#8], .btjzp (.imm 0x21#8) 0x43#8 0x65#8),
    ([0xA8#8, 0x21#8, 0x43#8, 0x65#8], .movd (.immB 0x2143#16 0x65#8)),
    ([0xAA#8, 0x21#8, 0x43#8], .lda (.indexed 0x2143#16)), ([0xAB#8, 0x21#8, 0x43#8], .sta (.indexed 0x2143#16)),
    ([0xAC#8, 0x21#8, 0x43#8], .br (.indexed 0x2143#16)), ([0xAD#8, 0x21#8, 0x43#8], .cmpa (.indexed 0x2143#16)),
    ([0xAE#8, 0x21#8, 0x43#8], .call (.indexed 0x2143#16))] : List (List Byte × Instr)).all isWord =
      true := by
  decide

theorem test_decode_row_B :
    ([
    ([0xB0#8], .clrc), ([0xB2#8], .dec .a), ([0xB3#8], .inc .a), ([0xB4#8], .inv .a), ([0xB5#8], .clr .a),
    ([0xB6#8], .xchb .a), ([0xB7#8], .swap .a), ([0xB8#8], .push .a), ([0xB9#8], .pop .a),
    ([0xBA#8, 0x21#8], .djnz .a 0x21#8), ([0xBB#8], .decd .a), ([0xBC#8], .rr .a), ([0xBD#8], .rrc .a),
    ([0xBE#8], .rl .a), ([0xBF#8], .rlc .a)] : List (List Byte × Instr)).all isWord =
      true := by
  decide

theorem test_decode_row_C :
    ([
    ([0xC0#8], .mov .ab), ([0xC1#8], .tstb), ([0xC2#8], .dec .b), ([0xC3#8], .inc .b), ([0xC4#8], .inv .b),
    ([0xC5#8], .clr .b), ([0xC7#8], .swap .b), ([0xC8#8], .push .b), ([0xC9#8], .pop .b),
    ([0xCA#8, 0x21#8], .djnz .b 0x21#8), ([0xCB#8], .decd .b), ([0xCC#8], .rr .b), ([0xCD#8], .rrc .b),
    ([0xCE#8], .rl .b), ([0xCF#8], .rlc .b)] : List (List Byte × Instr)).all isWord =
      true := by
  decide

theorem test_decode_row_D :
    ([
    ([0xD0#8, 0x21#8], .mov (.ar 0x21#8)), ([0xD1#8, 0x21#8], .mov (.br 0x21#8)),
    ([0xD2#8, 0x21#8], .dec (.r 0x21#8)), ([0xD3#8, 0x21#8], .inc (.r 0x21#8)),
    ([0xD4#8, 0x21#8], .inv (.r 0x21#8)), ([0xD5#8, 0x21#8], .clr (.r 0x21#8)),
    ([0xD6#8, 0x21#8], .xchb (.r 0x21#8)), ([0xD7#8, 0x21#8], .swap (.r 0x21#8)),
    ([0xD8#8, 0x21#8], .push (.r 0x21#8)), ([0xD9#8, 0x21#8], .pop (.r 0x21#8)),
    ([0xDA#8, 0x21#8, 0x43#8], .djnz (.r 0x21#8) 0x43#8), ([0xDB#8, 0x21#8], .decd (.r 0x21#8)),
    ([0xDC#8, 0x21#8], .rr (.r 0x21#8)), ([0xDD#8, 0x21#8], .rrc (.r 0x21#8)), ([0xDE#8, 0x21#8], .rl (.r 0x21#8)),
    ([0xDF#8, 0x21#8], .rlc (.r 0x21#8))] : List (List Byte × Instr)).all isWord =
      true := by
  decide

theorem test_decode_row_E :
    ([
    ([0xE0#8, 0x21#8], .jmp 0x21#8), ([0xE2#8, 0x21#8], .jz 0x21#8), ([0xE3#8, 0x21#8], .jc 0x21#8),
    ([0xE4#8, 0x21#8], .jp 0x21#8), ([0xE5#8, 0x21#8], .jpz 0x21#8), ([0xE6#8, 0x21#8], .jnz 0x21#8),
    ([0xE7#8, 0x21#8], .jnc 0x21#8), ([0xE8#8], .trap 23), ([0xE9#8], .trap 22), ([0xEA#8], .trap 21),
    ([0xEB#8], .trap 20), ([0xEC#8], .trap 19), ([0xED#8], .trap 18), ([0xEE#8], .trap 17), ([0xEF#8], .trap 16)] : List (List Byte × Instr)).all isWord =
      true := by
  decide

theorem test_decode_row_F :
    ([
    ([0xF0#8], .trap 15), ([0xF1#8], .trap 14), ([0xF2#8], .trap 13), ([0xF3#8], .trap 12), ([0xF4#8], .trap 11),
    ([0xF5#8], .trap 10), ([0xF6#8], .trap 9), ([0xF7#8], .trap 8), ([0xF8#8], .trap 7), ([0xF9#8], .trap 6),
    ([0xFA#8], .trap 5), ([0xFB#8], .trap 4), ([0xFC#8], .trap 3), ([0xFD#8], .trap 2), ([0xFE#8], .trap 1),
    ([0xFF#8], .trap 0)] : List (List Byte × Instr)).all isWord =
      true := by
  decide

/-- The second spelling of a shared opcode encodes to the word of the first (R109). -/
theorem test_encode_second_spellings :
    ([.tsta, .jeq 5#8, .jhs 5#8, .jgt 5#8, .jge 5#8, .jne 5#8, .jl 5#8] : List Instr).all
      (fun i => encode i == encode i.canonical && i != i.canonical) = true := by
  decide

theorem test_unassigned_opcodes_are_rejected :
    unassignedOpcodes.all (fun op => match decode [BitVec.ofNat 8 op, 0#8, 0#8, 0#8] with
      | .error (.unassigned o) => o.toNat == op
      | _ => false) = true := by
  decide

theorem test_truncated_instruction_is_rejected :
    (match decode [0x48#8, 0x05#8] with
      | .error .truncated => true
      | _ => false) = true := by
  decide

/-- spec/opcode_table.json numbers the second byte 15..8: `LDA @>2010` is 8A 20 10. -/
theorem test_table_word_order : decodeTableWord 24 0x10208A = some (.lda (.direct 0x2010#16)) := by decide

/-- Rows of R310. -/
theorem test_cycles :
    (Instr.add .ba).cycles = 5 ∧ (Instr.mpy (.rr 0#8 0#8)).cycles = 49 ∧ (Instr.djnz .a 0#8).cyclesWhen true = 9 := by
  decide

/-! ### Steps -/

/-- A state at pc = 0xF000 with the bytes of an instruction there, the given cells, status bits and stack pointer. -/
def start (code : List Byte) (cells : List (Nat × Byte)) (st : Status := ⟨false, false, false, false⟩)
    (sp : Byte := 1#8) : State :=
  { State.reset with
    pc := 0xF000#16
    sp := sp
    st := st
    mem := storeBytes code 0xF000#16 (cells.foldr (fun c m => m.write c.1 c.2) [])
    cfg := { State.resetPlatform with stLow := some 0#4 } }

/-- One step answers a next state with the given cells, status bits, pc and stack pointer. -/
def stepsTo (s : State) (cells : List (Nat × Byte)) (st : Status) (pc : Addr) (sp : Byte := s.sp) : Bool :=
  match step s with
  | .next t => cells.all (fun c => t.mem.read c.1 == c.2) && t.st == st && t.pc == pc && t.sp == sp
  | _ => false

theorem test_add_1 :
    stepsTo (start [0x68#8] [(0x0, 0x7F#8), (0x1, 0x01#8)])
      [(0x0, 0x80#8), (0x1, 0x01#8)] ⟨false, true, false, false⟩ 0xF001#16 = true := by
  decide

theorem test_add_2 :
    stepsTo (start [0x68#8] [(0x0, 0xFF#8), (0x1, 0x01#8)])
      [(0x0, 0x00#8)] ⟨true, false, true, false⟩ 0xF001#16 = true := by
  decide

theorem test_adc_1 :
    stepsTo (start [0x69#8] [(0x0, 0xFF#8), (0x1, 0x00#8)] ⟨true, false, false, false⟩)
      [(0x0, 0x00#8)] ⟨true, false, true, false⟩ 0xF001#16 = true := by
  decide

theorem test_adc_2 :
    stepsTo (start [0x69#8] [(0x0, 0xFF#8), (0x1, 0xFF#8)] ⟨true, false, false, false⟩)
      [(0x0, 0xFF#8)] ⟨true, true, false, false⟩ 0xF001#16 = true := by
  decide

theorem test_sub_1 :
    stepsTo (start [0x6A#8] [(0x0, 0x05#8), (0x1, 0x03#8)])
      [(0x0, 0x02#8)] ⟨true, false, false, false⟩ 0xF001#16 = true := by
  decide

theorem test_sub_2 :
    stepsTo (start [0x6A#8] [(0x0, 0x03#8), (0x1, 0x05#8)])
      [(0x0, 0xFE#8)] ⟨false, true, false, false⟩ 0xF001#16 = true := by
  decide

theorem test_sbb_1 :
    stepsTo (start [0x6B#8] [(0x0, 0x05#8), (0x1, 0x03#8)] ⟨true, false, false, false⟩)
      [(0x0, 0x02#8)] ⟨true, false, false, false⟩ 0xF001#16 = true := by
  decide

theorem test_sbb_2 :
    stepsTo (start [0x6B#8] [(0x0, 0x05#8), (0x1, 0x03#8)])
      [(0x0, 0x01#8)] ⟨true, false, false, false⟩ 0xF001#16 = true := by
  decide

theorem test_cmp_1 :
    stepsTo (start [0x6D#8] [(0x0, 0x05#8), (0x1, 0x05#8)])
      [(0x0, 0x05#8), (0x1, 0x05#8)] ⟨true, false, true, false⟩ 0xF001#16 = true := by
  decide

theorem test_cmp_2 :
    stepsTo (start [0x6D#8] [(0x0, 0x03#8), (0x1, 0x05#8)])
      [(0x0, 0x03#8), (0x1, 0x05#8)] ⟨false, true, false, false⟩ 0xF001#16 = true := by
  decide

theorem test_dac_1 :
    stepsTo (start [0x6E#8] [(0x0, 0x38#8), (0x1, 0x47#8)])
      [(0x0, 0x85#8)] ⟨false, true, false, false⟩ 0xF001#16 = true := by
  decide

theorem test_dac_2 :
    stepsTo (start [0x6E#8] [(0x0, 0x99#8), (0x1, 0x01#8)])
      [(0x0, 0x00#8)] ⟨true, false, true, false⟩ 0xF001#16 = true := by
  decide

theorem test_dsb_1 :
    stepsTo (start [0x6F#8] [(0x0, 0x50#8), (0x1, 0x25#8)] ⟨true, false, false, false⟩)
      [(0x0, 0x25#8)] ⟨true, false, false, false⟩ 0xF001#16 = true := by
  decide

theorem test_dsb_2 :
    stepsTo (start [0x6F#8] [(0x0, 0x50#8), (0x1, 0x25#8)])
      [(0x0, 0x24#8)] ⟨true, false, false, false⟩ 0xF001#16 = true := by
  decide

theorem test_mpy_1 :
    stepsTo (start [0x6C#8] [(0x0, 0xFF#8), (0x1, 0xFF#8)])
      [(0x0, 0xFE#8), (0x1, 0x01#8)] ⟨false, true, false, false⟩ 0xF001#16 = true := by
  decide

theorem test_mpy_2 :
    stepsTo (start [0x6C#8] [(0x0, 0x10#8), (0x1, 0x0F#8)])
      [(0x0, 0x00#8), (0x1, 0xF0#8)] ⟨false, false, true, false⟩ 0xF001#16 = true := by
  decide

theorem test_mov_1 :
    stepsTo (start [0xC0#8] [(0x0, 0x80#8)] ⟨true, false, false, false⟩)
      [(0x0, 0x80#8), (0x1, 0x80#8)] ⟨false, true, false, false⟩ 0xF001#16 = true := by
  decide

theorem test_mov_2 :
    stepsTo (start [0x62#8] [(0x1, 0x00#8)])
      [(0x0, 0x00#8), (0x1, 0x00#8)] ⟨false, false, true, false⟩ 0xF001#16 = true := by
  decide

theorem test_and_1 :
    stepsTo (start [0x63#8] [(0x0, 0xF0#8), (0x1, 0x3C#8)] ⟨true, false, false, false⟩)
      [(0x0, 0x30#8)] ⟨false, false, false, false⟩ 0xF001#16 = true := by
  decide

theorem test_and_2 :
    stepsTo (start [0x23#8, 0x0F#8] [(0x0, 0xF0#8)])
      [(0x0, 0x00#8)] ⟨false, false, true, false⟩ 0xF002#16 = true := by
  decide

theorem test_or_1 :
    stepsTo (start [0x64#8] [(0x0, 0x80#8), (0x1, 0x01#8)])
      [(0x0, 0x81#8)] ⟨false, true, false, false⟩ 0xF001#16 = true := by
  decide

theorem test_or_2 :
    stepsTo (start [0x74#8, 0x00#8, 0x09#8] [(0x9, 0x00#8)])
      [(0x9, 0x00#8)] ⟨false, false, true, false⟩ 0xF003#16 = true := by
  decide

theorem test_xor_1 :
    stepsTo (start [0x65#8] [(0x0, 0xFF#8), (0x1, 0xFF#8)])
      [(0x0, 0x00#8)] ⟨false, false, true, false⟩ 0xF001#16 = true := by
  decide

theorem test_xor_2 :
    stepsTo (start [0x25#8, 0xFF#8] [(0x0, 0x7F#8)])
      [(0x0, 0x80#8)] ⟨false, true, false, false⟩ 0xF002#16 = true := by
  decide

theorem test_btjo_1 :
    stepsTo (start [0x66#8, 0x05#8] [(0x0, 0x81#8), (0x1, 0x01#8)])
      [(0x0, 0x81#8), (0x1, 0x01#8)] ⟨false, false, false, false⟩ 0xF007#16 = true := by
  decide

theorem test_btjo_2 :
    stepsTo (start [0x66#8, 0x05#8] [(0x0, 0x80#8), (0x1, 0x01#8)])
      [(0x0, 0x80#8), (0x1, 0x01#8)] ⟨false, false, true, false⟩ 0xF002#16 = true := by
  decide

theorem test_btjz_1 :
    stepsTo (start [0x67#8, 0x05#8] [(0x0, 0xFE#8), (0x1, 0x01#8)])
      [(0x0, 0xFE#8), (0x1, 0x01#8)] ⟨false, false, false, false⟩ 0xF007#16 = true := by
  decide

theorem test_btjz_2 :
    stepsTo (start [0x67#8, 0x05#8] [(0x0, 0xFF#8), (0x1, 0xFF#8)])
      [(0x0, 0xFF#8), (0x1, 0xFF#8)] ⟨false, false, true, false⟩ 0xF002#16 = true := by
  decide

theorem test_dec_1 :
    stepsTo (start [0xB2#8] [(0x0, 0x01#8)]) [(0x0, 0x00#8)] ⟨true, false, true, false⟩ 0xF001#16 = true := by
  decide

theorem test_dec_2 :
    stepsTo (start [0xB2#8] [(0x0, 0x00#8)]) [(0x0, 0xFF#8)] ⟨false, true, false, false⟩ 0xF001#16 = true := by
  decide

theorem test_inc_1 :
    stepsTo (start [0xB3#8] [(0x0, 0xFF#8)]) [(0x0, 0x00#8)] ⟨true, false, true, false⟩ 0xF001#16 = true := by
  decide

theorem test_inc_2 :
    stepsTo (start [0xC3#8] [(0x1, 0x7F#8)]) [(0x1, 0x80#8)] ⟨false, true, false, false⟩ 0xF001#16 = true := by
  decide

theorem test_inv_1 :
    stepsTo (start [0xB4#8] [(0x0, 0xFF#8)] ⟨true, false, false, false⟩)
      [(0x0, 0x00#8)] ⟨false, false, true, false⟩ 0xF001#16 = true := by
  decide

theorem test_inv_2 :
    stepsTo (start [0xD4#8, 0x0A#8] [(0xA, 0x55#8)])
      [(0xA, 0xAA#8)] ⟨false, true, false, false⟩ 0xF002#16 = true := by
  decide

theorem test_clr_1 :
    stepsTo (start [0xB5#8] [(0x0, 0x37#8)] ⟨true, true, false, false⟩)
      [(0x0, 0x00#8)] ⟨false, false, true, false⟩ 0xF001#16 = true := by
  decide

theorem test_clr_2 :
    stepsTo (start [0xD5#8, 0x7F#8] [(0x7F, 0xFF#8)])
      [(0x7F, 0x00#8)] ⟨false, false, true, false⟩ 0xF002#16 = true := by
  decide

theorem test_xchb_1 :
    stepsTo (start [0xB6#8] [(0x0, 0x12#8), (0x1, 0x80#8)])
      [(0x0, 0x80#8), (0x1, 0x12#8)] ⟨false, true, false, false⟩ 0xF001#16 = true := by
  decide

theorem test_xchb_2 :
    stepsTo (start [0xD6#8, 0x09#8] [(0x1, 0xFF#8), (0x9, 0x00#8)])
      [(0x1, 0x00#8), (0x9, 0xFF#8)] ⟨false, true, false, false⟩ 0xF002#16 = true := by
  decide

theorem test_swap_1 :
    stepsTo (start [0xB7#8] [(0x0, 0x1F#8)]) [(0x0, 0xF1#8)] ⟨true, true, false, false⟩ 0xF001#16 = true := by
  decide

theorem test_swap_2 :
    stepsTo (start [0xC7#8] [(0x1, 0x8E#8)]) [(0x1, 0xE8#8)] ⟨false, true, false, false⟩ 0xF001#16 = true := by
  decide

theorem test_push_1 :
    stepsTo (start [0xB8#8] [(0x0, 0x80#8)] ⟨false, false, false, false⟩ 0x20#8)
      [(0x21, 0x80#8)] ⟨false, true, false, false⟩ 0xF001#16 0x21#8 = true := by
  decide

theorem test_push_2 :
    stepsTo (start [0xD8#8, 0x09#8] [(0x9, 0x00#8)] ⟨false, false, false, false⟩ 0xFF#8)
      [(0x0, 0x00#8)] ⟨false, false, true, false⟩ 0xF002#16 0x00#8 = true := by
  decide

theorem test_pop_1 :
    stepsTo (start [0xD9#8, 0x06#8] [(0x21, 0xC3#8)] ⟨false, false, false, false⟩ 0x21#8)
      [(0x6, 0xC3#8)] ⟨false, true, false, false⟩ 0xF002#16 0x20#8 = true := by
  decide

theorem test_pop_2 :
    stepsTo (start [0xB9#8] [(0x0, 0x00#8)] ⟨false, false, false, false⟩ 0x00#8)
      [(0x0, 0x00#8)] ⟨false, false, true, false⟩ 0xF001#16 0xFF#8 = true := by
  decide

theorem test_djnz_1 :
    stepsTo (start [0xCA#8, 0xFE#8] [(0x1, 0x02#8)] ⟨true, true, false, false⟩)
      [(0x1, 0x01#8)] ⟨true, true, false, false⟩ 0xF000#16 = true := by
  decide

theorem test_djnz_2 :
    stepsTo (start [0xCA#8, 0xFE#8] [(0x1, 0x01#8)] ⟨true, false, false, false⟩)
      [(0x1, 0x00#8)] ⟨true, false, false, false⟩ 0xF002#16 = true := by
  decide

theorem test_tsta_1 :
    stepsTo (start [0xB0#8] [(0x0, 0x80#8)] ⟨true, false, false, false⟩)
      [(0x0, 0x80#8)] ⟨false, true, false, false⟩ 0xF001#16 = true := by
  decide

theorem test_tsta_2 :
    stepsTo (start [0xB0#8] [(0x0, 0x00#8)] ⟨true, false, false, false⟩)
      [(0x0, 0x00#8)] ⟨false, false, true, false⟩ 0xF001#16 = true := by
  decide

theorem test_tstb_1 :
    stepsTo (start [0xC1#8] [(0x1, 0x7F#8)] ⟨true, true, true, false⟩)
      [(0x1, 0x7F#8)] ⟨false, false, false, false⟩ 0xF001#16 = true := by
  decide

theorem test_decd_1 :
    stepsTo (start [0xDB#8, 0x05#8] [(0x4, 0x01#8), (0x5, 0x00#8)])
      [(0x4, 0x00#8), (0x5, 0xFF#8)] ⟨true, false, true, false⟩ 0xF002#16 = true := by
  decide

theorem test_decd_2 :
    stepsTo (start [0xDB#8, 0x05#8] [(0x4, 0x00#8), (0x5, 0x00#8)])
      [(0x4, 0xFF#8), (0x5, 0xFF#8)] ⟨false, true, false, false⟩ 0xF002#16 = true := by
  decide

theorem test_rr_1 :
    stepsTo (start [0xBC#8] [(0x0, 0x01#8)]) [(0x0, 0x80#8)] ⟨true, true, false, false⟩ 0xF001#16 = true := by
  decide

theorem test_rr_2 :
    stepsTo (start [0xCC#8] [(0x1, 0x80#8)] ⟨true, false, false, false⟩)
      [(0x1, 0x40#8)] ⟨false, false, false, false⟩ 0xF001#16 = true := by
  decide

theorem test_rrc_1 :
    stepsTo (start [0xBD#8] [(0x0, 0x01#8)]) [(0x0, 0x00#8)] ⟨true, false, true, false⟩ 0xF001#16 = true := by
  decide

theorem test_rrc_2 :
    stepsTo (start [0xBD#8] [(0x0, 0x00#8)] ⟨true, false, false, false⟩)
      [(0x0, 0x80#8)] ⟨false, true, false, false⟩ 0xF001#16 = true := by
  decide

theorem test_rl_1 :
    stepsTo (start [0xBE#8] [(0x0, 0x80#8)]) [(0x0, 0x01#8)] ⟨true, false, false, false⟩ 0xF001#16 = true := by
  decide

theorem test_rl_2 :
    stepsTo (start [0xBE#8] [(0x0, 0x40#8)]) [(0x0, 0x80#8)] ⟨false, true, false, false⟩ 0xF001#16 = true := by
  decide

theorem test_rlc_1 :
    stepsTo (start [0xBF#8] [(0x0, 0x80#8)]) [(0x0, 0x00#8)] ⟨true, false, true, false⟩ 0xF001#16 = true := by
  decide

theorem test_rlc_2 :
    stepsTo (start [0xBF#8] [(0x0, 0x00#8)] ⟨true, false, false, false⟩)
      [(0x0, 0x01#8)] ⟨false, false, false, false⟩ 0xF001#16 = true := by
  decide

theorem test_lda_1 :
    stepsTo (start [0x8A#8, 0x20#8, 0x00#8] [(0x2000, 0x80#8)])
      [(0x0, 0x80#8)] ⟨false, true, false, false⟩ 0xF003#16 = true := by
  decide

theorem test_lda_2 :
    stepsTo (start [0xAA#8, 0x20#8, 0x00#8] [(0x1, 0x05#8), (0x2005, 0x00#8)])
      [(0x0, 0x00#8)] ⟨false, false, true, false⟩ 0xF003#16 = true := by
  decide

theorem test_sta_1 :
    stepsTo (start [0x8B#8, 0x20#8, 0x00#8] [(0x0, 0x00#8)] ⟨true, false, false, false⟩)
      [(0x2000, 0x00#8)] ⟨false, false, true, false⟩ 0xF003#16 = true := by
  decide

theorem test_sta_2 :
    stepsTo (start [0xAB#8, 0x20#8, 0x00#8] [(0x0, 0x91#8), (0x1, 0xFF#8)])
      [(0x20FF, 0x91#8)] ⟨false, true, false, false⟩ 0xF003#16 = true := by
  decide

theorem test_cmpa_1 :
    stepsTo (start [0x8D#8, 0x20#8, 0x00#8] [(0x0, 0x42#8), (0x2000, 0x42#8)])
      [(0x0, 0x42#8)] ⟨true, false, true, false⟩ 0xF003#16 = true := by
  decide

theorem test_cmpa_2 :
    stepsTo (start [0x8D#8, 0x20#8, 0x00#8] [(0x0, 0x03#8), (0x2000, 0x05#8)])
      [(0x0, 0x03#8)] ⟨false, true, false, false⟩ 0xF003#16 = true := by
  decide

theorem test_br_1 :
    stepsTo (start [0x8C#8, 0x12#8, 0x34#8] [] ⟨true, true, true, true⟩)
      [] ⟨true, true, true, true⟩ 0x1234#16 = true := by
  decide

theorem test_br_2 :
    stepsTo (start [0xAC#8, 0x12#8, 0x00#8] [(0x1, 0x34#8)]) [] ⟨false, false, false, false⟩ 0x1234#16 = true := by
  decide

theorem test_call_1 :
    stepsTo (start [0x8E#8, 0x12#8, 0x34#8] [] ⟨false, false, false, false⟩ 0x20#8)
      [(0x21, 0xF0#8), (0x22, 0x03#8)] ⟨false, false, false, false⟩ 0x1234#16 0x22#8 = true := by
  decide

theorem test_call_2 :
    stepsTo (start [0xAE#8, 0x12#8, 0x00#8] [(0x1, 0x34#8)] ⟨false, false, false, false⟩ 0x20#8)
      [(0x21, 0xF0#8), (0x22, 0x03#8)] ⟨false, false, false, false⟩ 0x1234#16 0x22#8 = true := by
  decide

theorem test_movd_1 :
    stepsTo (start [0x88#8, 0x12#8, 0x34#8, 0x05#8] [])
      [(0x4, 0x12#8), (0x5, 0x34#8)] ⟨false, false, false, false⟩ 0xF004#16 = true := by
  decide

theorem test_movd_2 :
    stepsTo (start [0x88#8, 0x00#8, 0x34#8, 0x05#8] [])
      [(0x4, 0x00#8), (0x5, 0x34#8)] ⟨false, false, true, false⟩ 0xF004#16 = true := by
  decide

theorem test_nop_1 :
    stepsTo (start [0x00#8] [] ⟨true, false, true, true⟩) [] ⟨true, false, true, true⟩ 0xF001#16 = true := by
  decide

theorem test_eint_1 :
    stepsTo (start [0x05#8] []) [] ⟨true, true, true, true⟩ 0xF001#16 = true := by
  decide

theorem test_dint_1 :
    stepsTo (start [0x06#8] [] ⟨true, true, true, true⟩) [] ⟨false, false, false, false⟩ 0xF001#16 = true := by
  decide

theorem test_setc_1 :
    stepsTo (start [0x07#8] [] ⟨false, true, false, true⟩) [] ⟨true, false, true, true⟩ 0xF001#16 = true := by
  decide

theorem test_setc_2 :
    stepsTo (start [0x07#8] []) [] ⟨true, false, true, false⟩ 0xF001#16 = true := by
  decide

theorem test_pop_st_1 :
    stepsTo (start [0x08#8] [(0x21, 0xF0#8)] ⟨false, false, false, false⟩ 0x21#8)
      [] ⟨true, true, true, true⟩ 0xF001#16 0x20#8 = true := by
  decide

theorem test_pop_st_2 :
    stepsTo (start [0x08#8] [(0x21, 0x5F#8)] ⟨false, false, false, false⟩ 0x21#8)
      [] ⟨false, true, false, true⟩ 0xF001#16 0x20#8 = true := by
  decide

theorem test_stsp_1 :
    stepsTo (start [0x09#8] [(0x1, 0x00#8)] ⟨true, false, true, false⟩ 0x42#8)
      [(0x1, 0x42#8)] ⟨true, false, true, false⟩ 0xF001#16 0x42#8 = true := by
  decide

theorem test_ldsp_1 :
    stepsTo (start [0x0D#8] [(0x1, 0x60#8)] ⟨false, false, false, false⟩ 0x01#8)
      [(0x1, 0x60#8)] ⟨false, false, false, false⟩ 0xF001#16 0x60#8 = true := by
  decide

theorem test_ldsp_2 :
    stepsTo (start [0x0D#8] [(0x1, 0x00#8)]) [] ⟨false, false, false, false⟩ 0xF001#16 0x00#8 = true := by
  decide

theorem test_rets_1 :
    stepsTo (start [0x0A#8] [(0x21, 0xF0#8), (0x22, 0x03#8)] ⟨true, true, false, false⟩ 0x22#8)
      [] ⟨true, true, false, false⟩ 0xF003#16 0x20#8 = true := by
  decide

theorem test_reti_1 :
    stepsTo (start [0x0B#8] [(0x20, 0xB0#8), (0x21, 0xF0#8), (0x22, 0x03#8)] ⟨false, false, false, false⟩ 0x22#8)
      [] ⟨true, false, true, true⟩ 0xF003#16 0x1F#8 = true := by
  decide

theorem test_reti_2 :
    stepsTo (start [0x0B#8] [(0x20, 0x4F#8), (0x21, 0x12#8), (0x22, 0x34#8)] ⟨false, false, false, false⟩ 0x22#8)
      [] ⟨false, true, false, false⟩ 0x1234#16 0x1F#8 = true := by
  decide

theorem test_push_st_1 :
    stepsTo (start [0x0E#8] [] ⟨true, false, true, true⟩ 0x20#8)
      [(0x21, 0xB0#8)] ⟨false, true, false, true⟩ 0xF001#16 0x21#8 = true := by
  decide

theorem test_push_st_2 :
    stepsTo (start [0x0E#8] [] ⟨false, false, false, false⟩ 0x20#8)
      [(0x21, 0x00#8)] ⟨false, false, true, false⟩ 0xF001#16 0x21#8 = true := by
  decide

theorem test_jmp_1 :
    stepsTo (start [0xE0#8, 0x05#8] []) [] ⟨false, false, false, false⟩ 0xF007#16 = true := by
  decide

theorem test_jmp_2 :
    stepsTo (start [0xE0#8, 0xFE#8] []) [] ⟨false, false, false, false⟩ 0xF000#16 = true := by
  decide

theorem test_trap_1 :
    stepsTo (start [0xFF#8] [(0xFFFE, 0x12#8), (0xFFFF, 0x34#8)] ⟨true, false, false, true⟩ 0x20#8)
      [(0x21, 0xF0#8), (0x22, 0x01#8)] ⟨true, false, false, true⟩ 0x1234#16 0x22#8 = true := by
  decide

theorem test_trap_2 :
    stepsTo (start [0xE8#8] [(0xFFD0, 0x40#8), (0xFFD1, 0x00#8)] ⟨false, false, false, false⟩ 0x20#8)
      [(0x21, 0xF0#8), (0x22, 0x01#8)] ⟨false, false, false, false⟩ 0x4000#16 0x22#8 = true := by
  decide

/-- The conditional jumps for the eight values of C, N, Z: the table of 2.7. -/
theorem test_conditional_jumps :
    ([(0xE2#8, [false, true, false, true, false, true, false, true]),
      (0xE3#8, [false, false, false, false, true, true, true, true]),
      (0xE4#8, [true, false, false, false, true, false, false, false]),
      (0xE5#8, [true, true, false, false, true, true, false, false]),
      (0xE6#8, [true, false, true, false, true, false, true, false]),
      (0xE7#8, [true, true, true, true, false, false, false, false])] : List (Byte × List Bool)).all
      (fun r => (List.range 8).all fun k =>
        let st : Status := ⟨k.testBit 2, k.testBit 1, k.testBit 0, false⟩
        stepsTo (start [r.1, 0x10#8] [] st) [] st (if r.2.getD k false then 0xF012#16 else 0xF002#16)) = true := by
  decide

/-- One step answers a next state with the given events, newest first. -/
def stepsWith (s : State) (events : List Event) : Bool :=
  match step s with
  | .next t => t.events == events
  | _ => false

theorem test_movp_writes_and_does_not_read :
    stepsWith (start [0xA2#8, 0x7F#8, 0x0A#8] []) [.periphWrite 0x0A#8 0x7F#8] = true := by
  decide

/-- ANDP reads once, then writes once, and clears C: `A3 F0 06` of 2.5 with C = 1. -/
theorem test_andp_reads_then_writes :
    (match step (start [0xA3#8, 0xF0#8, 0x06#8] [] ⟨true, false, false, false⟩) with
      | .next t => (match t.events with
        | [.periphWrite n _, .periphRead m _] => n == 0x06#8 && m == 0x06#8
        | _ => false) && t.st.c == false && t.draws == 1
      | _ => false) = true := by
  decide

theorem test_sta_reaches_the_peripheral_file :
    stepsWith (start [0x8B#8, 0x01#8, 0x06#8] [(0, 0xAA#8)]) [.periphWrite 0x06#8 0xAA#8] = true := by
  decide

theorem test_idle_holds_pc :
    (match step (start [0x01#8] [] ⟨false, false, false, true⟩) with
      | .next t => t.idle && t.pc == 0xF000#16 && t.st == ⟨false, false, false, true⟩
      | _ => false) = true := by
  decide

/-- Line 1 of 2.8: level 1 accepted at pc = 0xF010, with level 3 left pending (line 4). -/
theorem test_interrupt_entry :
    (match step { start [] [(0xFFFC, 0xE0#8)] ⟨true, false, true, true⟩ 0x20#8 with
        pc := 0xF010#16, pending := [1, 3] } with
      | .next t => t.reg 33#8 == 0xB0#8 && t.reg 34#8 == 0xF0#8 && t.reg 35#8 == 0x10#8 && t.sp == 0x23#8 &&
          t.st == ⟨false, false, false, false⟩ && t.pc == 0xE000#16 && t.pending == [3]
      | _ => false) = true := by
  decide

/-- Line 3 of 2.8: from idle the return address is that after the `IDLE`. -/
theorem test_interrupt_entry_from_idle :
    (match step { start [] [(0xFFFA, 0xD0#8)] ⟨false, false, false, true⟩ 0x20#8 with
        pc := 0xF010#16, idle := true, pending := [2] } with
      | .next t => t.reg 33#8 == 0x10#8 && t.reg 35#8 == 0x11#8 && t.pc == 0xD000#16 && !t.idle
      | _ => false) = true := by
  decide

/-- Line 2 of 2.8: with I = 0 the instruction executes and the request stays. -/
theorem test_interrupt_waits_for_i :
    (match step { start [0x00#8] [] with pending := [1] } with
      | .next t => t.pc == 0xF001#16 && t.pending == [1]
      | _ => false) = true := by
  decide

/-- The last line of 2.8. -/
theorem test_reset :
    (match step { start [] [(2, 0xAA#8), (0xFFFE, 0xF0#8), (0xFFFF, 0x06#8)] ⟨true, false, false, true⟩ 0x77#8 with
        pc := 0x4567#16, idle := true, resetReq := true } with
      | .next t => t.a == 0x45#8 && t.b == 0x67#8 && t.reg 2#8 == 0xAA#8 && t.sp == 0x01#8 && !t.idle &&
          t.st == ⟨false, false, false, false⟩ && t.pc == 0xF006#16 && !t.resetReq
      | _ => false) = true := by
  decide

/-- `BB` and `9A 00` of 2.4 and 2.6. -/
theorem test_pair_at_register_0_is_refused :
    step (start [0xBB#8] []) = .refused .pairAtRegister0 ∧
    step (start [0x9A#8, 0x00#8] []) = .refused .pairAtRegister0 := ⟨rfl, rfl⟩

/-- `72 5A 80` of 2.2 with `NREG` = 128. -/
theorem test_missing_register_stops :
    step { start [0x72#8, 0x5A#8, 0x80#8] [] with cfg := { State.resetPlatform with nreg := .regs128 } } =
      .fault (.unimplementedRegister 0x80#8) := rfl

/-- `E1 10` of 2.7, and `JN` where the platform admits it (R255). -/
theorem test_opcode_e1 :
    step (start [0xE1#8, 0x10#8] []) = .refused (.unassignedOpcode 0xE1#8) ∧
    (match step { start [0xE1#8, 0x10#8] [] ⟨false, true, false, false⟩ with
        cfg := { State.resetPlatform with admitJn := true } } with
      | .next t => t.pc == 0xF012#16
      | _ => false) = true := ⟨rfl, rfl⟩

/-- The first step after reset with the word of `MOV %>5A,A` placed (log entry 9). -/
theorem test_withFetchWord :
    (match step (State.reset.withFetchWord 16 0x5A22) with
      | .next t => t.a == 0x5A#8 && t.pc == 0x0002#16
      | _ => false) = true := by
  decide

/-! ### Witnesses of the statements' hypotheses -/

/-- pc = 0x1000, sp = 0x20, C and I set. -/
def plain : State := { State.reset with pc := 0x1000#16, sp := 0x20#8, st := ⟨true, false, false, true⟩ }

/-- 128 registers, ROM, a device and a hole at 0x8000..0xFFFF, RAM below them from 0x0200. -/
def small : Platform :=
  { State.resetPlatform with
    nreg := .regs128
    memMap := [⟨0x8000, 0x1000, .rom⟩, ⟨0x9000, 0x1000, .device⟩, ⟨0xA000, 0x1000, .unimplemented⟩,
      ⟨0x0200, 0xFE00, .ram⟩]
    stLow := some 0x5#4 }

/-- `plain` on the platform `small`. -/
def plainSmall : State := { plain with cfg := small }

theorem witness_DecodeOfEncode : WellFormed (.trap 23) = true ∧ WellFormed (.xchb (.r 1#8)) = true := by decide

theorem witness_DecodedBytesAreTheEncoding :
    decode [0xE8#8, 0x55#8] = .ok (.trap 23, [0x55#8]) ∧ decode [0xB0#8] = .ok (.clrc, []) := ⟨rfl, rfl⟩

theorem witness_OpcodeDecidesLength : WellFormed (.trap 0) = true ∧ WellFormed (.btjo (.rr 0#8 255#8) 255#8) = true := by
  decide

theorem witness_StepRunsDecodedInstruction :
    ∃ s : State, s.Ready ∧ s.CodeOwned 3 ∧ decode (s.codeBytes 3) = .ok (.add (.rr 0x05#8 0x06#8), []) :=
  ⟨{ start [] [(0xFFFF, 0x48#8), (0, 0x05#8), (1, 0x06#8)] with pc := 0xFFFF#16 },
    ⟨rfl, rfl, rfl⟩, by decide, rfl⟩

theorem witness_LoadedWordRunsNext :
    ∃ s : State, (∀ k < 4, s.Storage (s.pc + BitVec.ofNat 16 k)) ∧
      (decode (tableBytes 16 0x5A22) = .ok (.mov (.dual (.ia 0x5A#8)), [0#8, 0#8])) ∧
      decode (tableBytes 32 0x05341288) = .ok (.movd (.imm 0x1234#16 0x05#8), []) :=
  ⟨plain, by decide, rfl, rfl⟩

theorem witness_UnassignedOpcodesAtPc :
    ∃ s u v : State,
      (s.Ready ∧ s.Storage s.pc ∧ s.mem.read s.pc.toNat = 0x02#8 ∧ 0x02#8 ≠ 0xE1#8) ∧
      (u.Ready ∧ u.Storage u.pc ∧ u.mem.read u.pc.toNat = 0xE1#8 ∧ u.cfg.admitJn = false) ∧
      (v.Ready ∧ v.Storage v.pc ∧ v.mem.read v.pc.toNat = 0xE1#8 ∧ v.cfg.admitJn = true ∧ v.Storage (v.pc + 1#16)) :=
  ⟨start [0x02#8] [], start [0xE1#8] [],
    { start [0xE1#8] [] with cfg := { State.resetPlatform with admitJn := true } }, by decide⟩

theorem witness_ResetComesFirst :
    ∃ s : State, s.resetReq = true ∧ s.Storage 0xFFFE#16 ∧ s.Storage 0xFFFF#16 :=
  ⟨{ plain with resetReq := true }, by decide⟩

/-- Level 23 alone, and level 1 below it from the idle state with the stack wrapping. -/
theorem witness_LowestPendingLevelIsEntered :
    ∀ r ∈ [({ plain with pending := [23] }, 23), ({ plain with pending := [1, 23], idle := true, sp := 0xFE#8 }, 1)],
      r.1.resetReq = false ∧ r.1.st.i = true ∧ r.2 ∈ r.1.pending ∧ (∀ j ∈ r.1.pending, r.2 ≤ j) ∧ r.2 ≤ 23 ∧
      r.1.HasReg (r.1.sp + 1#8) ∧ r.1.HasReg (r.1.sp + 2#8) ∧ r.1.HasReg (r.1.sp + 3#8) ∧
      r.1.Storage (BitVec.ofNat 16 (0xFFFE - 2 * r.2)) ∧ r.1.Storage (BitVec.ofNat 16 (0xFFFF - 2 * r.2)) := by
  decide

theorem witness_ReturnUndoesInterruptEntry :
    ∃ s t u : State, s.resetReq = false ∧ s.st.i = true ∧ s.pending ≠ [] ∧ step s = .next t ∧ u.sp = t.sp ∧
      u.cfg = t.cfg ∧ (∀ n ∈ [s.sp + 1#8, s.sp + 2#8, s.sp + 3#8], u.reg n = t.reg n) :=
  ⟨{ plain with pending := [2], idle := true }, _, _, rfl, rfl, by decide, rfl, rfl, rfl, fun _ _ => rfl⟩

theorem witness_StepKeepsInvariant :
    ∃ s t : State, s.Inv ∧ step s = .next t ∧ s ≠ State.reset :=
  ⟨{ plain with mem := [(7, 0x55#8), (0x1000, 0xB3#8)], pending := [1, 23], st := ⟨false, false, false, false⟩ }, _,
    ⟨by decide, by decide, by decide, by decide, by decide⟩, rfl, by decide⟩

theorem witness_ReachedStatesHaveInvariant :
    ∃ s t : State, s.Inv ∧ Reaches s t ∧ s ≠ t :=
  ⟨{ plain with mem := [(7, 0x55#8)] }, _, ⟨by decide, by decide, by decide, by decide, by decide⟩,
    .environment (.raise 23) .start, by decide⟩

theorem witness_CanonicalMemoriesAreDeterminedByReads :
    ∃ m : Memory, m ≠ [] ∧ m.wf = true ∧ ∀ a, m.read a = m.read a :=
  ⟨[(0, 1#8), (0xFFFF, 0x80#8)], by decide, by decide, fun _ => rfl⟩

theorem witness_OnlyStoredBytesChange :
    ∃ t, exec (.sta (.direct 0x2000#16)) (plain.setReg 0#8 5#8) = .next t ∧
      (0x2001 ∉ storedBy (.sta (.direct 0x2000#16)) (plain.setReg 0#8 5#8)) := ⟨_, rfl, by decide⟩

theorem witness_StatusColumnHolds :
    (∃ t, exec (.rlc .b) plain = .next t) ∧ (∃ t, exec .pushSt plain = .next t) ∧ plain.cfg.pushStFlags = .table :=
  ⟨⟨_, rfl⟩, ⟨_, rfl⟩, rfl⟩

theorem witness_StackPointerAndPcFrame :
    (∃ t, exec (.call (.direct 0x2000#16)) plain = .next t) ∧ (∃ t, exec .ldsp plain = .next t) ∧
      Instr.setsPc .ldsp = false := ⟨⟨_, rfl⟩, ⟨_, rfl⟩, rfl⟩

theorem witness_HiddenStateFrame :
    (∃ t, exec .idle plain = .next t) ∧ (∃ t, exec (.movd (.pair 3#8 5#8)) plain = .next t) ∧
      Instr.reachesOut (.movd (.pair 3#8 5#8)) = false := ⟨⟨_, rfl⟩, ⟨_, rfl⟩, rfl⟩

theorem witness_StepExtendsHistory : ∃ t, step (start [0xA2#8, 0x7F#8, 0x0A#8] []) = .next t := ⟨_, rfl⟩

theorem witness_PairAtRegisterZeroStops : plain.HasPair 0xFF#8 ∧ plain.HasPair 0x01#8 := by decide

/-- Registers 128 and 255 of 128: a missing source, a missing destination after an available source. -/
theorem witness_MissingRegisterStops_operands :
    ¬ plainSmall.HasReg 0x80#8 ∧ ¬ plainSmall.HasReg 0xFF#8 ∧ DualForm.source (.rr 0x80#8 0x7F#8) = .reg 0x80#8 ∧
    Operand.Available (DualForm.source (.ir 0x00#8 0x80#8)) plainSmall ∧ DualForm.dest (.ir 0x00#8 0x80#8) = 0x80#8 ∧
    Operand.Available (MovForm.source (.ar 0xFF#8)) plainSmall ∧ MovForm.dest (.ar 0xFF#8) = 0xFF#8 ∧
    plainSmall.HasReg plainSmall.sp :=
  ⟨by decide, by decide, rfl, trivial, rfl, (by decide : plainSmall.HasReg 0x00#8), rfl, by decide⟩

/-- The pair 128, whose low register is missing, and the pair 129, whose high register is; the address 0x0080; code at
0x0080, and a two-byte instruction at 0x007F. -/
theorem witness_MissingRegisterStops_places :
    (0x80#8 ≠ 0#8 ∧ plainSmall.HasReg (0x80#8 - 1#8) ∧ 0x81#8 ≠ 0#8 ∧ 0x81#8 - 1#8 = 0x80#8 ∧ plainSmall.HasPair 0x7F#8 ∧
      ExtForm.address (.direct 0x0080#16) plainSmall = (0x80#8).setWidth 16) ∧
    (∃ (s t : State) (bs : List Byte), s.Ready ∧ fetchBytes 0 s = .ok (bs, t) ∧ s.FetchGoesOn bs ∧
      s.pc + BitVec.ofNat 16 0 = (0x80#8).setWidth 16 ∧ ¬ s.HasReg 0x80#8) ∧
    ∃ (s t : State) (bs : List Byte), s.Ready ∧ fetchBytes 1 s = .ok (bs, t) ∧ s.FetchGoesOn bs ∧
      s.pc + BitVec.ofNat 16 1 = (0x80#8).setWidth 16 ∧ ¬ s.HasReg 0x80#8 :=
  ⟨by decide,
    ⟨{ plainSmall with pc := 0x0080#16, st := ⟨false, false, false, false⟩ }, _, _, by decide, rfl, trivial, by decide,
      by decide⟩,
    ⟨{ plainSmall with pc := 0x007F#16, st := ⟨false, false, false, false⟩, mem := [(0x7F, 0x12#8)] }, _, _, by decide, rfl,
      (by decide : 1 < 2), by decide, by decide⟩⟩

/-- `plainSmall` with the stack pointer at `sp`, I set and level 23 pending. -/
def atSp (sp : Byte) : State := { plainSmall with sp := sp, pending := [23] }

/-- The stack pointers at which the first, the second and the third byte pushed is missing, and those at which the first, the
second and the third byte popped is. -/
theorem witness_MissingStackByteStops :
    ¬ plainSmall.HasReg 0x80#8 ∧ ¬ plainSmall.HasReg 0xFF#8 ∧ plainSmall.HasReg (Single.num (.r 0x7F#8)) ∧
    ExtForm.Available (.indirect 0x7F#8) plainSmall ∧
    (∀ sp ∈ [0x7F#8, 0x7E#8, 0x7D#8],
      (atSp sp).resetReq = false ∧ (atSp sp).st.i = true ∧ (atSp sp).pending ≠ []) ∧
    (atSp 0x7F#8).sp + 1#8 = 0x80#8 ∧
    ((atSp 0x7E#8).HasReg ((atSp 0x7E#8).sp + 1#8) ∧ (atSp 0x7E#8).sp + 2#8 = 0x80#8) ∧
    ((atSp 0x7D#8).HasReg ((atSp 0x7D#8).sp + 1#8) ∧ (atSp 0x7D#8).HasReg ((atSp 0x7D#8).sp + 2#8) ∧
      (atSp 0x7D#8).sp + 3#8 = 0x80#8) ∧
    (atSp 0xFF#8).sp = 0xFF#8 ∧
    ((atSp 0x00#8).HasReg (atSp 0x00#8).sp ∧ (atSp 0x00#8).sp - 1#8 = 0xFF#8) ∧
    ((atSp 0x01#8).HasReg (atSp 0x01#8).sp ∧ (atSp 0x01#8).HasReg ((atSp 0x01#8).sp - 1#8) ∧
      (atSp 0x01#8).sp - 2#8 = 0xFF#8) := by
  refine ⟨?_, ?_, ?_, ?_, ?_, ?_, ?_, ?_, ?_, ?_, ?_⟩ <;> decide

theorem witness_RomWritesAndHolesStop_data :
    ∃ f g : ExtForm, f.Available plainSmall ∧ placeOf small (f.address plainSmall) = .rom ∧
      g.Available plainSmall ∧ placeOf small (g.address plainSmall) = .unimplemented :=
  ⟨.direct 0x8FFF#16, .indexed 0xAFFF#16, by decide⟩

/-- `plainSmall` with holes at 0xC000, at the low byte of vector 23 and at the high byte of vector 0. -/
def holed : State :=
  { plainSmall with
    cfg := { small with memMap := [⟨0xC000, 1, .unimplemented⟩, ⟨0xFFD1, 1, .unimplemented⟩, ⟨0xFFFE, 1, .unimplemented⟩] ++
      small.memMap } }

/-- The opcode, and the fourth byte of an instruction. -/
theorem witness_RomWritesAndHolesStop_fetch :
    (∃ (s t : State) (bs : List Byte), s.Ready ∧ fetchBytes 0 s = .ok (bs, t) ∧ s.FetchGoesOn bs ∧
      placeOf s.cfg (s.pc + BitVec.ofNat 16 0) = .unimplemented) ∧
    ∃ (s t : State) (bs : List Byte), s.Ready ∧ fetchBytes 3 s = .ok (bs, t) ∧ s.FetchGoesOn bs ∧
      placeOf s.cfg (s.pc + BitVec.ofNat 16 3) = .unimplemented :=
  ⟨⟨{ holed with pc := 0xC000#16, st := ⟨false, false, false, false⟩ }, _, _, by decide, rfl, trivial, by decide⟩,
    ⟨{ holed with pc := 0xBFFD#16, st := ⟨false, false, false, false⟩, mem := [(0xBFFD, 0x88#8)] }, _, _, by decide, rfl,
      (by decide : 3 < 4), by decide⟩⟩

/-- The low byte of vector 23, for `TRAP 23` and level 23; the high byte of vector 0, for `TRAP 0` and reset. -/
theorem witness_RomWritesAndHolesStop_vectors :
    (23 ≤ 23 ∧ placeOf holed.cfg 0xFFD1#16 = .unimplemented ∧
      placeOf holed.cfg (BitVec.ofNat 16 (0xFFFE - 2 * 23)) ≠ .unimplemented ∧
      0xFFD1#16 = BitVec.ofNat 16 (0xFFFF - 2 * 23) ∧ holed.HasReg (holed.sp + 1#8) ∧ holed.HasReg (holed.sp + 2#8) ∧
      holed.HasReg (holed.sp + 3#8) ∧ holed.st.i = true ∧ ({ holed with pending := [23] } : State).resetReq = false ∧
      ∀ j ∈ ({ holed with pending := [23] } : State).pending, 23 ≤ j) ∧
    placeOf holed.cfg 0xFFFE#16 = .unimplemented ∧ 0xFFFE#16 = BitVec.ofNat 16 (0xFFFE - 2 * 0) ∧
      ({ holed with resetReq := true } : State).resetReq = true := by
  decide

/-- The operands of `ADD R255,R0` and of `ADD %iop,R127`. The same hypothesis stands in the statements SubtractResult,
MultiplyResult, LogicResult and BitTestResult. -/
theorem witness_AddResult :
    DualForm.Available (.rr 0xFF#8 0x00#8) plain ∧ DualForm.Available (.ir 0xFF#8 0x7F#8) plainSmall :=
  ⟨⟨(by decide : plain.HasReg 0xFF#8), (by decide : plain.HasReg 0x00#8)⟩, trivial, (by decide : plainSmall.HasReg 0x7F#8)⟩

theorem witness_SubtractResult : DualForm.Available (.rr 0x7F#8 0x00#8) plainSmall :=
  ⟨(by decide : plainSmall.HasReg 0x7F#8), (by decide : plainSmall.HasReg 0x00#8)⟩

theorem witness_MultiplyResult : DualForm.Available (.rb 0xFF#8) plain :=
  ⟨(by decide : plain.HasReg 0xFF#8), (by decide : plain.HasReg 0x01#8)⟩

theorem witness_LogicResult : DualForm.Available (.ir 0x00#8 0xFF#8) plain :=
  ⟨trivial, (by decide : plain.HasReg 0xFF#8)⟩

theorem witness_BitTestResult : DualForm.Available (.ra 0xFF#8) plain :=
  ⟨(by decide : plain.HasReg 0xFF#8), (by decide : plain.HasReg 0x00#8)⟩

theorem witness_MoveResult :
    MovForm.Available (.ar 0xFF#8) plain ∧ MovForm.Available (.dual (.ir 0#8 0x7F#8)) plainSmall :=
  ⟨⟨(by decide : plain.HasReg 0x00#8), (by decide : plain.HasReg 0xFF#8)⟩, trivial, (by decide : plainSmall.HasReg 0x7F#8)⟩

theorem witness_DecimalResult :
    ∃ s : State, DualForm.Available (.ir 0x99#8 0xFF#8) s ∧ isBcd 0x99#8 = true ∧ isBcd (s.reg 0xFF#8) = true :=
  ⟨plain.setReg 0xFF#8 0x90#8, ⟨trivial, (by decide : (plain.setReg 0xFF#8 0x90#8).HasReg 0xFF#8)⟩, by decide, by decide⟩

theorem witness_InvalidDecimalRuns :
    DualForm.Available (.ia 0x0A#8) plain ∧
      (isBcd (Operand.value (DualForm.source (.ia 0x0A#8)) plain) && isBcd (plain.reg (DualForm.dest (.ia 0x0A#8)))) = false :=
  ⟨⟨trivial, (by decide : plain.HasReg 0x00#8)⟩, by decide⟩

theorem witness_PeripheralLogicResult :
    ∃ x p r : Byte, x = Operand.value (PeriphSource.source (.imm 0xF0#8)) plain ∧
      p = Config.periphAnswer plain.events plain.draws 0xFF#8 ∧
      (Instr.andp (.imm 0xF0#8) 0xFF#8, r) ∈ [(Instr.andp (.imm 0xF0#8) 0xFF#8, x &&& p),
        (.orp (.imm 0xF0#8) 0xFF#8, x ||| p), (.xorp (.imm 0xF0#8) 0xFF#8, x ^^^ p)] :=
  ⟨_, _, _, rfl, rfl, List.mem_cons_self⟩

theorem witness_PeripheralBitTestResult :
    ∃ x p : Byte, x = Operand.value (PeriphSource.source .a) plain ∧
      p = Config.periphAnswer plain.events plain.draws 0x00#8 := ⟨_, _, rfl, rfl⟩

theorem witness_PeripheralMoveResult :
    ∃ x p : Byte, x = Operand.value (PeriphSource.source .b) plain ∧
      p = Config.periphAnswer plain.events plain.draws 0xFF#8 := ⟨_, _, rfl, rfl⟩

/-- A register, a byte of RAM and one of ROM. -/
theorem witness_LoadOwnedByte :
    ExtForm.Available (.indirect 0x7F#8) plainSmall ∧ plainSmall.Storage (ExtForm.address (.indirect 0x7F#8) plainSmall) ∧
    plainSmall.Storage (ExtForm.address (.direct 0x0200#16) plainSmall) ∧
    plainSmall.Storage (ExtForm.address (.indexed 0x8FFF#16) plainSmall) := by
  decide

/-- The last peripheral register and the last address of a device. -/
theorem witness_LoadAnsweredByte :
    (∃ (f : ExtForm) (v : Byte) (e : Event), f.Available plainSmall ∧
      placeOf plainSmall.cfg (f.address plainSmall) = .peripheral ∧
      v = Config.periphAnswer plainSmall.events plainSmall.draws ((f.address plainSmall).extractLsb' 0 8) ∧
      e = .periphRead ((f.address plainSmall).extractLsb' 0 8) v) ∧
    ∃ (f : ExtForm) (v : Byte) (e : Event), f.Available plainSmall ∧
      placeOf plainSmall.cfg (f.address plainSmall) = .device ∧
      v = Config.deviceAnswer plainSmall.events plainSmall.draws (f.address plainSmall) ∧
      e = .deviceRead (f.address plainSmall) v :=
  ⟨⟨.direct 0x01FF#16, _, _, trivial, by decide, rfl, rfl⟩, ⟨.indexed 0x9FFF#16, _, _, trivial, by decide, rfl, rfl⟩⟩

theorem witness_StoreResult :
    plainSmall.Writable (ExtForm.address (.indirect 0x01#8) plainSmall) ∧
    plainSmall.Writable (ExtForm.address (.direct 0x7FFF#16) plainSmall) ∧
    placeOf small (ExtForm.address (.direct 0x0100#16) plainSmall) = .peripheral ∧
    placeOf small (ExtForm.address (.indexed 0x9000#16) plainSmall) = .device := by
  decide

theorem witness_BranchAndCallResult :
    ∃ s : State, ExtForm.Available (.indirect 0xFF#8) s ∧ s.HasReg (s.sp + 1#8) ∧ s.HasReg (s.sp + 2#8) :=
  ⟨{ plain with sp := 0xFF#8 }, by decide⟩

theorem witness_MovePairResult :
    MovdForm.Available (.pair 0x01#8 0xFF#8) plain ∧ MovdForm.Available (.immB 0#16 0x7F#8) plainSmall ∧
      MovdForm.Available (.imm 0#16 0x01#8) plain := by
  decide

/-- The last register of either size. The same hypothesis stands in the statements InvertAndClearResult,
DecrementAndIncrementResult, ExchangeResult and DecrementAndJumpResult. -/
theorem witness_RotateResult :
    plain.HasReg (Single.num (.r 0xFF#8)) ∧ plainSmall.HasReg (Single.num (.r 0x7F#8)) ∧
    (Instr.rr (.r 0xFF#8), 0#8, false) ∈ [(Instr.rr (.r 0xFF#8), 0#8, false), (.rrc (.r 0xFF#8), 0x80#8, false),
      (.rl (.r 0xFF#8), 0#8, false), (.rlc (.r 0xFF#8), 1#8, false)] := by
  decide

theorem witness_InvertAndClearResult : plain.HasReg (Single.num .a) := by decide

theorem witness_DecrementAndIncrementResult : plain.HasReg (Single.num .b) := by decide

theorem witness_ExchangeResult : plain.HasReg (Single.num (.r 0x01#8)) := by decide

theorem witness_DecrementAndJumpResult : plainSmall.HasReg (Single.num (.r 0x7F#8)) := by decide

/-- `PUSH` with the stack pointer about to wrap, `POP` at the bottom of the file. -/
theorem witness_PushAndPopResult :
    ∃ s u : State, s.HasReg (Single.num (.r 0xFF#8)) ∧ s.HasReg (s.sp + 1#8) ∧ u.HasReg (Single.num .a) ∧ u.HasReg u.sp :=
  ⟨{ plain with sp := 0xFF#8 }, { plain with sp := 0x00#8 }, by decide⟩

theorem witness_DecrementPairResult : plain.HasPair (Single.num .b) ∧ plain.HasPair (Single.num (.r 0xFF#8)) := by decide

/-- Idle with I = 0 and a level pending, and idle with I = 1 and none. -/
theorem witness_IdleResult :
    ∃ s u : State, (s.resetReq = false ∧ s.idle = true ∧ s.st.i = false ∧ s.pending = [1]) ∧
      u.resetReq = false ∧ u.idle = true ∧ u.st.i = true ∧ u.pending = [] ∧ plain.pc = 0x0FFF#16 + 1#16 :=
  ⟨{ plain with idle := true, st := ⟨false, false, false, false⟩, pending := [1] }, { plain with idle := true }, by decide⟩

theorem witness_StackReturnsResult :
    ∃ s : State, s.HasReg s.sp ∧ s.HasReg (s.sp - 1#8) ∧ s.HasReg (s.sp - 2#8) :=
  ⟨{ plain with sp := 0x01#8 }, by decide⟩

/-- Both readings of the flags, and `ST_LOW` free and fixed. -/
theorem witness_PushStatusResult :
    plain.HasReg (plain.sp + 1#8) ∧ plain.cfg.pushStFlags = .table ∧ plain.cfg.stLow = none ∧
    (let u : State := { plainSmall with cfg := { small with pushStFlags := .unaffected }, sp := 0x7E#8 }
     u.HasReg (u.sp + 1#8) ∧ u.cfg.stLow = some 0x5#4 ∧ u.cfg.pushStFlags ≠ .table) := by
  decide

theorem witness_JumpResult :
    (Instr.jl 0x80#8, 0xE7#8, !plain.st.c) ∈ [(Instr.jnc 0x80#8, 0xE7#8, !plain.st.c), (.jl 0x80#8, 0xE7#8, !plain.st.c)] := by
  decide

theorem witness_TrapResult :
    ∀ n ∈ [0, 23], n < 24 ∧ plain.HasReg (plain.sp + 1#8) ∧ plain.HasReg (plain.sp + 2#8) ∧
      plain.Storage (BitVec.ofNat 16 (0xFFFE - 2 * n)) ∧ plain.Storage (BitVec.ofNat 16 (0xFFFF - 2 * n)) := by
  decide

theorem witness_ReturnUndoesCall :
    (∃ t u : State, exec (.call (.direct 0x2000#16)) plain = .next t ∧ u.sp = t.sp ∧ u.cfg = t.cfg ∧
      ∀ n ∈ [plain.sp + 1#8, plain.sp + 2#8], u.reg n = t.reg n) ∧
    ∃ t u : State, exec (.trap 23) plain = .next t ∧ u.sp = t.sp ∧ u.cfg = t.cfg ∧
      ∀ n ∈ [plain.sp + 1#8, plain.sp + 2#8], u.reg n = t.reg n :=
  ⟨⟨_, _, rfl, rfl, rfl, fun _ _ => rfl⟩, ⟨_, _, rfl, rfl, rfl, fun _ _ => rfl⟩⟩

theorem witness_PopUndoesPush :
    (∃ t u : State, exec (.push .a) plain = .next t ∧ u.sp = t.sp ∧ u.cfg = t.cfg ∧
      u.reg (plain.sp + 1#8) = t.reg (plain.sp + 1#8) ∧ u.HasReg (Single.num (.r 0xFF#8))) ∧
    ∃ t u : State, exec .pushSt plain = .next t ∧ u.sp = t.sp ∧ u.cfg = t.cfg ∧
      u.reg (plain.sp + 1#8) = t.reg (plain.sp + 1#8) :=
  ⟨⟨_, _, rfl, rfl, rfl, rfl, by decide⟩, ⟨_, _, rfl, rfl, rfl, rfl⟩⟩

end Sys2Proof.Tests
end

/-! SUPPORT. What every instruction does to the status register (spec/00_scope.md R6). One lemma says which status an operation or
an instruction leaves; `Status.Follows` compares two status registers by a row of the STATUS column. -/

namespace Sys2Proof.Machine

variable {s t : State}

/-! ### The shared operations -/

theorem push8_st {v : Byte} (h : push8 v s = .ok t) : t.st = s.st := by
  obtain ⟨-, rfl⟩ := push8_eq_ok.mp h
  rfl

theorem push16_st {w : Addr} (h : push16 w s = .ok t) : t.st = s.st := by
  obtain ⟨-, -, rfl⟩ := push16_eq_ok.mp h
  rfl

theorem pop8_st {v : Byte} (h : pop8 s = .ok (v, t)) : t.st = s.st := by
  obtain ⟨-, -, rfl⟩ := pop8_eq_ok.mp h
  rfl

theorem pop16_st {w : Addr} (h : pop16 s = .ok (w, t)) : t.st = s.st := by
  obtain ⟨-, -, -, rfl⟩ := pop16_eq_ok.mp h
  rfl

theorem regWrite_st {n v : Byte} (h : regWrite n v s = .ok t) : t.st = s.st := by
  obtain ⟨-, rfl⟩ := regWrite_eq_ok.mp h
  rfl

theorem writePair_st {p : Byte} {w : Addr} (h : writePair p w s = .ok t) : t.st = s.st := by
  obtain ⟨-, -, -, rfl⟩ := writePair_eq_ok.mp h
  rfl

theorem State.SameButEvents.st_eq (h : s.SameButEvents t) : t.st = s.st := by
  rw [h]

theorem memRead_st {a : Addr} {v : Byte} (h : memRead a s = .ok (v, t)) : t.st = s.st :=
  (memRead_sameButEvents h).st_eq

theorem readVector_st {k : Nat} {w : Addr} (h : readVector k s = .ok (w, t)) : t.st = s.st :=
  (readVector_sameButEvents h).st_eq

theorem memWrite_st {a : Addr} {v : Byte} (h : memWrite a v s = .ok t) : t.st = s.st := by
  obtain ⟨-, rfl⟩ | ⟨-, rfl⟩ | ⟨-, rfl⟩ := memWrite_eq_ok h <;> rfl

/-- A peripheral access is a memory access at the address of `P[n]` (R200). -/
theorem periphRead_st {n v : Byte} (h : periphRead n s = .ok (v, t)) : t.st = s.st := memRead_st h

theorem periphWrite_st {n v : Byte} (h : periphWrite n v s = .ok t) : t.st = s.st := memWrite_st h

theorem statusLow_st (s : State) : (statusLow s).2.st = s.st := by
  obtain ⟨low, -, h⟩ | ⟨-, h⟩ := statusLow_cases s <;> rw [h]

theorem statusLow_cfg (s : State) : (statusLow s).2.cfg = s.cfg := by
  obtain ⟨low, -, h⟩ | ⟨-, h⟩ := statusLow_cases s <;> rw [h]

/-! ### The shared meanings -/

theorem dualUpdate_st {op : Byte → Byte → Bool → Alu} {f : DualForm} (h : dualUpdate op f s = .ok t) :
    ∃ x d, t.st = s.st.result (op x d s.st.c).carry (op x d s.st.c).value := by
  obtain ⟨x, d, -, rfl⟩ := dualUpdate_eq_ok.mp h
  exact ⟨x, d, rfl⟩

theorem dualCompare_st {op : Byte → Byte → Bool → Alu} {f : DualForm} (h : dualCompare op f s = .ok t) :
    ∃ x d, t.st = s.st.result (op x d s.st.c).carry (op x d s.st.c).value := by
  obtain ⟨x, d, -, rfl⟩ := dualCompare_eq_ok.mp h
  exact ⟨x, d, rfl⟩

/-- Valid decimal operands or not, I is not affected (R127). -/
theorem decimalUpdate_i {op : Byte → Byte → Bool → Alu} {f : DualForm} (h : decimalUpdate op f s = .ok t) :
    t.st.i = s.st.i := by
  obtain ⟨x, d, -, ⟨-, rfl⟩ | ⟨-, rfl⟩⟩ := decimalUpdate_eq_ok h <;> rfl

theorem periphUpdate_st {op : Byte → Byte → Alu} {src : PeriphSource} {pd : Byte}
    (h : periphUpdate op src pd s = .ok t) : ∃ x p, t.st = s.st.result (op x p).carry (op x p).value := by
  obtain ⟨x, -, rfl⟩ := periphUpdate_eq_ok.mp h
  exact ⟨x, _, rfl⟩

theorem singleUpdate_st {op : Byte → Bool → Alu} {d : Single} (h : singleUpdate op d s = .ok t) :
    t.st = s.st.result (op (s.reg d.num) s.st.c).carry (op (s.reg d.num) s.st.c).value := by
  obtain ⟨-, rfl⟩ := singleUpdate_eq_ok.mp h
  rfl

theorem testRegister_st {n : Byte} (h : testRegister n s = .ok t) : t.st = s.st.result false (s.reg n) := by
  obtain ⟨-, rfl⟩ := testRegister_eq_ok.mp h
  rfl

theorem jumpIf_st {cond : Bool} {ofst : Byte} (h : jumpIf cond ofst s = .next t) : t.st = s.st := by
  obtain rfl : (if cond then s.jumpRel ofst else s) = t := by simpa [jumpIf] using h
  cases cond <;> rfl

/-! ### The instructions that leave the status register alone -/

theorem execStsp_st (h : execStsp s = .next t) : t.st = s.st :=
  regWrite_st (finish_eq_next.mp h)

theorem execRets_st (h : execRets s = .next t) : t.st = s.st := by
  simp only [execRets, finish_eq_next, bind_eq_ok, Prod.exists, Except.ok.injEq] at h
  obtain ⟨w, u, hpop, rfl⟩ := h
  exact (pop16_st hpop :)

theorem execLdsp_st (h : execLdsp s = .next t) : t.st = s.st := by
  simp only [execLdsp, finish_eq_next, bind_eq_ok, Except.ok.injEq] at h
  obtain ⟨b, -, rfl⟩ := h
  rfl

theorem execTrap_st {n : Nat} (h : execTrap n s = .next t) : t.st = s.st := by
  simp only [execTrap, finish_eq_next, bind_eq_ok, Prod.exists, Except.ok.injEq] at h
  obtain ⟨u, hpush, entry, u', hvec, rfl⟩ := h
  exact (readVector_st hvec).trans (push16_st hpush)

theorem execBr_st {f : ExtForm} (h : execBr f s = .next t) : t.st = s.st := by
  simp only [execBr, finish_eq_next, bind_eq_ok, Except.ok.injEq] at h
  obtain ⟨ea, -, rfl⟩ := h
  rfl

theorem execCall_st {f : ExtForm} (h : execCall f s = .next t) : t.st = s.st := by
  simp only [execCall, finish_eq_next, bind_eq_ok, Except.ok.injEq] at h
  obtain ⟨ea, -, u, hpush, rfl⟩ := h
  exact (push16_st hpush :)

/-- Whether or not the jump is taken (R180). -/
theorem execDjnz_st {d : Single} {ofst : Byte} (h : execDjnz d ofst s = .next t) : t.st = s.st := by
  simp only [execDjnz, finish_eq_next, bind_eq_ok, Except.ok.injEq] at h
  obtain ⟨v, -, u, hw, rfl⟩ := h
  split <;> exact (regWrite_st hw :)

/-! ### The instructions that set N and Z by a byte -/

theorem execMov_st {f : MovForm} (h : execMov f s = .next t) : ∃ v, t.st = s.st.result false v := by
  simp only [execMov, finish_eq_next, bind_eq_ok, Except.ok.injEq] at h
  obtain ⟨v, -, u, hw, rfl⟩ := h
  exact ⟨v, by rw [regWrite_st hw]⟩

theorem execBtjo_st {f : DualForm} {ofst : Byte} (h : execBtjo f ofst s = .next t) :
    ∃ v, t.st = s.st.result false v := by
  simp only [execBtjo, finish_eq_next, bind_eq_ok, Prod.exists, Except.ok.injEq] at h
  obtain ⟨x, d, -, rfl⟩ := h
  exact ⟨_, testAndJump_st _ _ _⟩

theorem execBtjz_st {f : DualForm} {ofst : Byte} (h : execBtjz f ofst s = .next t) :
    ∃ v, t.st = s.st.result false v := by
  simp only [execBtjz, finish_eq_next, bind_eq_ok, Prod.exists, Except.ok.injEq] at h
  obtain ⟨x, d, -, rfl⟩ := h
  exact ⟨_, testAndJump_st _ _ _⟩

theorem execBtjop_st {src : PeriphSource} {pn ofst : Byte} (h : execBtjop src pn ofst s = .next t) :
    ∃ v, t.st = s.st.result false v := by
  simp only [execBtjop, finish_eq_next, bind_eq_ok, Prod.exists, Except.ok.injEq] at h
  obtain ⟨x, -, p, u, hr, rfl⟩ := h
  exact ⟨x &&& p, by rw [testAndJump_st, periphRead_st hr]⟩

theorem execBtjzp_st {src : PeriphSource} {pn ofst : Byte} (h : execBtjzp src pn ofst s = .next t) :
    ∃ v, t.st = s.st.result false v := by
  simp only [execBtjzp, finish_eq_next, bind_eq_ok, Prod.exists, Except.ok.injEq] at h
  obtain ⟨x, -, p, u, hr, rfl⟩ := h
  exact ⟨x &&& ~~~p, by rw [testAndJump_st, periphRead_st hr]⟩

theorem execMovp_st {f : MovpForm} (h : execMovp f s = .next t) : ∃ v, t.st = s.st.result false v := by
  cases f with
  | toPeriph src pd =>
    simp only [execMovp, finish_eq_next, bind_eq_ok, Except.ok.injEq] at h
    obtain ⟨v, -, u, hw, rfl⟩ := h
    exact ⟨v, by rw [periphWrite_st hw]⟩
  | toA ps | toB ps =>
    simp only [execMovp, finish_eq_next, bind_eq_ok, Prod.exists, Except.ok.injEq] at h
    obtain ⟨v, u, hr, u', hw, rfl⟩ := h
    exact ⟨v, by rw [regWrite_st hw, periphRead_st hr]⟩

theorem execLda_st {f : ExtForm} (h : execLda f s = .next t) : ∃ v, t.st = s.st.result false v := by
  simp only [execLda, finish_eq_next, bind_eq_ok, Prod.exists, Except.ok.injEq] at h
  obtain ⟨ea, -, v, u, hr, u', hw, rfl⟩ := h
  exact ⟨v, by rw [regWrite_st hw, memRead_st hr]⟩

theorem execSta_st {f : ExtForm} (h : execSta f s = .next t) : ∃ v, t.st = s.st.result false v := by
  simp only [execSta, finish_eq_next, bind_eq_ok, Except.ok.injEq] at h
  obtain ⟨ea, -, v, -, u, hw, rfl⟩ := h
  exact ⟨v, by rw [memWrite_st hw]⟩

theorem execCmpa_st {f : ExtForm} (h : execCmpa f s = .next t) : ∃ c v, t.st = s.st.result c v := by
  simp only [execCmpa, finish_eq_next, bind_eq_ok, Prod.exists, Except.ok.injEq] at h
  obtain ⟨ea, -, a, -, v, u, hr, rfl⟩ := h
  exact ⟨_, _, by rw [memRead_st hr]⟩

theorem execClr_st {d : Single} (h : execClr d s = .next t) : t.st = s.st.result false 0#8 := by
  simp only [execClr, finish_eq_next, bind_eq_ok, Except.ok.injEq] at h
  obtain ⟨u, hw, rfl⟩ := h
  rw [regWrite_st hw]

theorem execXchb_st {d : Single} (h : execXchb d s = .next t) : ∃ v, t.st = s.st.result false v := by
  simp only [execXchb, finish_eq_next, bind_eq_ok, Except.ok.injEq] at h
  obtain ⟨x, -, y, -, u, hw, u', hw', rfl⟩ := h
  exact ⟨y, by rw [regWrite_st hw', regWrite_st hw]⟩

theorem execPush_st {d : Single} (h : execPush d s = .next t) : ∃ v, t.st = s.st.result false v := by
  simp only [execPush, finish_eq_next, bind_eq_ok, Except.ok.injEq] at h
  obtain ⟨v, -, u, hpush, rfl⟩ := h
  exact ⟨v, by rw [push8_st hpush]⟩

theorem execPop_st {d : Single} (h : execPop d s = .next t) : ∃ v, t.st = s.st.result false v := by
  simp only [execPop, finish_eq_next, bind_eq_ok, Prod.exists, Except.ok.injEq] at h
  obtain ⟨v, u, hpop, u', hw, rfl⟩ := h
  exact ⟨v, by rw [regWrite_st hw, pop8_st hpop]⟩

/-- The printed cell of `PUSH ST` holds where the platform reads the table (R240). -/
theorem execPushSt_st (h : execPushSt s = .next t) (htable : s.cfg.pushStFlags = .table) :
    ∃ v, t.st = s.st.result false v := by
  simp only [execPushSt, finish_eq_next, bind_eq_ok] at h
  obtain ⟨u, hpush, h⟩ := h
  have hcfg : u.cfg.pushStFlags = .table := by
    obtain ⟨-, rfl⟩ := push8_eq_ok.mp hpush
    rw [← htable, ← statusLow_cfg s]
    rfl
  simp only [hcfg, Except.ok.injEq] at h
  subst h
  exact ⟨_, by rw [push8_st hpush, statusLow_st]⟩

/-! ### The instructions that set N and Z by the high byte of a word -/

theorem execMpy_st {f : DualForm} (h : execMpy f s = .next t) : ∃ w, t.st = s.st.wideResult false w := by
  simp only [execMpy, finish_eq_next, bind_eq_ok, Prod.exists, Except.ok.injEq] at h
  obtain ⟨x, d, -, u, hw, u', hw', rfl⟩ := h
  exact ⟨_, by rw [regWrite_st hw', regWrite_st hw]⟩

theorem execMovd_st {f : MovdForm} (h : execMovd f s = .next t) : ∃ w, t.st = s.st.wideResult false w := by
  simp only [execMovd, finish_eq_next, bind_eq_ok, Except.ok.injEq] at h
  obtain ⟨w, -, u, hw, rfl⟩ := h
  exact ⟨w, by rw [writePair_st hw]⟩

theorem execDecd_st {d : Single} (h : execDecd d s = .next t) : ∃ c w, t.st = s.st.wideResult c w := by
  simp only [execDecd, finish_eq_next, bind_eq_ok, Except.ok.injEq] at h
  obtain ⟨w, -, u, hw, rfl⟩ := h
  exact ⟨_, _, by rw [writePair_st hw]⟩

/-! ### Rows of the STATUS column -/

/-- A row of the STATUS column, in its order C, N, Z, I, tells the truth of a status register before and after (R6). -/
def Status.Follows (row : StatusSymbol × StatusSymbol × StatusSymbol × StatusSymbol) (operand : Byte)
    (before after : Status) : Prop :=
  row.1.Holds operand before.c after.c ∧ row.2.1.Holds operand before.n after.n ∧
  row.2.2.1.Holds operand before.z after.z ∧ row.2.2.2.Holds operand before.i after.i

variable {before after : Status} {operand : Byte}

theorem Status.follows_kept (h : after = before) :
    Status.Follows (.kept, .kept, .kept, .kept) operand before after := by
  subst h
  exact ⟨rfl, rfl, rfl, rfl⟩

/-- The row `R R R x` says only that I is not affected. -/
theorem Status.follows_result (h : after.i = before.i) :
    Status.Follows (.result, .result, .result, .kept) operand before after :=
  ⟨trivial, trivial, trivial, h⟩

theorem Status.follows_cleared {v : Byte} (h : after = before.result false v) :
    Status.Follows (.zero, .result, .result, .kept) operand before after := by
  subst h
  exact ⟨rfl, trivial, trivial, rfl⟩

theorem Status.follows_wideCleared {w : Addr} (h : after = before.wideResult false w) :
    Status.Follows (.zero, .result, .result, .kept) operand before after := by
  subst h
  exact ⟨rfl, trivial, trivial, rfl⟩

theorem Status.follows_bit {n : Nat} {v : Byte} (h : after = before.result (operand.getLsbD n) v) :
    Status.Follows (.bit n, .result, .result, .kept) operand before after := by
  subst h
  exact ⟨rfl, trivial, trivial, rfl⟩

/-- N and Z of the byte 0 are 0 and 1: the row of `CLR`. -/
theorem Status.follows_zeroByte (h : after = before.result false 0#8) :
    Status.Follows (.zero, .zero, .one, .kept) operand before after := by
  subst h
  exact ⟨rfl, rfl, rfl, rfl⟩

/-! ### Every instruction follows its row -/

/-- The instructions with the shared meanings are taken together; `exec` of each is its own meaning by definition. -/
theorem exec_follows_statusColumn (i : Instr) (h : exec i s = .next t)
    (hpush : i = .pushSt → s.cfg.pushStFlags = .table) :
    Status.Follows i.statusColumn (i.rotated s) s.st t.st := by
  cases i with
  | nop | idle | jmp => cases h; exact Status.follows_kept rfl
  | jeq | jz | jc | jhs | jgt | jp | jge | jpz | jne | jnz | jl | jnc => exact Status.follows_kept (jumpIf_st h)
  | stsp => exact Status.follows_kept (execStsp_st h)
  | rets => exact Status.follows_kept (execRets_st h)
  | ldsp => exact Status.follows_kept (execLdsp_st h)
  | br => exact Status.follows_kept (execBr_st h)
  | call => exact Status.follows_kept (execCall_st h)
  | djnz => exact Status.follows_kept (execDjnz_st h)
  | trap => exact Status.follows_kept (execTrap_st h)
  | eint | dint | setc => cases h; exact ⟨rfl, rfl, rfl, rfl⟩
  | popSt | reti => exact ⟨trivial, trivial, trivial, trivial⟩
  | clr => exact Status.follows_zeroByte (execClr_st h)
  | and | or | xor =>
    obtain ⟨x, d, hst⟩ := dualUpdate_st (finish_eq_next.mp h)
    exact Status.follows_cleared hst
  | andp | orp | xorp =>
    obtain ⟨x, p, hst⟩ := periphUpdate_st (finish_eq_next.mp h)
    exact Status.follows_cleared hst
  | inv => exact Status.follows_cleared (singleUpdate_st (finish_eq_next.mp h))
  | clrc | tsta | tstb => exact Status.follows_cleared (testRegister_st (finish_eq_next.mp h))
  | pushSt => exact (execPushSt_st h (hpush rfl)).elim fun _ => Status.follows_cleared
  | mov => exact (execMov_st h).elim fun _ => Status.follows_cleared
  | btjo => exact (execBtjo_st h).elim fun _ => Status.follows_cleared
  | btjz => exact (execBtjz_st h).elim fun _ => Status.follows_cleared
  | btjop => exact (execBtjop_st h).elim fun _ => Status.follows_cleared
  | btjzp => exact (execBtjzp_st h).elim fun _ => Status.follows_cleared
  | movp => exact (execMovp_st h).elim fun _ => Status.follows_cleared
  | lda => exact (execLda_st h).elim fun _ => Status.follows_cleared
  | sta => exact (execSta_st h).elim fun _ => Status.follows_cleared
  | xchb => exact (execXchb_st h).elim fun _ => Status.follows_cleared
  | push => exact (execPush_st h).elim fun _ => Status.follows_cleared
  | pop => exact (execPop_st h).elim fun _ => Status.follows_cleared
  | mpy => exact (execMpy_st h).elim fun _ => Status.follows_wideCleared
  | movd => exact (execMovd_st h).elim fun _ => Status.follows_wideCleared
  | add | adc | sub | sbb =>
    obtain ⟨x, d, hst⟩ := dualUpdate_st (finish_eq_next.mp h)
    exact Status.follows_result (by rw [hst, Status.result_i])
  | cmp =>
    obtain ⟨x, d, hst⟩ := dualCompare_st (finish_eq_next.mp h)
    exact Status.follows_result (by rw [hst, Status.result_i])
  | dac | dsb => exact Status.follows_result (decimalUpdate_i (finish_eq_next.mp h))
  | cmpa =>
    obtain ⟨c, v, hst⟩ := execCmpa_st h
    exact Status.follows_result (by rw [hst, Status.result_i])
  | dec | inc | swap =>
    have hst := singleUpdate_st (finish_eq_next.mp h)
    exact Status.follows_result (by rw [hst, Status.result_i])
  | decd =>
    obtain ⟨c, w, hst⟩ := execDecd_st h
    exact Status.follows_result (by rw [hst, Status.wideResult_i])
  | rr | rrc | rl | rlc => exact Status.follows_bit (singleUpdate_st (finish_eq_next.mp h))

end Sys2Proof.Machine

namespace Sys2Proof

/-- Settles O19: an instruction's status register follows its row of the STATUS column, family by family. -/
theorem statusColumnHolds : Obligations.StatusColumnHolds :=
  fun i _ _ h hpush => Machine.exec_follows_statusColumn i h hpush

end Sys2Proof

/-! SUPPORT. The first spelling of an instruction (spec/30_encoding.md R109) has the bytes and the meaning of the instruction it
stands for. -/

namespace Sys2Proof

open Sys2Proof.Machine (State exec)

/-- Only the seven second spellings are renamed; every other instruction is its own first spelling. -/
@[simp] theorem encode_canonical (i : Instr) : encode i.canonical = encode i := by
  cases i with
  | tsta | jeq | jhs | jgt | jge | jne | jl => rfl
  | _ => rfl

/-- The second spellings of the jumps test the condition of the first, and `TSTA` reads and tests A as `CLRC` does. -/
@[simp] theorem exec_canonical (i : Instr) (s : State) : exec i.canonical s = exec i s := by
  cases i with
  | tsta | jeq | jhs | jgt | jge | jne | jl => rfl
  | _ => rfl

/-- What R109 says of a pair, from the bytes of its second spelling and the decoder's answer to them. -/
theorem canonical_shares_bytes_and_meaning (i : Instr) {bs : List Byte} (s : State) (hbytes : encode i = bs)
    (hdecode : decode bs = .ok (i.canonical, [])) :
    encode i.canonical = bs ∧ encode i = bs ∧ exec i s = exec i.canonical s ∧ decode bs = .ok (i.canonical, []) :=
  ⟨(encode_canonical i).trans hbytes, hbytes, (exec_canonical i s).symm, hdecode⟩

/-- Settles O5: each pair is a second spelling and its canonical one, and decoding a concrete opcode is evaluation. -/
theorem sharedOpcodesAreOneInstruction : Obligations.SharedOpcodesAreOneInstruction :=
  fun ofst s =>
    ⟨canonical_shares_bytes_and_meaning .tsta s rfl rfl,
     canonical_shares_bytes_and_meaning (.jeq ofst) s rfl rfl,
     canonical_shares_bytes_and_meaning (.jhs ofst) s rfl rfl,
     canonical_shares_bytes_and_meaning (.jgt ofst) s rfl rfl,
     canonical_shares_bytes_and_meaning (.jge ofst) s rfl rfl,
     canonical_shares_bytes_and_meaning (.jne ofst) s rfl rfl,
     canonical_shares_bytes_and_meaning (.jl ofst) s rfl rfl⟩

end Sys2Proof

/-! SUPPORT. The dual-operand instructions (spec/30_encoding.md R100, spec/40_dual_arith.md R120): the bytes of the seven forms from
the low digit of the opcode, and the whole state after an instruction whose operands are available. -/

namespace Sys2Proof

/-- The form gives the high digit of the opcode and the operand bytes, the instruction the low digit (R81, R100). -/
theorem dualEncoding_of_encodeDual {mk : DualForm → Instr} {l : Byte} (h : ∀ f, encode (mk f) = encodeDual l f) :
    DualEncoding mk (0x60#8 + l) (0x10#8 + l) (0x30#8 + l) (0x40#8 + l) (0x20#8 + l) (0x50#8 + l) (0x70#8 + l) :=
  ⟨h .ba, fun rs => h (.ra rs), fun rs => h (.rb rs), fun rs rd => h (.rr rs rd), fun v => h (.ia v), fun v => h (.ib v),
    fun v rd => h (.ir v rd)⟩

namespace Machine

variable {s : State}

/-- Storing a byte in a register and then setting the flags of a result is the one update `State.put`. -/
theorem State.setReg_result_eq_put (s : State) (n w : Byte) (c : Bool) (v : Byte) :
    { s.setReg n w with st := s.st.result c v } = s.put n w (s.flags c v) := by
  rw [Status.result_eq_flags]
  rfl

/-- With both operands available, the destination gets the value of the operation, C its carry, N and Z the value (R120). -/
theorem dualUpdate_of_available (op : Byte → Byte → Bool → Alu) {f : DualForm} {r : Alu} (h : f.Available s)
    (hr : op (f.source.value s) (s.reg f.dest) s.st.c = r) :
    finish (dualUpdate op f s) = .next (s.put f.dest r.value (s.flags r.carry r.value)) := by
  subst hr
  rw [finish_eq_next, dualUpdate_eq_ok]
  exact ⟨_, _, readDual_of_available h, (State.setReg_result_eq_put ..).symm⟩

/-- With both operands available, `MOV` stores the source in the destination and sets the flags by it (R141). -/
theorem execMov_of_available {f : MovForm} (h : f.Available s) :
    execMov f s = .next (s.put f.dest (f.source.value s) (s.flags false (f.source.value s))) := by
  obtain ⟨hsource, hdest⟩ := h
  simp only [execMov, readOperand_of_available hsource, regWrite_of_hasReg _ hdest, ok_bind, finish_ok, State.setReg_st,
    State.setReg_result_eq_put]

end Machine

open Sys2Proof.Machine (dualUpdate_of_available execMov_of_available)

/-- Settles O32: the seven forms of the grid have low digit 2, the other three their own opcodes; each reads its source and
writes its destination. -/
theorem moveResult : Obligations.MoveResult :=
  ⟨dualEncoding_of_encodeDual (l := 0x2#8) fun _ => rfl, rfl, fun _ => rfl, fun _ => rfl,
    fun _ _ h => execMov_of_available h⟩

/-- Settles O33: low digits 3, 4 and 5, and the shared update with an operation that always clears C. -/
theorem logicResult : Obligations.LogicResult := by
  refine ⟨dualEncoding_of_encodeDual (l := 0x3#8) fun _ => rfl, dualEncoding_of_encodeDual (l := 0x4#8) fun _ => rfl,
    dualEncoding_of_encodeDual (l := 0x5#8) fun _ => rfl, ?_⟩
  rintro f s h x d rfl rfl
  exact ⟨dualUpdate_of_available (fun x d _ => Machine.andBytes x d) h rfl,
    dualUpdate_of_available (fun x d _ => Machine.orBytes x d) h rfl,
    dualUpdate_of_available (fun x d _ => Machine.xorBytes x d) h rfl⟩

end Sys2Proof

/-! SUPPORT. The single-operand instructions (spec/30_encoding.md R101, spec/43_single_operand.md R170): the bytes of the three forms
from the low digit of the opcode, the whole state after an instruction whose operand exists, and the rotates bit by bit. -/

namespace Sys2Proof

/-- The form gives the high digit of the opcode and the operand byte, the instruction the low digit (R101). -/
theorem singleEncoding_of_encodeSingle {mk : Single → Instr} {l : Byte} (h : ∀ d, encode (mk d) = encodeSingle l d) :
    SingleEncoding mk (0xB0#8 + l) (0xC0#8 + l) (0xD0#8 + l) :=
  ⟨h .a, h .b, fun n => h (.r n)⟩

namespace Machine

/-! ### The rotates (R184 to R187) -/

/-- A byte moved right by one bit, the bit `b` coming in above. -/
theorem shiftRight_or_ofBool (v : Byte) (b : Bool) :
    v >>> 1 ||| (BitVec.ofBool b).setWidth 8 <<< 7 = BitVec.ofBool b ++ v.extractLsb' 1 7 := by
  apply BitVec.eq_of_getLsbD_eq
  intro i hi
  rw [BitVec.getLsbD_append (x := BitVec.ofBool b)]
  obtain hlow | rfl : i < 7 ∨ i = 7 := by omega
  · simp [hlow]
  · simp

/-- A byte moved left by one bit, the bit `b` coming in below. -/
theorem shiftLeft_or_ofBool (v : Byte) (b : Bool) :
    v <<< 1 ||| (BitVec.ofBool b).setWidth 8 = v.extractLsb' 0 7 ++ BitVec.ofBool b := by
  apply BitVec.eq_of_getLsbD_eq
  intro i hi
  rw [BitVec.getLsbD_append (y := BitVec.ofBool b)]
  cases i with
  | zero => simp
  | succ j =>
    have hj : j < 7 := by omega
    simp [hj, hi, BitVec.getLsbD_eq_getElem (show j < 8 by omega)]

/-- A bit as the field of width 1 at its place. -/
theorem ofBool_getLsbD (v : Byte) (n : Nat) : BitVec.ofBool (v.getLsbD n) = v.extractLsb' n 1 := by
  apply BitVec.eq_of_getLsbD_eq
  intro i hi
  obtain rfl : i = 0 := by omega
  simp

theorem rotateRight_eq (v : Byte) :
    rotateRight v = ⟨v.extractLsb' 0 1 ++ v.extractLsb' 1 7, v.getLsbD 0⟩ := by
  rw [rotateRight, shiftRight_or_ofBool, ofBool_getLsbD]

theorem rotateRightCarry_eq (v : Byte) (c : Bool) :
    rotateRightCarry v c = ⟨BitVec.ofBool c ++ v.extractLsb' 1 7, v.getLsbD 0⟩ := by
  rw [rotateRightCarry, shiftRight_or_ofBool]

theorem rotateLeft_eq (v : Byte) :
    rotateLeft v = ⟨v.extractLsb' 0 7 ++ v.extractLsb' 7 1, v.getLsbD 7⟩ := by
  rw [rotateLeft, shiftLeft_or_ofBool, ofBool_getLsbD]

theorem rotateLeftCarry_eq (v : Byte) (c : Bool) :
    rotateLeftCarry v c = ⟨v.extractLsb' 0 7 ++ BitVec.ofBool c, v.getLsbD 7⟩ := by
  rw [rotateLeftCarry, shiftLeft_or_ofBool]

/-! ### The whole state after a single-operand instruction -/

variable {s : State}

/-- With its register there, the operand gets the value of the operation, C its carry, N and Z the value (R170). -/
theorem singleUpdate_of_hasReg (op : Byte → Bool → Alu) {d : Single} {v : Byte} {c : Bool} (h : s.HasReg d.num)
    (hop : op (s.reg d.num) s.st.c = ⟨v, c⟩) :
    finish (singleUpdate op d s) = .next (s.put d.num v (s.flags c v)) := by
  rw [finish_eq_next, singleUpdate_eq_ok, hop]
  exact ⟨h, (State.setReg_result_eq_put ..).symm⟩

/-- With its register there, `CLR` stores 0 in it, whose flags are N = 0 and Z = 1 (R174). -/
theorem execClr_of_hasReg {d : Single} (h : s.HasReg d.num) :
    execClr d s = .next (s.put d.num 0x00#8 ⟨false, false, true, s.st.i⟩) := by
  rw [execClr, regWrite_of_hasReg _ h]
  rfl

end Machine

open Sys2Proof.Machine (execClr_of_hasReg singleUpdate_of_hasReg rotateRight rotateRightCarry rotateLeft rotateLeftCarry
  rotateRight_eq rotateRightCarry_eq rotateLeft_eq rotateLeftCarry_eq invByte)

/-- Settles O43: low digits 4 and 5; `INV` is the shared update with the complement, `CLR` a store of 0. -/
theorem invertAndClearResult : Obligations.InvertAndClearResult :=
  ⟨singleEncoding_of_encodeSingle (l := 0x4#8) fun _ => rfl, singleEncoding_of_encodeSingle (l := 0x5#8) fun _ => rfl,
    fun _ _ h => ⟨singleUpdate_of_hasReg (fun v _ => invByte v) h rfl, execClr_of_hasReg h⟩⟩

/-- Settles O46: low digits C to F, and the shared update with each of the four rotates. -/
theorem rotateResult : Obligations.RotateResult := by
  refine ⟨singleEncoding_of_encodeSingle (l := 0xC#8) fun _ => rfl,
    singleEncoding_of_encodeSingle (l := 0xD#8) fun _ => rfl, singleEncoding_of_encodeSingle (l := 0xE#8) fun _ => rfl,
    singleEncoding_of_encodeSingle (l := 0xF#8) fun _ => rfl, ?_⟩
  rintro d s h v rfl i r c hi
  simp only [List.mem_cons, List.not_mem_nil, or_false, Prod.mk.injEq] at hi
  obtain ⟨rfl, rfl, rfl⟩ | ⟨rfl, rfl, rfl⟩ | ⟨rfl, rfl, rfl⟩ | ⟨rfl, rfl, rfl⟩ := hi
  · exact singleUpdate_of_hasReg (fun v _ => rotateRight v) h (rotateRight_eq _)
  · exact singleUpdate_of_hasReg rotateRightCarry h (rotateRightCarry_eq _ _)
  · exact singleUpdate_of_hasReg (fun v _ => rotateLeft v) h (rotateLeft_eq _)
  · exact singleUpdate_of_hasReg rotateLeftCarry h (rotateLeftCarry_eq _ _)

end Sys2Proof

/-! SUPPORT. The control instructions without operands (spec/46_control.md R230, R232 to R234, R236, R239): the whole state after
the instructions that touch only the status bits, and after the transfers between B and `sp`. -/

namespace Sys2Proof

namespace Machine

variable (s : State)

/-- `EINT` sets all four status bits, not I alone (R232). -/
theorem execEint_eq : execEint s = .next { s with st := ⟨true, true, true, true⟩ } := rfl

/-- `DINT` clears all four status bits, not I alone (R233). -/
theorem execDint_eq : execDint s = .next { s with st := ⟨false, false, false, false⟩ } := rfl

/-- B exists on every platform, so the store of `STSP` cannot be refused (R236). -/
theorem execStsp_eq : execStsp s = .next (s.setReg 1#8 s.sp) := by
  rw [execStsp, regWrite_b, finish_ok]

/-- B exists on every platform, so the read of `LDSP` cannot be refused (R239). -/
theorem execLdsp_eq : execLdsp s = .next { s with sp := s.b } := by
  rw [execLdsp, regRead_b, ok_bind, finish_ok]

end Machine

open Sys2Proof.Machine (execEint_eq execDint_eq execStsp_eq execLdsp_eq)

/-- Settles O51: four one-byte opcodes; `NOP` answers its own state, the other three replace the status register alone. -/
theorem statusInstructionsResult : Obligations.StatusInstructionsResult :=
  ⟨rfl, rfl, rfl, rfl, fun s => ⟨rfl, execEint_eq s, execDint_eq s, rfl⟩⟩

/-- Settles O52: the transfers are a store into B and a read of B, which exists on every platform. -/
theorem stackPointerTransfersResult : Obligations.StackPointerTransfersResult :=
  ⟨rfl, rfl, fun s => ⟨execStsp_eq s, execLdsp_eq s⟩⟩

end Sys2Proof

/-! SUPPORT. The decoder and the encoder are inverse to each other (spec/30_encoding.md R80, R82, R102, R107). One
lemma for each piece of the decoder says which bytes it read; the opcode is put together from its two digits by
`opcode_of_digits`. -/

namespace Sys2Proof

open Sys2Proof.Machine (hiByte loByte wordOf hiByte_append loByte_append)

/-! ### Sequencing -/

@[simp] theorem Decoded.ok_bind {α β : Type} (a : α) (f : α → Decoded β) :
    ((Except.ok a : Decoded α) >>= f) = f a := rfl

/-- A sequence of decoders succeeds where both of its parts do. -/
theorem Decoded.bind_eq_ok {α β : Type} {x : Decoded α} {f : α → Decoded β} {b : β} :
    (x >>= f) = .ok b ↔ ∃ a, x = .ok a ∧ f a = .ok b := by
  cases x with
  | error e => exact ⟨nofun, fun ⟨_, h, _⟩ => nomatch h⟩
  | ok a => exact ⟨fun h => ⟨a, rfl, h⟩, fun ⟨_, h, hf⟩ => Except.ok.inj h ▸ hf⟩

/-! ### From an instruction to its bytes and back -/

/-- A 16-bit value is its two bytes, high byte first (R51). -/
theorem wordOf_hiByte_loByte (w : Addr) : wordOf (hiByte w) (loByte w) = w := by
  apply BitVec.eq_of_getLsbD_eq
  intro i hi
  simp only [wordOf, hiByte, loByte, BitVec.getLsbD_append, BitVec.getLsbD_extractLsb']
  by_cases h : i < 8
  · simp [h]
  · have h8 : i - 8 < 8 := by omega
    simp [h, h8, show 8 + (i - 8) = i by omega]

/-- The decoder on the bytes of an instruction: the high digit of the opcode gives back the form, the low digit the
operation, and a 16-bit field its two bytes. -/
theorem decode_encode (i : Instr) (rest : List Byte) (h : WellFormed i = true) :
    decode (encode i ++ rest) = .ok (i.canonical, rest) := by
  cases i with
  | mov f =>
    cases f with
    | dual f => cases f <;> simp only [encode, encodeDual, DualForm.column] <;> rfl
    | ab | ar | br => rfl
  | and f | or f | xor f | btjo f | btjz f | add f | adc f | sub f | sbb f | mpy f | cmp f | dac f | dsb f =>
    cases f <;> simp only [encode, encodeDual, DualForm.column] <;> rfl
  | movp f =>
    cases f with
    | toPeriph src => cases src <;> rfl
    | toA | toB => rfl
  | andp src | orp src | xorp src | btjop src | btjzp src => cases src <;> rfl
  | movd f =>
    cases f with
    | imm w | immB w =>
      rw [← wordOf_hiByte_loByte w]
      simp only [encode, wordOf, hiByte_append, loByte_append]
      rfl
    | pair => rfl
  | lda f | sta f | br f | cmpa f | call f =>
    cases f with
    | direct w | indexed w =>
      rw [← wordOf_hiByte_loByte w]
      simp only [encode, encodeExtended, wordOf, hiByte_append, loByte_append]
      rfl
    | indirect => rfl
  | dec d | inc d | inv d | clr d | swap d | push d | pop d | djnz d | decd d | rr d | rrc d | rl d | rlc d =>
    cases d <;> rfl
  | xchb d =>
    cases d with
    | a | r => rfl
    | b => exact absurd h (by decide)
  | trap n =>
    have hn : n < 24 := of_decide_eq_true h
    interval_cases n <;> rfl
  | _ => rfl

/-- Settles O2: the decoder on the bytes of each form of each instruction. -/
theorem decodeOfEncode : Obligations.DecodeOfEncode := decode_encode

/-- Settles O1: each word is the encoding of its instruction, and decoding it is evaluation. -/
theorem sampleWordsDecode : Obligations.SampleWordsDecode := by
  unfold Obligations.SampleWordsDecode
  and_intros <;> rfl

/-! ### What each piece of the decoder reads -/

variable {op v : Byte} {bs rest : List Byte} {i : Instr} {h l : Nat}

theorem nextByte_eq_ok : nextByte bs = .ok (v, rest) ↔ bs = v :: rest := by
  cases bs <;> simp [nextByte]

theorem nextWord_eq_ok {w : Addr} : nextWord bs = .ok (w, rest) ↔ bs = hiByte w :: loByte w :: rest := by
  simp only [nextWord, Decoded.bind_eq_ok, Prod.exists, nextByte_eq_ok, Except.ok.injEq, Prod.mk.injEq]
  constructor
  · rintro ⟨hi, _, rfl, lo, _, rfl, rfl, rfl⟩
    rw [wordOf, hiByte_append, loByte_append]
  · rintro rfl
    exact ⟨_, _, rfl, _, _, rfl, wordOf_hiByte_loByte w, rfl⟩

/-- The opcode is its high digit and its low digit (R81). -/
theorem opcode_of_digits (hh : op.toNat / 16 = h) (hl : op.toNat % 16 = l) : op = BitVec.ofNat 8 (16 * h + l) := by
  apply BitVec.eq_of_toNat_eq
  have := op.isLt
  rw [BitVec.toNat_ofNat]
  omega

theorem opcode_eq_add {low : Byte} (hh : op.toNat / 16 = h) (hl : op.toNat % 16 = low.toNat) :
    op = BitVec.ofNat 8 (16 * h) + low := by
  rw [opcode_of_digits hh hl, ← BitVec.ofNat_add_ofNat, BitVec.ofNat_toNat, BitVec.setWidth_eq]

theorem nextDualForm_eq_ok {f : DualForm} {low : Byte} (h1 : 1 ≤ op.toNat / 16) (h7 : op.toNat / 16 ≤ 7)
    (hl : op.toNat % 16 = low.toNat) (hr : nextDualForm (op.toNat / 16) bs = .ok (f, rest)) :
    op :: bs = encodeDual low f ++ rest := by
  generalize hh : op.toNat / 16 = h at h1 h7 hr
  rw [opcode_eq_add hh hl]
  have hforms : (h = 1 ∨ h = 2 ∨ h = 3 ∨ h = 5) ∨ (h = 4 ∨ h = 7) ∨ h = 6 := by omega
  obtain hone | htwo | rfl := hforms
  · rcases hone with rfl | rfl | rfl | rfl <;>
      simp only [nextDualForm, Decoded.bind_eq_ok, Prod.exists, nextByte_eq_ok, Except.ok.injEq, Prod.mk.injEq] at hr <;>
      obtain ⟨_, _, rfl, rfl, rfl⟩ := hr <;> rfl
  · rcases htwo with rfl | rfl <;>
      simp only [nextDualForm, Decoded.bind_eq_ok, Prod.exists, nextByte_eq_ok, Except.ok.injEq, Prod.mk.injEq] at hr <;>
      obtain ⟨_, _, rfl, _, _, rfl, rfl, rfl⟩ := hr <;> rfl
  · obtain ⟨rfl, rfl⟩ := hr
    rfl

theorem nextPeriphSource_eq_ok {src : PeriphSource} {pn low : Byte} (h8 : 8 ≤ op.toNat / 16) (hA : op.toNat / 16 ≤ 0xA)
    (hl : op.toNat % 16 = low.toNat) (hr : nextPeriphSource (op.toNat / 16) bs = .ok (src, pn :: rest)) :
    op :: bs = encodePeriph low src pn ++ rest := by
  generalize hh : op.toNat / 16 = h at h8 hA hr
  rw [opcode_eq_add hh hl]
  obtain rfl | rfl | rfl : h = 8 ∨ h = 9 ∨ h = 0xA := by omega
  · obtain ⟨rfl, rfl⟩ := hr
    rfl
  · obtain ⟨rfl, rfl⟩ := hr
    rfl
  · simp only [nextPeriphSource, Decoded.bind_eq_ok, Prod.exists, nextByte_eq_ok, Except.ok.injEq, Prod.mk.injEq] at hr
    obtain ⟨_, _, rfl, rfl, rfl⟩ := hr
    rfl

theorem nextExtForm_eq_ok {f : ExtForm} {low : Byte} (h8 : 8 ≤ op.toNat / 16) (hA : op.toNat / 16 ≤ 0xA)
    (hl : op.toNat % 16 = low.toNat) (hr : nextExtForm (op.toNat / 16) bs = .ok (f, rest)) :
    op :: bs = encodeExtended low f ++ rest := by
  generalize hh : op.toNat / 16 = h at h8 hA hr
  rw [opcode_eq_add hh hl]
  interval_cases h <;>
    simp only [nextExtForm, Decoded.bind_eq_ok, Prod.exists, nextByte_eq_ok, nextWord_eq_ok, Except.ok.injEq,
      Prod.mk.injEq] at hr <;>
    obtain ⟨_, _, rfl, rfl, rfl⟩ := hr <;> rfl

theorem nextMovdForm_eq_ok {f : MovdForm} (h8 : 8 ≤ op.toNat / 16) (hA : op.toNat / 16 ≤ 0xA)
    (hl : op.toNat % 16 = 8) (hr : nextMovdForm (op.toNat / 16) bs = .ok (f, rest)) :
    op :: bs = encode (.movd f) ++ rest := by
  generalize hh : op.toNat / 16 = h at h8 hA hr
  rw [opcode_of_digits hh hl]
  interval_cases h <;>
    simp only [nextMovdForm, Decoded.bind_eq_ok, Prod.exists, nextByte_eq_ok, nextWord_eq_ok, Except.ok.injEq,
      Prod.mk.injEq] at hr <;>
    obtain ⟨_, _, rfl, _, _, rfl, rfl, rfl⟩ := hr <;> rfl

theorem nextSingle_eq_ok {d : Single} {low : Byte} (hB : 0xB ≤ op.toNat / 16) (hD : op.toNat / 16 ≤ 0xD)
    (hl : op.toNat % 16 = low.toNat) (hr : nextSingle (op.toNat / 16) bs = .ok (d, rest)) :
    op :: bs = encodeSingle low d ++ rest := by
  generalize hh : op.toNat / 16 = h at hB hD hr
  rw [opcode_eq_add hh hl]
  obtain rfl | rfl | rfl : h = 0xB ∨ h = 0xC ∨ h = 0xD := by omega
  · obtain ⟨rfl, rfl⟩ := hr
    rfl
  · obtain ⟨rfl, rfl⟩ := hr
    rfl
  · simp only [nextSingle, Decoded.bind_eq_ok, Prod.exists, nextByte_eq_ok, Except.ok.injEq, Prod.mk.injEq] at hr
    obtain ⟨_, _, rfl, rfl, rfl⟩ := hr
    rfl

/-! ### What each row of the opcode map reads -/

/-- The bytes begin with a well-formed instruction in its first spelling, and `rest` follows it. -/
def BeginsWith (bs : List Byte) (i : Instr) (rest : List Byte) : Prop :=
  WellFormed i = true ∧ i.canonical = i ∧ bs = encode i ++ rest

theorem decodeImplied_beginsWith (h0 : op.toNat / 16 = 0) (hd : decodeImplied op (op.toNat % 16) bs = .ok (i, rest)) :
    BeginsWith (op :: bs) i rest := by
  unfold decodeImplied at hd
  split at hd
  case h_12 => cases hd
  all_goals
    next hlow =>
      obtain ⟨rfl, rfl⟩ := hd
      exact ⟨rfl, rfl, by rw [opcode_of_digits h0 hlow]; rfl⟩

theorem decodeDual_beginsWith (h1 : 1 ≤ op.toNat / 16) (h7 : op.toNat / 16 ≤ 7)
    (hd : decodeDual op (op.toNat / 16) (op.toNat % 16) bs = .ok (i, rest)) : BeginsWith (op :: bs) i rest := by
  unfold decodeDual at hd
  split at hd
  · cases hd
  next h2 =>
  simp only [Decoded.bind_eq_ok, Prod.exists] at hd
  obtain ⟨f, bs', hf, hd⟩ := hd
  have hbytes {low : Byte} (hl : op.toNat % 16 = low.toNat) := nextDualForm_eq_ok h1 h7 hl hf
  split at hd
  case h_5 hlow | h_6 hlow =>
    simp only [Decoded.bind_eq_ok, Prod.exists, nextByte_eq_ok, Except.ok.injEq, Prod.mk.injEq] at hd
    obtain ⟨_, _, rfl, rfl, rfl⟩ := hd
    exact ⟨rfl, rfl, by rw [encode, List.append_assoc]; exact hbytes hlow⟩
  case h_14 =>
    have hlow : op.toNat % 16 = 0xF := by grind
    obtain ⟨rfl, rfl⟩ := hd
    exact ⟨rfl, rfl, hbytes hlow⟩
  all_goals
    next hlow =>
      obtain ⟨rfl, rfl⟩ := hd
      exact ⟨rfl, rfl, hbytes hlow⟩

theorem decodePeriph_beginsWith (h8 : 8 ≤ op.toNat / 16) (hA : op.toNat / 16 ≤ 0xA) (hl : op.toNat % 16 < 8)
    (hd : decodePeriph op (op.toNat / 16) (op.toNat % 16) bs = .ok (i, rest)) : BeginsWith (op :: bs) i rest := by
  have hbytes : ∀ {src pn rest} {low : Byte}, op.toNat % 16 = low.toNat →
      nextPeriphSource (op.toNat / 16) bs = .ok (src, pn :: rest) → op :: bs = encodePeriph low src pn ++ rest :=
    fun hl => nextPeriphSource_eq_ok h8 hA hl
  unfold decodePeriph at hd
  split at hd
  case h_1 hlow | h_2 hlow =>
    split at hd
    · next hh =>
      simp only [Decoded.bind_eq_ok, Prod.exists, nextByte_eq_ok, Except.ok.injEq, Prod.mk.injEq] at hd
      obtain ⟨_, _, rfl, rfl, rfl⟩ := hd
      exact ⟨rfl, rfl, by rw [opcode_of_digits hh hlow]; rfl⟩
    · cases hd
  case h_3 =>
    simp only [Decoded.bind_eq_ok, Prod.exists, nextByte_eq_ok] at hd
    obtain ⟨_, _, hsrc, _, _, rfl, hd⟩ := hd
    split at hd
    case h_5 hlow =>
      simp only [Decoded.bind_eq_ok, Prod.exists, nextByte_eq_ok, Except.ok.injEq, Prod.mk.injEq] at hd
      obtain ⟨_, _, rfl, rfl, rfl⟩ := hd
      exact ⟨rfl, rfl, by rw [encode, List.append_assoc]; exact hbytes hlow hsrc⟩
    case h_6 =>
      have hlow : op.toNat % 16 = 7 := by grind
      simp only [Decoded.bind_eq_ok, Prod.exists, nextByte_eq_ok, Except.ok.injEq, Prod.mk.injEq] at hd
      obtain ⟨_, _, rfl, rfl, rfl⟩ := hd
      exact ⟨rfl, rfl, by rw [encode, List.append_assoc]; exact hbytes hlow hsrc⟩
    all_goals
      next hlow =>
        obtain ⟨rfl, rfl⟩ := hd
        exact ⟨rfl, rfl, hbytes hlow hsrc⟩

theorem decodeExtended_beginsWith (h8 : 8 ≤ op.toNat / 16) (hA : op.toNat / 16 ≤ 0xA)
    (hd : decodeExtended op (op.toNat / 16) (op.toNat % 16) bs = .ok (i, rest)) : BeginsWith (op :: bs) i rest := by
  have hbytes : ∀ {f rest} {low : Byte}, op.toNat % 16 = low.toNat →
      nextExtForm (op.toNat / 16) bs = .ok (f, rest) → op :: bs = encodeExtended low f ++ rest :=
    fun hl => nextExtForm_eq_ok h8 hA hl
  unfold decodeExtended at hd
  split at hd
  case h_7 => cases hd
  case h_1 hlow =>
    simp only [Decoded.bind_eq_ok, Prod.exists, Except.ok.injEq, Prod.mk.injEq] at hd
    obtain ⟨f, _, hf, rfl, rfl⟩ := hd
    exact ⟨rfl, rfl, nextMovdForm_eq_ok h8 hA hlow hf⟩
  all_goals
    next hlow =>
      simp only [Decoded.bind_eq_ok, Prod.exists, Except.ok.injEq, Prod.mk.injEq] at hd
      obtain ⟨f, _, hf, rfl, rfl⟩ := hd
      exact ⟨rfl, rfl, hbytes hlow hf⟩

theorem decodeSingle_beginsWith (hB : 0xB ≤ op.toNat / 16) (hD : op.toNat / 16 ≤ 0xD)
    (hd : decodeSingle op (op.toNat / 16) (op.toNat % 16) bs = .ok (i, rest)) : BeginsWith (op :: bs) i rest := by
  have hbytes : ∀ {d rest} {low : Byte}, op.toNat % 16 = low.toNat →
      nextSingle (op.toNat / 16) bs = .ok (d, rest) → op :: bs = encodeSingle low d ++ rest :=
    fun hl => nextSingle_eq_ok hB hD hl
  have hlast : op.toNat / 16 ≠ 0xB → op.toNat / 16 ≠ 0xC → op.toNat / 16 = 0xD := by omega
  unfold decodeSingle at hd
  split at hd
  case h_1 hlow =>
    split at hd
    case h_1 hhigh | h_2 hhigh =>
      obtain ⟨rfl, rfl⟩ := hd
      exact ⟨rfl, rfl, by rw [opcode_of_digits hhigh hlow]; rfl⟩
    case h_3 hnB hnC =>
      simp only [Decoded.bind_eq_ok, Prod.exists, nextByte_eq_ok, Except.ok.injEq, Prod.mk.injEq] at hd
      obtain ⟨_, _, rfl, rfl, rfl⟩ := hd
      exact ⟨rfl, rfl, by rw [opcode_of_digits (hlast hnB hnC) hlow]; rfl⟩
  case h_2 hlow =>
    split at hd
    case h_1 => cases hd
    case h_2 hhigh =>
      obtain ⟨rfl, rfl⟩ := hd
      exact ⟨rfl, rfl, by rw [opcode_of_digits hhigh hlow]; rfl⟩
    case h_3 hnB hnC =>
      simp only [Decoded.bind_eq_ok, Prod.exists, nextByte_eq_ok, Except.ok.injEq, Prod.mk.injEq] at hd
      obtain ⟨_, _, rfl, rfl, rfl⟩ := hd
      exact ⟨rfl, rfl, by rw [opcode_of_digits (hlast hnB hnC) hlow]; rfl⟩
  case h_3 =>
    split at hd
    · cases hd
    next hC6 =>
    simp only [Decoded.bind_eq_ok, Prod.exists] at hd
    obtain ⟨d, _, hsrc, hd⟩ := hd
    split at hd
    case h_5 hlow =>
      obtain ⟨rfl, rfl⟩ := hd
      have hb := hbytes (low := 6#8) hlow hsrc
      refine ⟨?_, rfl, hb⟩
      cases d with
      | a | r => rfl
      | b =>
        obtain ⟨rfl, -⟩ := List.cons.inj hb
        exact absurd ⟨rfl, rfl⟩ hC6
    case h_9 hlow =>
      simp only [Decoded.bind_eq_ok, Prod.exists, nextByte_eq_ok, Except.ok.injEq, Prod.mk.injEq] at hd
      obtain ⟨_, _, rfl, rfl, rfl⟩ := hd
      exact ⟨rfl, rfl, by rw [encode, List.append_assoc]; exact hbytes hlow hsrc⟩
    case h_14 =>
      have hlow : op.toNat % 16 = 0xF := by grind
      obtain ⟨rfl, rfl⟩ := hd
      exact ⟨rfl, rfl, hbytes hlow hsrc⟩
    all_goals
      next hlow =>
        obtain ⟨rfl, rfl⟩ := hd
        exact ⟨rfl, rfl, hbytes hlow hsrc⟩

theorem decodeJump_beginsWith (hE : op.toNat / 16 = 0xE) (hl : op.toNat % 16 < 8)
    (hd : decodeJump op (op.toNat % 16) bs = .ok (i, rest)) : BeginsWith (op :: bs) i rest := by
  unfold decodeJump at hd
  split at hd
  · cases hd
  simp only [Decoded.bind_eq_ok, Prod.exists, nextByte_eq_ok] at hd
  obtain ⟨ofst, _, rfl, hd⟩ := hd
  split at hd
  case h_7 =>
    have hlow : op.toNat % 16 = 7 := by grind
    obtain ⟨rfl, rfl⟩ := hd
    exact ⟨rfl, rfl, by rw [opcode_of_digits hE hlow]; rfl⟩
  all_goals
    next hlow =>
      obtain ⟨rfl, rfl⟩ := hd
      exact ⟨rfl, rfl, by rw [opcode_of_digits hE hlow]; rfl⟩

theorem trap_beginsWith (h : 0xE8 ≤ op.toNat) : BeginsWith (op :: bs) (.trap (0xFF - op.toNat)) bs := by
  have := op.isLt
  refine ⟨decide_eq_true (by omega), rfl, ?_⟩
  rw [encode, show 0xFF - (0xFF - op.toNat) = op.toNat by omega, BitVec.ofNat_toNat, BitVec.setWidth_eq]
  rfl

/-- The rows of the opcode map, in the order in which the decoder tells them apart. -/
theorem decode_beginsWith (hd : decode bs = .ok (i, rest)) : BeginsWith bs i rest := by
  cases bs with
  | nil => cases hd
  | cons op bs =>
    have := op.isLt
    simp only [decode, nextByte, Decoded.ok_bind] at hd
    split at hd
    · next h0 => exact decodeImplied_beginsWith h0 hd
    split at hd
    · exact decodeDual_beginsWith (by omega) (by omega) hd
    split at hd
    · split at hd
      · next hl => exact decodePeriph_beginsWith (by omega) (by omega) hl hd
      · exact decodeExtended_beginsWith (by omega) (by omega) hd
    split at hd
    · exact decodeSingle_beginsWith (by omega) (by omega) hd
    split at hd
    · exact decodeJump_beginsWith (by omega) (by omega) hd
    · obtain ⟨rfl, rfl⟩ := hd
      exact trap_beginsWith (by omega)

/-- Settles O3: row by row of the opcode map, the decoder puts together what the encoder takes apart. -/
theorem decodedBytesAreTheEncoding : Obligations.DecodedBytesAreTheEncoding :=
  fun _ _ _ hd => decode_beginsWith hd

end Sys2Proof

/-! SUPPORT. The opcode decides the length (spec/30_encoding.md R103, R106): the family EncodedLength of
Sys2Proof/Laws/PerInstr.lean taken together, and which opcodes the decoder rejects by name. -/

namespace Sys2Proof

/-! ### The length -/

theorem encodedLength (i : Instr) : Laws.EncodedLength.Statement i :=
  match i with
  | .nop => Laws.EncodedLength.nop
  | .idle => Laws.EncodedLength.idle
  | .eint => Laws.EncodedLength.eint
  | .dint => Laws.EncodedLength.dint
  | .setc => Laws.EncodedLength.setc
  | .popSt => Laws.EncodedLength.popSt
  | .stsp => Laws.EncodedLength.stsp
  | .rets => Laws.EncodedLength.rets
  | .reti => Laws.EncodedLength.reti
  | .ldsp => Laws.EncodedLength.ldsp
  | .pushSt => Laws.EncodedLength.pushSt
  | .mov f => Laws.EncodedLength.mov f
  | .and f => Laws.EncodedLength.and f
  | .or f => Laws.EncodedLength.or f
  | .xor f => Laws.EncodedLength.xor f
  | .btjo f ofst => Laws.EncodedLength.btjo f ofst
  | .btjz f ofst => Laws.EncodedLength.btjz f ofst
  | .add f => Laws.EncodedLength.add f
  | .adc f => Laws.EncodedLength.adc f
  | .sub f => Laws.EncodedLength.sub f
  | .sbb f => Laws.EncodedLength.sbb f
  | .mpy f => Laws.EncodedLength.mpy f
  | .cmp f => Laws.EncodedLength.cmp f
  | .dac f => Laws.EncodedLength.dac f
  | .dsb f => Laws.EncodedLength.dsb f
  | .movp f => Laws.EncodedLength.movp f
  | .andp src pn => Laws.EncodedLength.andp src pn
  | .orp src pn => Laws.EncodedLength.orp src pn
  | .xorp src pn => Laws.EncodedLength.xorp src pn
  | .btjop src pn ofst => Laws.EncodedLength.btjop src pn ofst
  | .btjzp src pn ofst => Laws.EncodedLength.btjzp src pn ofst
  | .movd f => Laws.EncodedLength.movd f
  | .lda f => Laws.EncodedLength.lda f
  | .sta f => Laws.EncodedLength.sta f
  | .br f => Laws.EncodedLength.br f
  | .cmpa f => Laws.EncodedLength.cmpa f
  | .call f => Laws.EncodedLength.call f
  | .clrc => Laws.EncodedLength.clrc
  | .tsta => Laws.EncodedLength.tsta
  | .dec d => Laws.EncodedLength.dec d
  | .inc d => Laws.EncodedLength.inc d
  | .inv d => Laws.EncodedLength.inv d
  | .clr d => Laws.EncodedLength.clr d
  | .xchb d => Laws.EncodedLength.xchb d
  | .swap d => Laws.EncodedLength.swap d
  | .push d => Laws.EncodedLength.push d
  | .pop d => Laws.EncodedLength.pop d
  | .djnz d ofst => Laws.EncodedLength.djnz d ofst
  | .decd d => Laws.EncodedLength.decd d
  | .rr d => Laws.EncodedLength.rr d
  | .rrc d => Laws.EncodedLength.rrc d
  | .rl d => Laws.EncodedLength.rl d
  | .rlc d => Laws.EncodedLength.rlc d
  | .tstb => Laws.EncodedLength.tstb
  | .jmp ofst => Laws.EncodedLength.jmp ofst
  | .jeq ofst => Laws.EncodedLength.jeq ofst
  | .jz ofst => Laws.EncodedLength.jz ofst
  | .jc ofst => Laws.EncodedLength.jc ofst
  | .jhs ofst => Laws.EncodedLength.jhs ofst
  | .jgt ofst => Laws.EncodedLength.jgt ofst
  | .jp ofst => Laws.EncodedLength.jp ofst
  | .jge ofst => Laws.EncodedLength.jge ofst
  | .jpz ofst => Laws.EncodedLength.jpz ofst
  | .jne ofst => Laws.EncodedLength.jne ofst
  | .jnz ofst => Laws.EncodedLength.jnz ofst
  | .jl ofst => Laws.EncodedLength.jl ofst
  | .jnc ofst => Laws.EncodedLength.jnc ofst
  | .trap n => Laws.EncodedLength.trap n

/-- The bytes of an instruction are an opcode and the operand bytes the opcode asks for (R106). -/
theorem encode_eq_opcode_operands {i : Instr} (h : WellFormed i = true) :
    ∃ op operands, encode i = op :: operands ∧ instrLength op = some (1 + operands.length) := by
  have hlen := encodedLength i h
  cases he : encode i with
  | nil => rw [he] at hlen; cases hlen
  | cons op operands =>
    rw [he] at hlen
    exact ⟨op, operands, rfl, by rw [Nat.add_comm]; exact hlen⟩

theorem instrLength_eq_none_iff : ∀ op : Byte, instrLength op = none ↔ op.toNat ∈ unassignedOpcodes := by
  decide

/-! ### The rejected opcodes -/

/-- A decoder that may run out of bytes but rejects no opcode. -/
def NeverUnassigned {α : Type} (x : Decoded α) : Prop := ∀ op, x ≠ .error (.unassigned op)

variable {α β : Type} {op : Byte} {bs : List Byte}

theorem neverUnassigned_ok (a : α) : NeverUnassigned (.ok a) := fun _ => nofun

theorem NeverUnassigned.bind {x : Decoded α} {f : α → Decoded β} (hx : NeverUnassigned x)
    (hf : ∀ a, NeverUnassigned (f a)) : NeverUnassigned (x >>= f) := by
  cases x with
  | error e => exact fun op h => hx op (congrArg Except.error (Except.error.inj h))
  | ok a => exact hf a

theorem neverUnassigned_nextByte (bs : List Byte) : NeverUnassigned (nextByte bs) := by
  cases bs <;> exact fun _ => nofun

/-- One more byte is read and the rest is put together. -/
theorem neverUnassigned_byteThen {g : Byte × List Byte → α} (bs : List Byte) :
    NeverUnassigned (nextByte bs >>= fun r => .ok (g r)) :=
  (neverUnassigned_nextByte bs).bind fun r => neverUnassigned_ok (g r)

theorem neverUnassigned_nextWord (bs : List Byte) : NeverUnassigned (nextWord bs) :=
  (neverUnassigned_nextByte bs).bind fun _ => neverUnassigned_byteThen _

theorem neverUnassigned_nextDualForm (h : Nat) (bs : List Byte) : NeverUnassigned (nextDualForm h bs) := by
  unfold nextDualForm
  split
  case h_4 | h_7 => exact (neverUnassigned_nextByte bs).bind fun _ => neverUnassigned_byteThen _
  case h_6 => exact neverUnassigned_ok _
  all_goals exact neverUnassigned_byteThen bs

theorem neverUnassigned_nextPeriphSource (h : Nat) (bs : List Byte) : NeverUnassigned (nextPeriphSource h bs) := by
  unfold nextPeriphSource
  split
  case h_3 => exact neverUnassigned_byteThen bs
  all_goals exact neverUnassigned_ok _

theorem neverUnassigned_nextExtForm (h : Nat) (bs : List Byte) : NeverUnassigned (nextExtForm h bs) := by
  unfold nextExtForm
  split
  case h_2 => exact neverUnassigned_byteThen bs
  all_goals exact (neverUnassigned_nextWord bs).bind fun _ => neverUnassigned_ok _

theorem neverUnassigned_nextMovdForm (h : Nat) (bs : List Byte) : NeverUnassigned (nextMovdForm h bs) := by
  unfold nextMovdForm
  split
  case h_2 => exact (neverUnassigned_nextByte bs).bind fun _ => neverUnassigned_byteThen _
  all_goals exact (neverUnassigned_nextWord bs).bind fun _ => neverUnassigned_byteThen _

theorem neverUnassigned_nextSingle (h : Nat) (bs : List Byte) : NeverUnassigned (nextSingle h bs) := by
  unfold nextSingle
  split
  case h_3 => exact neverUnassigned_byteThen bs
  all_goals exact neverUnassigned_ok _

/-! ### The rows of the opcode map -/

variable {h l : Nat}

theorem decodeImplied_neverUnassigned (hl : l < 16) (hassigned : l ∉ [0x2, 0x3, 0x4, 0xC, 0xF]) :
    NeverUnassigned (decodeImplied op l bs) := by
  unfold decodeImplied
  split
  case h_12 =>
    simp only [List.mem_cons, List.not_mem_nil, or_false] at hassigned
    grind
  all_goals exact neverUnassigned_ok _

theorem decodeDual_neverUnassigned (hl : 2 ≤ l) : NeverUnassigned (decodeDual op h l bs) := by
  unfold decodeDual
  rw [if_neg (by omega)]
  refine (neverUnassigned_nextDualForm h bs).bind fun ⟨f, bs⟩ => ?_
  dsimp only
  split
  case h_5 | h_6 => exact neverUnassigned_byteThen bs
  all_goals exact neverUnassigned_ok _

theorem decodePeriph_neverUnassigned (h0 : l = 0 → h = 8) (h1 : l = 1 → h = 9) :
    NeverUnassigned (decodePeriph op h l bs) := by
  unfold decodePeriph
  split
  · rw [if_pos (h0 rfl)]
    exact neverUnassigned_byteThen bs
  · rw [if_pos (h1 rfl)]
    exact neverUnassigned_byteThen bs
  · refine (neverUnassigned_nextPeriphSource h bs).bind fun ⟨src, bs⟩ => ?_
    refine (neverUnassigned_nextByte bs).bind fun ⟨pn, bs⟩ => ?_
    dsimp only
    split
    case h_5 | h_6 => exact neverUnassigned_byteThen bs
    all_goals exact neverUnassigned_ok _

theorem decodeExtended_neverUnassigned (h8 : 8 ≤ l) (hE : l ≤ 0xE) (h9 : l ≠ 9) :
    NeverUnassigned (decodeExtended op h l bs) := by
  unfold decodeExtended
  split
  case h_1 => exact (neverUnassigned_nextMovdForm h bs).bind fun _ => neverUnassigned_ok _
  case h_7 => grind
  all_goals exact (neverUnassigned_nextExtForm h bs).bind fun _ => neverUnassigned_ok _

theorem decodeSingle_neverUnassigned (hB1 : l = 1 → h ≠ 0xB) (hC6 : ¬ (h = 0xC ∧ l = 6)) :
    NeverUnassigned (decodeSingle op h l bs) := by
  unfold decodeSingle
  split
  · split
    case h_3 => exact neverUnassigned_byteThen bs
    all_goals exact neverUnassigned_ok _
  · split
    case h_1 => exact absurd rfl (hB1 rfl)
    case h_2 => exact neverUnassigned_ok _
    case h_3 => exact neverUnassigned_byteThen bs
  · rw [if_neg hC6]
    refine (neverUnassigned_nextSingle h bs).bind fun ⟨d, bs⟩ => ?_
    dsimp only
    split
    case h_9 => exact neverUnassigned_byteThen bs
    all_goals exact neverUnassigned_ok _

theorem decodeJump_neverUnassigned (hl : l ≠ 1) : NeverUnassigned (decodeJump op l bs) := by
  unfold decodeJump
  rw [if_neg hl]
  refine (neverUnassigned_nextByte bs).bind fun ⟨ofst, bs⟩ => ?_
  dsimp only
  split <;> exact neverUnassigned_ok _

/-- The opcodes the list leaves out are those each row has a meaning for. -/
theorem decode_neverUnassigned (hop : op.toNat ∉ unassignedOpcodes) : NeverUnassigned (decode (op :: bs)) := by
  have := op.isLt
  simp only [unassignedOpcodes, List.mem_cons, not_or] at hop
  simp only [decode, nextByte, Decoded.ok_bind]
  split
  · exact decodeImplied_neverUnassigned (by omega) (by simp; omega)
  split
  · exact decodeDual_neverUnassigned (by omega)
  split
  · split
    · exact decodePeriph_neverUnassigned (by omega) (by omega)
    · exact decodeExtended_neverUnassigned (by omega) (by omega) (by omega)
  split
  · exact decodeSingle_neverUnassigned (by omega) (by omega)
  split
  · exact decodeJump_neverUnassigned (by omega)
  · exact neverUnassigned_ok _

theorem decode_unassigned (hop : op.toNat ∈ unassignedOpcodes) : decode (op :: bs) = .error (.unassigned op) := by
  have hrows : ∀ k ∈ unassignedOpcodes, decode (BitVec.ofNat 8 k :: bs) = .error (.unassigned (BitVec.ofNat 8 k)) := by
    intro k hk
    fin_cases hk <;> rfl
  simpa using hrows op.toNat hop

/-- Settles O4: the lengths are those of the family EncodedLength; row by row of the opcode map, the decoder rejects
an opcode exactly where the list of R103 has it. -/
theorem opcodeDecidesLength : Obligations.OpcodeDecidesLength :=
  ⟨fun _ h => encode_eq_opcode_operands h, instrLength_eq_none_iff, fun op _ =>
    ⟨fun hd => by_contra fun hop => decode_neverUnassigned hop op hd, decode_unassigned⟩⟩

end Sys2Proof

/-! SUPPORT. One lemma for each meaning that says everything it can do where it answers a next state. The frame of
every instruction is read off these lemmas; no later proof unfolds a meaning to know what it leaves behind. -/

namespace Sys2Proof.Machine

variable {s t : State}

/-! ### Control (spec/46_control.md) -/

theorem execPopSt_eq_next :
    execPopSt s = .next t ↔ s.HasReg s.sp ∧ t = { s with sp := s.sp - 1#8, st := Status.ofByte (s.reg s.sp) } := by
  simp only [execPopSt, finish_eq_next, bind_eq_ok, Prod.exists, pop8_eq_ok, Except.ok.injEq]
  constructor
  · rintro ⟨v, u, ⟨h, rfl, rfl⟩, rfl⟩
    exact ⟨h, rfl⟩
  · rintro ⟨h, rfl⟩
    exact ⟨_, _, ⟨h, rfl, rfl⟩, rfl⟩

theorem execRets_eq_next :
    execRets s = .next t ↔ s.HasReg s.sp ∧ s.HasReg (s.sp - 1#8) ∧
      t = { s with sp := s.sp - 2#8, pc := wordOf (s.reg (s.sp - 1#8)) (s.reg s.sp) } := by
  simp only [execRets, finish_eq_next, bind_eq_ok, Prod.exists, pop16_eq_ok, Except.ok.injEq]
  constructor
  · rintro ⟨w, u, ⟨h0, h1, rfl, rfl⟩, rfl⟩
    exact ⟨h0, h1, rfl⟩
  · rintro ⟨h0, h1, rfl⟩
    exact ⟨_, _, ⟨h0, h1, rfl, rfl⟩, rfl⟩

/-- A status byte about to be stored takes a free value exactly where the platform fixes no low bits (R28). -/
theorem statusLow_eq (s : State) :
    statusLow s = ((statusLow s).1, { s with draws := if s.cfg.stLow = none then s.draws + 1 else s.draws }) := by
  obtain ⟨low, hl, h⟩ | ⟨hl, h⟩ := statusLow_cases s <;> simp [h, hl]

theorem statusLow_of_some {low : Nibble} (h : s.cfg.stLow = some low) : (statusLow s).1 = low := by
  simp [statusLow, h]

/-- `PUSH ST`, under either reading of its flags (R240). -/
theorem execPushSt_eq_next {v : Byte} (hv : v = s.st.toByte (statusLow s).1) :
    execPushSt s = .next t ↔ s.HasReg (s.sp + 1#8) ∧
      t = { s with
            sp := s.sp + 1#8
            mem := s.mem.write (s.sp + 1#8).toNat v
            st := if s.cfg.pushStFlags = .table then s.st.result false v else s.st
            draws := if s.cfg.stLow = none then s.draws + 1 else s.draws } := by
  rw [execPushSt, statusLow_eq]
  simp only [finish_eq_next, bind_eq_ok, push8_eq_ok, ← hv]
  constructor
  · rintro ⟨u, ⟨h, rfl⟩, ht⟩
    refine ⟨h, ?_⟩
    simp only [State.setReg_cfg] at ht
    split at ht
    all_goals
      cases ht
      simp [*, State.setReg]
  · rintro ⟨h, rfl⟩
    refine ⟨_, ⟨h, rfl⟩, ?_⟩
    simp only [State.setReg_cfg]
    split
    all_goals simp [*, State.setReg]

/-- `TRAP n`: the return address is pushed, then the vector is read, which may ask the environment. -/
theorem execTrap_eq_next {n : Nat} :
    execTrap n s = .next t ↔ ∃ u entry v, push16 s.pc s = .ok u ∧ readVector n u = .ok (entry, v) ∧
      t = { v with pc := entry } := by
  simp only [execTrap, finish_eq_next, bind_eq_ok, Prod.exists, Except.ok.injEq]
  constructor
  · rintro ⟨u, hpush, entry, v, hvec, rfl⟩
    exact ⟨u, entry, v, hpush, hvec, rfl⟩
  · rintro ⟨u, entry, v, hpush, hvec, rfl⟩
    exact ⟨u, hpush, entry, v, hvec, rfl⟩

/-! ### Moves, bit tests and products (spec/40_dual_arith.md to spec/42_bit_test_jump.md) -/

theorem execMov_eq_next {f : MovForm} (h : execMov f s = .next t) :
    ∃ v, readOperand f.source s = .ok v ∧ s.HasReg f.dest ∧
      t = { s.setReg f.dest v with st := s.st.result false v } := by
  simp only [execMov, finish_eq_next, bind_eq_ok, regWrite_eq_ok, Except.ok.injEq] at h
  obtain ⟨v, hv, _, ⟨hd, rfl⟩, rfl⟩ := h
  exact ⟨v, hv, hd, rfl⟩

/-- The jump of a bit test moves pc or leaves it (R160). -/
theorem testAndJump_eq (v ofst : Byte) (s : State) :
    testAndJump v ofst s =
      { s with st := s.st.result false v, pc := if v = 0#8 then s.pc else s.pc + sext16 ofst } := by
  unfold testAndJump
  split <;> rfl

theorem execBtjo_eq_next {f : DualForm} {ofst : Byte} (h : execBtjo f ofst s = .next t) :
    ∃ x d, readDual f s = .ok (x, d) ∧ t = testAndJump (x &&& d) ofst s := by
  simp only [execBtjo, finish_eq_next, bind_eq_ok, Prod.exists, Except.ok.injEq] at h
  obtain ⟨x, d, hr, rfl⟩ := h
  exact ⟨x, d, hr, rfl⟩

theorem execBtjz_eq_next {f : DualForm} {ofst : Byte} (h : execBtjz f ofst s = .next t) :
    ∃ x d, readDual f s = .ok (x, d) ∧ t = testAndJump (x &&& ~~~d) ofst s := by
  simp only [execBtjz, finish_eq_next, bind_eq_ok, Prod.exists, Except.ok.injEq] at h
  obtain ⟨x, d, hr, rfl⟩ := h
  exact ⟨x, d, hr, rfl⟩

theorem execMpy_eq_next {f : DualForm} (h : execMpy f s = .next t) :
    ∃ x d w, readDual f s = .ok (x, d) ∧ w = BitVec.ofNat 16 (x.toNat * d.toNat) ∧
      t = { (s.setReg 0#8 (hiByte w)).setReg 1#8 (loByte w) with st := s.st.wideResult false w } := by
  simp only [execMpy, finish_eq_next, bind_eq_ok, Prod.exists, regWrite_a, regWrite_b, Except.ok.injEq] at h
  obtain ⟨x, d, hr, _, rfl, _, rfl, rfl⟩ := h
  exact ⟨x, d, _, hr, rfl, rfl⟩

/-! ### The peripheral file (spec/44_peripheral.md): nothing here can stop -/

/-- The state after a read of `P[n]`: the answer is recorded. -/
def State.afterPeriphRead (s : State) (n : Byte) : State :=
  { s with
    events := .periphRead n (Config.periphAnswer s.events s.draws n) :: s.events
    draws := s.draws + 1 }

theorem execBtjop_eq (src : PeriphSource) (pn ofst : Byte) (s : State) :
    execBtjop src pn ofst s =
      .next (testAndJump (src.source.value s &&& Config.periphAnswer s.events s.draws pn) ofst
        (s.afterPeriphRead pn)) := by
  simp only [execBtjop, PeriphSource.readOperand_source, periphRead_eq, ok_bind, finish_ok]
  rfl

theorem execBtjzp_eq (src : PeriphSource) (pn ofst : Byte) (s : State) :
    execBtjzp src pn ofst s =
      .next (testAndJump (src.source.value s &&& ~~~Config.periphAnswer s.events s.draws pn) ofst
        (s.afterPeriphRead pn)) := by
  simp only [execBtjzp, PeriphSource.readOperand_source, periphRead_eq, ok_bind, finish_ok]
  rfl

theorem execMovp_toPeriph_eq (src : PeriphSource) (pn : Byte) (s : State) :
    execMovp (.toPeriph src pn) s =
      .next { s with
              st := s.st.result false (src.source.value s)
              events := .periphWrite pn (src.source.value s) :: s.events } := by
  simp only [execMovp, PeriphSource.readOperand_source, periphWrite_eq, ok_bind, finish_ok]

theorem execMovp_toA_eq (pn : Byte) (s : State) {p : Byte} (hp : p = Config.periphAnswer s.events s.draws pn) :
    execMovp (.toA pn) s = .next { (s.afterPeriphRead pn).setReg 0#8 p with st := s.st.result false p } := by
  subst hp
  simp only [execMovp, periphRead_eq, ok_bind, regWrite_a, finish_ok]
  rfl

theorem execMovp_toB_eq (pn : Byte) (s : State) {p : Byte} (hp : p = Config.periphAnswer s.events s.draws pn) :
    execMovp (.toB pn) s = .next { (s.afterPeriphRead pn).setReg 1#8 p with st := s.st.result false p } := by
  subst hp
  simp only [execMovp, periphRead_eq, ok_bind, regWrite_b, finish_ok]
  rfl

theorem periphUpdate_eq (op : Byte → Byte → Alu) (src : PeriphSource) (pn : Byte) (s : State) {r : Alu}
    (hr : r = op (src.source.value s) (Config.periphAnswer s.events s.draws pn)) :
    periphUpdate op src pn s =
      .ok { s.afterPeriphRead pn with
            st := s.st.result r.carry r.value
            events := .periphWrite pn r.value :: (s.afterPeriphRead pn).events } := by
  subst hr
  exact periphUpdate_eq_ok.mpr ⟨_, PeriphSource.readOperand_source src s, rfl⟩

/-! ### Extended addressing (spec/45_extended.md) -/

theorem execLda_eq_next {f : ExtForm} (h : execLda f s = .next t) :
    ∃ ea v u, effectiveAddr f s = .ok ea ∧ memRead ea s = .ok (v, u) ∧
      t = { u.setReg 0#8 v with st := u.st.result false v } := by
  simp only [execLda, finish_eq_next, bind_eq_ok, Prod.exists, regWrite_a, Except.ok.injEq] at h
  obtain ⟨ea, hea, v, u, hr, _, rfl, rfl⟩ := h
  exact ⟨ea, v, u, hea, hr, rfl⟩

theorem execSta_eq_next {f : ExtForm} (h : execSta f s = .next t) :
    ∃ ea u, effectiveAddr f s = .ok ea ∧ memWrite ea s.a s = .ok u ∧ t = { u with st := u.st.result false s.a } := by
  simp only [execSta, finish_eq_next, bind_eq_ok, regRead_a, Except.ok.injEq] at h
  obtain ⟨ea, hea, _, rfl, u, hw, rfl⟩ := h
  exact ⟨ea, u, hea, hw, rfl⟩

theorem execBr_eq_next {f : ExtForm} (h : execBr f s = .next t) :
    ∃ ea, effectiveAddr f s = .ok ea ∧ t = { s with pc := ea } := by
  simp only [execBr, finish_eq_next, bind_eq_ok, Except.ok.injEq] at h
  obtain ⟨ea, hea, rfl⟩ := h
  exact ⟨ea, hea, rfl⟩

theorem execCmpa_eq_next {f : ExtForm} (h : execCmpa f s = .next t) :
    ∃ ea v u r, effectiveAddr f s = .ok ea ∧ memRead ea s = .ok (v, u) ∧ r = subBytes v s.a true ∧
      t = { u with st := u.st.result r.carry r.value } := by
  simp only [execCmpa, finish_eq_next, bind_eq_ok, Prod.exists, regRead_a, Except.ok.injEq] at h
  obtain ⟨ea, hea, _, rfl, v, u, hr, rfl⟩ := h
  exact ⟨ea, v, u, _, hea, hr, rfl, rfl⟩

theorem execCall_eq_next {f : ExtForm} (h : execCall f s = .next t) :
    ∃ ea u, effectiveAddr f s = .ok ea ∧ push16 s.pc s = .ok u ∧ t = { u with pc := ea } := by
  simp only [execCall, finish_eq_next, bind_eq_ok, Except.ok.injEq] at h
  obtain ⟨ea, hea, u, hpush, rfl⟩ := h
  exact ⟨ea, u, hea, hpush, rfl⟩

theorem execMovd_eq_next {f : MovdForm} (h : execMovd f s = .next t) :
    ∃ w, movdSource f s = .ok w ∧ s.HasReg (f.dest - 1#8) ∧ s.HasReg f.dest ∧
      t = { (s.setReg (f.dest - 1#8) (hiByte w)).setReg f.dest (loByte w) with st := s.st.wideResult false w } := by
  simp only [execMovd, finish_eq_next, bind_eq_ok, writePair_eq_ok, Except.ok.injEq] at h
  obtain ⟨w, hw, _, ⟨-, h1, h2, rfl⟩, rfl⟩ := h
  exact ⟨w, hw, h1, h2, rfl⟩

/-! ### Single operands (spec/43_single_operand.md) -/

variable {d : Single}

theorem execClr_eq_next (h : execClr d s = .next t) :
    s.HasReg d.num ∧ t = { s.setReg d.num 0#8 with st := s.st.result false 0#8 } := by
  simp only [execClr, finish_eq_next, bind_eq_ok, regWrite_eq_ok, Except.ok.injEq] at h
  obtain ⟨_, ⟨hd, rfl⟩, rfl⟩ := h
  exact ⟨hd, rfl⟩

theorem execXchb_eq_next (h : execXchb d s = .next t) :
    s.HasReg d.num ∧ t = { (s.setReg d.num s.b).setReg 1#8 (s.reg d.num) with st := s.st.result false s.b } := by
  simp only [execXchb, finish_eq_next, bind_eq_ok, regRead_eq_ok, regRead_b, regWrite_eq_ok, regWrite_b,
    Except.ok.injEq] at h
  obtain ⟨_, ⟨hd, rfl⟩, _, rfl, _, ⟨-, rfl⟩, _, rfl, rfl⟩ := h
  exact ⟨hd, rfl⟩

theorem execPush_eq_next (h : execPush d s = .next t) :
    s.HasReg d.num ∧ s.HasReg (s.sp + 1#8) ∧
      t = { { s with sp := s.sp + 1#8 }.setReg (s.sp + 1#8) (s.reg d.num) with
            st := s.st.result false (s.reg d.num) } := by
  simp only [execPush, finish_eq_next, bind_eq_ok, regRead_eq_ok, push8_eq_ok, Except.ok.injEq] at h
  obtain ⟨_, ⟨hd, rfl⟩, _, ⟨hsp, rfl⟩, rfl⟩ := h
  exact ⟨hd, hsp, rfl⟩

theorem execPop_eq_next (h : execPop d s = .next t) :
    s.HasReg s.sp ∧ s.HasReg d.num ∧
      t = { { s with sp := s.sp - 1#8 }.setReg d.num (s.reg s.sp) with st := s.st.result false (s.reg s.sp) } := by
  simp only [execPop, finish_eq_next, bind_eq_ok, Prod.exists, pop8_eq_ok, regWrite_eq_ok, Except.ok.injEq] at h
  obtain ⟨_, _, ⟨hsp, rfl, rfl⟩, _, ⟨hd, rfl⟩, rfl⟩ := h
  exact ⟨hsp, hd, rfl⟩

theorem execDjnz_eq_next {ofst : Byte} (h : execDjnz d ofst s = .next t) :
    s.HasReg d.num ∧
      t = { s.setReg d.num (s.reg d.num - 1#8) with
            pc := if s.reg d.num - 1#8 = 0#8 then s.pc else s.pc + sext16 ofst } := by
  simp only [execDjnz, finish_eq_next, bind_eq_ok, regRead_eq_ok, regWrite_eq_ok, Except.ok.injEq] at h
  obtain ⟨_, ⟨hd, rfl⟩, _, ⟨-, rfl⟩, rfl⟩ := h
  exact ⟨hd, by split <;> rfl⟩

theorem execDecd_eq_next (h : execDecd d s = .next t) :
    ∃ w, readPair d.num s = .ok w ∧ s.HasReg (d.num - 1#8) ∧ s.HasReg d.num ∧
      t = { (s.setReg (d.num - 1#8) (hiByte (w - 1#16))).setReg d.num (loByte (w - 1#16)) with
            st := s.st.wideResult (w != 0#16) (w - 1#16) } := by
  simp only [execDecd, finish_eq_next, bind_eq_ok, writePair_eq_ok, Except.ok.injEq] at h
  obtain ⟨w, hw, _, ⟨-, h1, h2, rfl⟩, rfl⟩ := h
  exact ⟨w, hw, h1, h2, rfl⟩

/-- A relative jump moves pc or leaves everything (R242). -/
theorem jumpIf_eq (cond : Bool) (ofst : Byte) (s : State) :
    jumpIf cond ofst s = .next { s with pc := if cond then s.pc + sext16 ofst else s.pc } := by
  cases cond <;> rfl

end Sys2Proof.Machine

/-! SUPPORT. The frame of every instruction and of every step: which bytes are stored and where, the stack pointer and
pc, the hidden state and the history of accesses (spec/10_state.md R36, R55). -/

namespace Sys2Proof.Machine

variable {s t u : State}

/-! ### Memory after some stores -/

/-- `m` with some bytes stored, one after the other, at addresses of which P holds. -/
inductive Memory.Rewritten (P : Nat → Prop) (m : Memory) : Memory → Prop
  | none : Rewritten P m m
  | write {m' : Memory} {a : Nat} {v : Byte} : Rewritten P m m' → P a → Rewritten P m (m'.write a v)

variable {P Q : Nat → Prop} {m m' m'' : Memory}

theorem Memory.Rewritten.mono (h : m.Rewritten P m') (hPQ : ∀ a, P a → Q a) : m.Rewritten Q m' := by
  induction h with
  | none => exact .none
  | write _ ha ih => exact .write ih (hPQ _ ha)

theorem Memory.Rewritten.trans (h : m.Rewritten P m') (h' : m'.Rewritten P m'') : m.Rewritten P m'' := by
  induction h' with
  | none => exact h
  | write _ ha ih => exact .write ih ha

theorem Memory.Rewritten.read_eq (h : m.Rewritten P m') {a : Nat} (ha : ¬ P a) : m'.read a = m.read a := by
  induction h with
  | none => rfl
  | write _ hb ih => rw [Memory.read_write_other _ _ (by rintro rfl; exact ha hb), ih]

theorem Memory.Rewritten.wf (h : m.Rewritten P m') (hm : m.wf = true) : m'.wf = true := by
  induction h with
  | none => exact hm
  | write _ _ ih => exact Memory.wf_write _ _ ih

theorem Memory.Rewritten.mem (h : m.Rewritten P m') {c : Host.Cell} (hc : c ∈ m') : c ∈ m ∨ P c.1 := by
  induction h with
  | none => exact .inl hc
  | write _ ha ih =>
    obtain hc | rfl := Memory.mem_write hc
    · exact ih hc
    · exact .inr ha

/-- Bytes may be stored at the address: a register or RAM. -/
def State.Stores (s : State) (a : Nat) : Prop := a < 65536 ∧ s.Writable (BitVec.ofNat 16 a)

theorem State.stores_congr (h : t.cfg = s.cfg) : t.Stores = s.Stores := by
  funext a
  unfold State.Stores State.Writable
  rw [h]

theorem State.stores_of_hasReg {n : Byte} (h : s.HasReg n) : s.Stores n.toNat := by
  have hn : BitVec.ofNat 16 n.toNat = n.setWidth 16 := BitVec.ofNat_toNat 16 n
  exact ⟨Nat.lt_trans n.isLt (by decide), .inl (by rw [hn, placeOf_register, if_pos h])⟩

theorem State.stores_of_writable {a : Addr} (h : s.Writable a) : s.Stores a.toNat :=
  ⟨a.isLt, by rwa [BitVec.ofNat_toNat, BitVec.setWidth_eq]⟩

/-! ### Reads that may ask the environment -/

/-- A read adds to the history and to the draws, and changes nothing else. -/
def State.Observes (s t : State) : Prop :=
  ∃ new d, s.draws ≤ d ∧ t = { s with events := new ++ s.events, draws := d }

theorem State.Observes.trans (h : s.Observes t) (h' : t.Observes u) : s.Observes u := by
  obtain ⟨new, d, hd, rfl⟩ := h
  obtain ⟨new', d', hd', rfl⟩ := h'
  exact ⟨new' ++ new, d', Nat.le_trans hd hd', by rw [List.append_assoc]⟩

theorem memRead_observes {a : Addr} {v : Byte} (h : memRead a s = .ok (v, t)) : s.Observes t := by
  obtain ⟨-, -, rfl⟩ | ⟨-, -, rfl⟩ | ⟨-, -, rfl⟩ := memRead_eq_ok h
  · exact ⟨[], _, Nat.le_refl _, rfl⟩
  · exact ⟨[_], _, Nat.le_succ _, rfl⟩
  · exact ⟨[_], _, Nat.le_succ _, rfl⟩

theorem readVector_observes {k : Nat} {w : Addr} (h : readVector k s = .ok (w, t)) : s.Observes t := by
  simp only [readVector, bind_eq_ok, Prod.exists, Except.ok.injEq, Prod.mk.injEq] at h
  obtain ⟨hi, s1, h1, lo, s2, h2, -, rfl⟩ := h
  exact (memRead_observes h1).trans (memRead_observes h2)

/-! ### The frame of an instruction -/

/-- What an instruction leaves of a state. A field whose proof is left out holds by evaluation: nothing it speaks of
was touched. -/
structure Frame (i : Instr) (s t : State) : Prop where
  stored : s.mem.Rewritten (fun a => a ∈ storedBy i s ∧ s.Stores a) t.mem := by exact .none
  sp : t.sp = i.spAfter s := by rfl
  pc : i.setsPc = false → t.pc = s.pc := by exact fun _ => rfl
  idle : t.idle = (s.idle || decide (i = .idle)) := by exact (Bool.or_false _).symm
  pending : t.pending = s.pending := by rfl
  resetReq : t.resetReq = s.resetReq := by rfl
  cfg : t.cfg = s.cfg := by rfl
  draws : s.draws ≤ t.draws := by exact Nat.le_refl _
  history : ∃ new, t.events = new ++ s.events ∧ (i.reachesOut = false → new = []) := by exact ⟨[], rfl, fun _ => rfl⟩

variable {i : Instr} {n n' v v' : Byte}

/-- One register is stored to. -/
theorem rewritten_reg (h : s.HasReg n) (hi : storedBy i s = [n.toNat]) :
    s.mem.Rewritten (fun a => a ∈ storedBy i s ∧ s.Stores a) (s.mem.write n.toNat v) :=
  .write .none ⟨by simp [hi], s.stores_of_hasReg h⟩

/-- Two registers are stored to. -/
theorem rewritten_regs (h : s.HasReg n) (h' : s.HasReg n') (hi : storedBy i s = [n.toNat, n'.toNat]) :
    s.mem.Rewritten (fun a => a ∈ storedBy i s ∧ s.Stores a) ((s.mem.write n.toNat v).write n'.toNat v') :=
  .write (.write .none ⟨by simp [hi], s.stores_of_hasReg h⟩) ⟨by simp [hi], s.stores_of_hasReg h'⟩

/-- Every instruction keeps its frame: the inversion lemma of its meaning writes the next state out, and what it does not name is as it
was. -/
theorem exec_frame (h : exec i s = .next t) : Frame i s t := by
  cases i with
  | nop | eint | dint | setc => cases h; exact {}
  | idle => cases h; exact { pc := nofun, idle := (Bool.or_true _).symm }
  | popSt =>
    obtain ⟨-, rfl⟩ := execPopSt_eq_next.mp h
    exact {}
  | stsp =>
    obtain ⟨h1, rfl⟩ := regWrite_eq_ok.mp (finish_eq_next.mp h)
    exact { stored := rewritten_reg h1 rfl }
  | rets =>
    obtain ⟨-, -, rfl⟩ := execRets_eq_next.mp h
    exact { pc := nofun }
  | reti =>
    obtain ⟨-, -, -, rfl⟩ := interruptReturn_eq_ok.mp (finish_eq_next.mp h)
    exact { pc := nofun }
  | ldsp =>
    cases (execLdsp_eq s).symm.trans h
    exact {}
  | pushSt =>
    obtain ⟨hsp, rfl⟩ := (execPushSt_eq_next rfl).mp h
    exact { stored := rewritten_reg hsp rfl, draws := by dsimp only; split <;> omega }
  | mov f =>
    obtain ⟨v, -, hd, rfl⟩ := execMov_eq_next h
    exact { stored := rewritten_reg hd rfl }
  | and f | or f | xor f | add f | adc f | sub f | sbb f =>
    obtain ⟨x, d, hr, rfl⟩ := dualUpdate_eq_ok.mp (finish_eq_next.mp h)
    exact { stored := rewritten_reg (readDual_eq_ok.mp hr).2.1 rfl }
  | cmp f =>
    obtain ⟨x, d, -, rfl⟩ := dualCompare_eq_ok.mp (finish_eq_next.mp h)
    exact {}
  | dac f | dsb f =>
    obtain ⟨x, d, hr, ⟨-, rfl⟩ | ⟨-, rfl⟩⟩ := decimalUpdate_eq_ok (finish_eq_next.mp h)
    · exact { stored := rewritten_reg (readDual_eq_ok.mp hr).2.1 rfl }
    · exact { stored := rewritten_reg (readDual_eq_ok.mp hr).2.1 rfl, draws := Nat.le_succ _ }
  | mpy f =>
    obtain ⟨x, d, w, -, -, rfl⟩ := execMpy_eq_next h
    exact { stored := rewritten_regs s.hasReg_a s.hasReg_b rfl }
  | btjo f ofst =>
    obtain ⟨x, d, -, rfl⟩ := execBtjo_eq_next h
    rw [testAndJump_eq]
    exact { pc := nofun }
  | btjz f ofst =>
    obtain ⟨x, d, -, rfl⟩ := execBtjz_eq_next h
    rw [testAndJump_eq]
    exact { pc := nofun }
  | btjop src pn ofst =>
    cases (execBtjop_eq src pn ofst s).symm.trans h
    rw [testAndJump_eq]
    exact { pc := nofun, draws := Nat.le_succ _, history := ⟨[_], rfl, nofun⟩ }
  | btjzp src pn ofst =>
    cases (execBtjzp_eq src pn ofst s).symm.trans h
    rw [testAndJump_eq]
    exact { pc := nofun, draws := Nat.le_succ _, history := ⟨[_], rfl, nofun⟩ }
  | movp f =>
    cases f with
    | toPeriph src pn =>
      cases (execMovp_toPeriph_eq src pn s).symm.trans h
      exact { history := ⟨[_], rfl, nofun⟩ }
    | toA pn =>
      cases (execMovp_toA_eq pn s rfl).symm.trans h
      exact { stored := rewritten_reg s.hasReg_a rfl, draws := Nat.le_succ _, history := ⟨[_], rfl, nofun⟩ }
    | toB pn =>
      cases (execMovp_toB_eq pn s rfl).symm.trans h
      exact { stored := rewritten_reg s.hasReg_b rfl, draws := Nat.le_succ _, history := ⟨[_], rfl, nofun⟩ }
  | andp src pn | orp src pn | xorp src pn =>
    cases (periphUpdate_eq _ src pn s rfl).symm.trans (finish_eq_next.mp h)
    exact { draws := Nat.le_succ _, history := ⟨[_, _], rfl, nofun⟩ }
  | movd f =>
    obtain ⟨w, -, h1, h2, rfl⟩ := execMovd_eq_next h
    exact { stored := rewritten_regs h1 h2 rfl }
  | lda f =>
    obtain ⟨ea, v, u, -, hr, rfl⟩ := execLda_eq_next h
    obtain ⟨new, d, hd, rfl⟩ := memRead_observes hr
    exact { stored := rewritten_reg s.hasReg_a rfl, draws := hd, history := ⟨new, rfl, nofun⟩ }
  | sta f =>
    obtain ⟨ea, u, hea, hw, rfl⟩ := execSta_eq_next h
    obtain ⟨hplace, rfl⟩ | ⟨-, rfl⟩ | ⟨-, rfl⟩ := memWrite_eq_ok hw
    · exact
        { stored := .write .none ⟨by simp [storedBy, hea], s.stores_of_writable hplace⟩, history := ⟨[], rfl, nofun⟩ }
    · exact { history := ⟨[_], rfl, nofun⟩ }
    · exact { history := ⟨[_], rfl, nofun⟩ }
  | br f =>
    obtain ⟨ea, -, rfl⟩ := execBr_eq_next h
    exact { pc := nofun }
  | cmpa f =>
    obtain ⟨ea, v, u, r, -, hr, -, rfl⟩ := execCmpa_eq_next h
    obtain ⟨new, d, hd, rfl⟩ := memRead_observes hr
    exact { draws := hd, history := ⟨new, rfl, nofun⟩ }
  | call f =>
    obtain ⟨ea, u, -, hpush, rfl⟩ := execCall_eq_next h
    obtain ⟨h1, h2, rfl⟩ := push16_eq_ok.mp hpush
    exact { stored := rewritten_regs h1 h2 rfl, pc := nofun }
  | clrc | tsta | tstb =>
    obtain ⟨-, rfl⟩ := testRegister_eq_ok.mp (finish_eq_next.mp h)
    exact {}
  | dec d | inc d | inv d | swap d | rr d | rrc d | rl d | rlc d =>
    obtain ⟨hd, rfl⟩ := singleUpdate_eq_ok.mp (finish_eq_next.mp h)
    exact { stored := rewritten_reg hd rfl }
  | clr d =>
    obtain ⟨hd, rfl⟩ := execClr_eq_next h
    exact { stored := rewritten_reg hd rfl }
  | xchb d =>
    obtain ⟨hd, rfl⟩ := execXchb_eq_next h
    exact { stored := rewritten_regs hd s.hasReg_b rfl }
  | push d =>
    obtain ⟨-, hsp, rfl⟩ := execPush_eq_next h
    exact { stored := rewritten_reg hsp rfl }
  | pop d =>
    obtain ⟨-, hd, rfl⟩ := execPop_eq_next h
    exact { stored := rewritten_reg hd rfl }
  | djnz d ofst =>
    obtain ⟨hd, rfl⟩ := execDjnz_eq_next h
    exact { stored := rewritten_reg hd rfl, pc := nofun }
  | decd d =>
    obtain ⟨w, -, h1, h2, rfl⟩ := execDecd_eq_next h
    exact { stored := rewritten_regs h1 h2 rfl }
  | jmp ofst => cases h; exact { pc := nofun }
  | jeq ofst | jz ofst | jc ofst | jhs ofst | jgt ofst | jp ofst | jge ofst | jpz ofst | jne ofst | jnz ofst | jl ofst
  | jnc ofst =>
    cases (jumpIf_eq _ ofst s).symm.trans h
    exact { pc := nofun }
  | trap k =>
    obtain ⟨u, entry, v, hpush, hvec, rfl⟩ := execTrap_eq_next.mp h
    obtain ⟨h1, h2, rfl⟩ := push16_eq_ok.mp hpush
    obtain ⟨new, d, hd, rfl⟩ := readVector_observes hvec
    exact { stored := rewritten_regs h1 h2 rfl, pc := nofun, draws := hd, history := ⟨new, rfl, nofun⟩ }

/-! ### What every step keeps -/

/-- The platform stays, the draws and the history of accesses only grow, requests are only taken back, and bytes are
stored only where the CPU owns them. -/
structure Evolves (s t : State) : Prop where
  cfg : t.cfg = s.cfg
  draws : s.draws ≤ t.draws
  history : ∃ new, t.events = new ++ s.events
  pending : t.pending.Sublist s.pending
  stored : s.mem.Rewritten s.Stores t.mem

theorem Evolves.trans (h : Evolves s t) (h' : Evolves t u) : Evolves s u where
  cfg := h'.cfg.trans h.cfg
  draws := Nat.le_trans h.draws h'.draws
  history := by
    obtain ⟨new, hnew⟩ := h.history
    obtain ⟨new', hnew'⟩ := h'.history
    exact ⟨new' ++ new, by rw [hnew', hnew, List.append_assoc]⟩
  pending := h'.pending.trans h.pending
  stored := h.stored.trans (State.stores_congr h.cfg ▸ h'.stored)

theorem Evolves.refl (s : State) : Evolves s s :=
  ⟨rfl, Nat.le_refl _, ⟨[], rfl⟩, List.Sublist.refl _, .none⟩

theorem State.Observes.evolves (h : s.Observes t) : Evolves s t := by
  obtain ⟨new, d, hd, rfl⟩ := h
  exact ⟨rfl, hd, ⟨new, rfl⟩, List.Sublist.refl _, .none⟩

theorem exec_evolves {i : Instr} (h : exec i s = .next t) : Evolves s t :=
  have f := exec_frame h
  { cfg := f.cfg
    draws := f.draws
    history := f.history.imp fun _ hnew => hnew.1
    pending := by rw [f.pending]
    stored := f.stored.mono fun _ ha => ha.2 }

theorem Evolves.withPc (h : Evolves s t) (a : Addr) : Evolves s { t with pc := a } :=
  ⟨h.cfg, h.draws, h.history, h.pending, h.stored⟩

theorem fetch8_evolves (h : fetch8 s = .ok (v, t)) : Evolves s t := by
  simp only [fetch8, bind_eq_ok, Prod.exists, Except.ok.injEq, Prod.mk.injEq] at h
  obtain ⟨_, u, hr, rfl, rfl⟩ := h
  exact (memRead_observes hr).evolves.withPc _

theorem fetchBytes_evolves {k : Nat} {bs : List Byte} (h : fetchBytes k s = .ok (bs, t)) : Evolves s t := by
  induction k generalizing s bs with
  | zero =>
    cases h
    exact .refl _
  | succ k ih =>
    simp only [fetchBytes, bind_eq_ok, Prod.exists, Except.ok.injEq, Prod.mk.injEq] at h
    obtain ⟨v, u, h8, vs, _, hrest, -, rfl⟩ := h
    exact (fetch8_evolves h8).trans (ih hrest)

theorem fetchInstr_evolves {r : Fetched} (h : fetchInstr s = .ok (r, t)) : Evolves s t := by
  simp only [fetchInstr, bind_eq_ok, Prod.exists] at h
  obtain ⟨op, u, h8, h⟩ := h
  refine (fetch8_evolves h8).trans ?_
  split at h
  · simp only [bind_eq_ok, Prod.exists] at h
    obtain ⟨bs, w, hbs, h⟩ := h
    split at h
    · cases h
      exact fetchBytes_evolves hbs
    · cases h
  · split at h
    · simp only [bind_eq_ok, Prod.exists] at h
      obtain ⟨ofst, w, hofst, h⟩ := h
      cases h
      exact fetch8_evolves hofst
    · cases h

/-- A vector read at the end of a sequence u adds to its history; pc and the pending set are then set. -/
theorem evolves_of_readVector {k : Nat} {entry : Addr} {levels : List Nat} (h : Evolves s u)
    (hvec : readVector k u = .ok (entry, { u with events := t.events, draws := t.draws }))
    (hlevels : levels.Sublist u.pending)
    (ht : t = { u with pc := entry, pending := levels, events := t.events, draws := t.draws }) : Evolves s t := by
  refine h.trans ?_
  have hread := (readVector_observes hvec).evolves
  rw [ht]
  exact ⟨rfl, hread.draws, hread.history, hlevels, .none⟩

theorem interruptEntry_evolves {k : Nat} (h : interruptEntry k s = .ok t) : Evolves s t := by
  obtain ⟨h1, h2, h3, low, u, entry, -, hu, hvec, ht⟩ := interruptEntry_eq_ok h
  have hpush : Evolves s u := by
    subst hu
    refine ⟨rfl, ?_, ⟨[], rfl⟩, .refl _, ?_⟩
    · dsimp only
      split <;> omega
    · exact .write (.write (.write .none (s.stores_of_hasReg h1)) (s.stores_of_hasReg h2)) (s.stores_of_hasReg h3)
  have hpending : u.pending = s.pending := by rw [hu]
  exact evolves_of_readVector hpush hvec (hpending ▸ List.filter_sublist) ht

theorem resetSequence_evolves (h : resetSequence s = .ok t) : Evolves s t := by
  obtain ⟨u, entry, hu, hvec, ht⟩ := resetSequence_eq_ok h
  have hstart : Evolves s u := by
    subst hu
    exact ⟨rfl, Nat.le_refl _, ⟨[], rfl⟩, .refl _,
      .write (.write .none (s.stores_of_hasReg s.hasReg_a)) (s.stores_of_hasReg s.hasReg_b)⟩
  exact evolves_of_readVector hstart hvec (List.Sublist.refl _) ht

theorem runNext_evolves (h : runNext s = .next t) : Evolves s t := by
  unfold runNext at h
  split at h
  · next hf => exact (fetchInstr_evolves hf).trans (exec_evolves h)
  · next hf =>
    cases (jumpIf_eq ..).symm.trans h
    exact (fetchInstr_evolves hf).withPc _
  · cases finish_eq_next.mp h

/-- The four things that can happen at a boundary (R264). -/
theorem step_evolves (h : step s = .next t) : Evolves s t := by
  unfold step at h
  split at h
  · exact resetSequence_evolves (finish_eq_next.mp h)
  split at h
  · exact interruptEntry_evolves (finish_eq_next.mp h)
  split at h
  · cases h
    exact .refl s
  · exact runNext_evolves h

/-! ### The invariant -/

theorem State.Inv.evolves (hs : s.Inv) (h : Evolves s t) : t.Inv where
  canonical := h.stored.wf hs.canonical
  owned c hc := by
    obtain hc | ⟨hlt, hplace⟩ := h.stored.mem hc
    · rw [State.Storage, h.cfg]
      exact hs.owned c hc
    · rw [State.Storage, h.cfg]
      exact ⟨hlt, hplace.elim .inl fun hram => .inr (.inl hram)⟩
  rising := hs.rising.sublist h.pending
  known k hk := by
    rw [h.cfg]
    exact hs.known k (h.pending.subset hk)
  levels k hk := hs.levels k (h.cfg ▸ hk)

theorem mem_insertLevel {j k : Nat} {js : List Nat} : j ∈ insertLevel k js ↔ j ∈ js ∨ j = k := by
  induction js with
  | nil => simp [insertLevel]
  | cons i js ih =>
    unfold insertLevel
    split
    · simp; tauto
    split
    · next hk => subst hk; simp; tauto
    · simp [ih]; tauto

theorem pairwise_insertLevel {k : Nat} {js : List Nat} (h : js.Pairwise (· < ·)) :
    (insertLevel k js).Pairwise (· < ·) := by
  induction js with
  | nil => simp [insertLevel]
  | cons i js ih =>
    obtain ⟨hi, hjs⟩ := List.pairwise_cons.mp h
    unfold insertLevel
    split
    · next hk =>
      exact List.pairwise_cons.mpr ⟨List.forall_mem_cons.mpr ⟨hk, fun j hj => Nat.lt_trans hk (hi j hj)⟩, h⟩
    split
    · exact h
    · refine List.pairwise_cons.mpr ⟨fun j hj => ?_, ih hjs⟩
      obtain hj | rfl := mem_insertLevel.mp hj
      · exact hi j hj
      · omega

theorem State.Inv.envAct (hs : s.Inv) (e : EnvAct) : (envAct e s).Inv := by
  cases e with
  | raise k =>
    unfold Machine.envAct
    dsimp only
    split
    · next hk =>
      refine ⟨hs.canonical, hs.owned, pairwise_insertLevel hs.rising, fun j hj => ?_, hs.levels⟩
      obtain hj | rfl := mem_insertLevel.mp hj
      · exact hs.known j hj
      · exact hk
    · exact hs
  | withdraw k =>
    exact ⟨hs.canonical, hs.owned, hs.rising.sublist List.filter_sublist,
      fun j hj => hs.known j (List.mem_of_mem_filter hj), hs.levels⟩
  | requestReset => exact ⟨hs.canonical, hs.owned, hs.rising, hs.known, hs.levels⟩

/-- Raising a level of the platform inserts it; raising any other level does nothing (R262). -/
theorem envAct_raise (s : State) (k : Nat) :
    envAct (.raise k) s =
      { s with pending := if k ∈ s.cfg.intLevels then insertLevel k s.pending else s.pending } := by
  unfold envAct
  dsimp only
  split <;> rfl

/-! ### The canonical form -/

/-- Nothing is stored at or below an address from which the cells rise. -/
theorem Memory.read_of_risesFrom {m : Memory} {k a : Nat} (hm : Memory.risesFrom (some k) m = true) (ha : a ≤ k) :
    m.read a = unwritten := by
  cases m with
  | nil => rfl
  | cons c m =>
    obtain ⟨j, v⟩ := c
    simp only [Memory.risesFrom, Bool.and_eq_true, decide_eq_true_eq] at hm
    obtain ⟨⟨hkj, -⟩, -⟩ := hm
    rw [Memory.read, if_neg (by omega), if_neg (by omega)]

theorem Memory.risesFrom_cons {low : Option Nat} {k : Nat} {v : Byte} {m : Memory}
    (h : Memory.risesFrom low ((k, v) :: m) = true) : v ≠ unwritten ∧ Memory.risesFrom (some k) m = true := by
  simp only [Memory.risesFrom, Bool.and_eq_true, bne_iff_ne] at h
  exact ⟨h.1.2, h.2⟩

theorem Memory.read_head (k : Nat) (v : Byte) (m : Memory) : Memory.read ((k, v) :: m) k = v := by
  simp [Memory.read]

/-- The first cells of two memories that read alike have one address: below it the other memory holds nothing. -/
theorem Memory.head_le {low : Option Nat} {k k' : Nat} {v v' : Byte} {m m' : Memory}
    (hm : Memory.risesFrom low ((k, v) :: m) = true)
    (h : ∀ a, Memory.read ((k, v) :: m) a = Memory.read ((k', v') :: m') a) : k' ≤ k := by
  by_contra hlt
  have hk := h k
  rw [Memory.read_head, Memory.read, if_neg (by omega), if_neg (by omega)] at hk
  exact (Memory.risesFrom_cons hm).1 hk

theorem Memory.eq_of_read_eq {low low' : Option Nat} {m m' : Memory} (hm : Memory.risesFrom low m = true)
    (hm' : Memory.risesFrom low' m' = true) (h : ∀ a, m.read a = m'.read a) : m = m' := by
  induction m generalizing low low' m' with
  | nil =>
    cases m' with
    | nil => rfl
    | cons c m' =>
      have hc := h c.1
      rw [Memory.read_head] at hc
      exact absurd hc.symm (Memory.risesFrom_cons hm').1
  | cons c m ih =>
    obtain ⟨k, v⟩ := c
    cases m' with
    | nil =>
      have hc := h k
      rw [Memory.read_head] at hc
      exact absurd hc (Memory.risesFrom_cons hm).1
    | cons c' m' =>
      obtain ⟨k', v'⟩ := c'
      obtain rfl : k = k' := Nat.le_antisymm (Memory.head_le hm' fun a => (h a).symm) (Memory.head_le hm h)
      obtain rfl : v = v' := by simpa only [Memory.read_head] using h k
      have ht := (Memory.risesFrom_cons hm).2
      have ht' := (Memory.risesFrom_cons hm').2
      rw [ih ht ht' fun a => ?_]
      by_cases ha : k < a
      · simpa only [Memory.read, if_pos ha] using h a
      · rw [Memory.read_of_risesFrom ht (by omega), Memory.read_of_risesFrom ht' (by omega)]

theorem reset_inv : State.reset.Inv := by
  refine ⟨rfl, nofun, .nil, nofun, ?_⟩
  decide

end Sys2Proof.Machine

namespace Sys2Proof

open Sys2Proof.Machine

/-- Settles O12: a step only evolves the state, and the invariant speaks of nothing else. -/
theorem stepKeepsInvariant : Obligations.StepKeepsInvariant :=
  fun _ _ hs h => hs.evolves (step_evolves h)

/-- Settles O15, by induction on the run. -/
theorem reachedStatesHaveInvariant : Obligations.ReachedStatesHaveInvariant := by
  intro s t hs h
  induction h with
  | start => exact hs
  | step _ hstep ih => exact stepKeepsInvariant _ _ ih hstep
  | environment e _ ih => exact ih.envAct e

/-- Settles O16: a level is inserted or filtered out, and only of the pending set. -/
theorem environmentSetsPending : Obligations.EnvironmentSetsPending := by
  refine fun s k => ⟨⟨⟨_, envAct_raise s k, fun j => ?_⟩, ⟨_, rfl, fun j => by simp⟩⟩, rfl⟩
  split
  · next hk => simp [mem_insertLevel, hk]
  · next hk => simp [hk]

/-- Settles O17: cell by cell, each head is at the lowest address that reads as anything. -/
theorem canonicalMemoriesAreDeterminedByReads : Obligations.CanonicalMemoriesAreDeterminedByReads :=
  fun _ _ hm hm' h => Memory.eq_of_read_eq hm hm' h

/-- Settles O22: the history and the platform are part of what a step evolves. -/
theorem stepExtendsHistory : Obligations.StepExtendsHistory :=
  fun _ _ h => ⟨(step_evolves h).cfg, (step_evolves h).draws, (step_evolves h).history⟩

/-- Settles O18: the addresses an instruction stores to are in its frame. -/
theorem onlyStoredBytesChange : Obligations.OnlyStoredBytesChange :=
  fun _ _ _ h _ ha => (exec_frame h).stored.read_eq fun hstored => ha hstored.1

/-- Settles O20: `sp` and pc are in the frame of every instruction. -/
theorem stackPointerAndPcFrame : Obligations.StackPointerAndPcFrame :=
  fun _ _ _ h => ⟨(exec_frame h).sp, (exec_frame h).pc⟩

/-- Settles O21: the hidden state is in the frame; an instruction that reaches nothing outside adds nothing to the
history. -/
theorem hiddenStateFrame : Obligations.HiddenStateFrame := by
  intro i s t h
  have f := exec_frame h
  obtain ⟨new, hnew, hquiet⟩ := f.history
  exact ⟨f.pending, f.resetReq, f.cfg, f.idle, fun hi => by rw [hnew, hquiet hi]; rfl⟩

/-- Settles O13: nothing is stored or pending, and the levels of the platform are 1 to 23. -/
theorem resetHasInvariant : Obligations.ResetHasInvariant := reset_inv

/-- Settles O14, by evaluation of the reset state. -/
theorem resetValues : Obligations.ResetValues := ⟨rfl, rfl, rfl, rfl, rfl, rfl, rfl, rfl⟩

end Sys2Proof

/-! SUPPORT. A step at each kind of boundary (spec/60_exceptions.md R264): the reset sequence, interrupt entry,
waiting, and the fetch of stored code (spec/20_memory.md R62). -/

namespace Sys2Proof.Machine

variable {s t : State} {k n : Nat}

/-! ### Which of the four a step is -/

theorem step_of_resetReq (h : s.resetReq = true) : step s = finish (resetSequence s) := by
  rw [step, if_pos h]

theorem step_of_accepted (h : s.resetReq = false) (hk : acceptedLevel s = some k) :
    step s = finish (interruptEntry k s) := by
  rw [step, h, hk]
  rfl

theorem step_of_waiting (h : s.resetReq = false) (hk : acceptedLevel s = none) (hidle : s.idle = true) :
    step s = .next s := by
  rw [step, h, hk, hidle]
  rfl

theorem step_of_ready (h : s.Ready) : step s = runNext s := by
  obtain ⟨hreset, hk, hidle⟩ := h
  rw [step, hreset, hk, hidle]
  rfl

/-- With I set, the level taken is the lowest pending one (R266). -/
theorem acceptedLevel_eq_some (hi : s.st.i = true) (hk : k ∈ s.pending) (hmin : ∀ j ∈ s.pending, k ≤ j) :
    acceptedLevel s = some k := by
  rw [acceptedLevel, if_pos hi]
  exact List.min?_eq_some_iff.mpr ⟨hk, hmin⟩

theorem exists_acceptedLevel (hi : s.st.i = true) (h : s.pending ≠ []) : ∃ k, acceptedLevel s = some k := by
  rw [acceptedLevel, if_pos hi]
  exact Option.ne_none_iff_exists'.mp (mt List.min?_eq_none_iff.mp h)

theorem acceptedLevel_eq_none (h : s.st.i = false ∨ s.pending = []) : acceptedLevel s = none := by
  unfold acceptedLevel
  obtain h | h := h <;> simp [h]

/-! ### Stored code -/

theorem codeBytes_succ (s : State) (n : Nat) :
    s.codeBytes (n + 1) = s.mem.read s.pc.toNat :: { s with pc := s.pc + 1#16 }.codeBytes n := by
  simp only [State.codeBytes, List.range_succ_eq_map, List.map_cons, List.map_map]
  congr 1
  · simp
  · refine List.map_congr_left fun j _ => ?_
    simp only [Function.comp_apply, BitVec.add_assoc, BitVec.ofNat_add_ofNat, Nat.succ_eq_add_one, Nat.add_comm]

theorem codeBytes_length (s : State) (n : Nat) : (s.codeBytes n).length = n := by
  simp [State.codeBytes]

/-- Stored bytes are fetched without a trace (R55, R62). -/
theorem fetch8_storage (h : s.Storage s.pc) : fetch8 s = .ok (s.mem.read s.pc.toNat, { s with pc := s.pc + 1#16 }) := by
  rw [fetch8, memRead_storage h, ok_bind]

theorem fetchBytes_codeOwned (h : s.CodeOwned n) :
    fetchBytes n s = .ok (s.codeBytes n, { s with pc := s.pc + BitVec.ofNat 16 n }) := by
  induction n generalizing s with
  | zero => simp [fetchBytes, State.codeBytes]
  | succ n ih =>
    have h0 : s.Storage s.pc := by simpa using h 0 (Nat.succ_pos n)
    have hrest : { s with pc := s.pc + 1#16 }.CodeOwned n := fun j hj => by
      have := h (j + 1) (Nat.succ_lt_succ hj)
      rwa [Nat.add_comm, ← BitVec.ofNat_add_ofNat, ← BitVec.add_assoc] at this
    rw [fetchBytes, fetch8_storage h0, ok_bind]
    dsimp only
    rw [ih hrest, ok_bind, codeBytes_succ]
    dsimp only
    rw [BitVec.add_assoc, BitVec.ofNat_add_ofNat, Nat.add_comm 1 n]

theorem fetchBytes_succ_eq_ok {v : Byte} {bs : List Byte} :
    fetchBytes (n + 1) s = .ok (v :: bs, t) ↔ ∃ u, fetch8 s = .ok (v, u) ∧ fetchBytes n u = .ok (bs, t) := by
  simp only [fetchBytes, bind_eq_ok, Prod.exists, Except.ok.injEq, Prod.mk.injEq, List.cons.injEq]
  constructor
  · rintro ⟨_, u, h8, _, _, hrest, ⟨rfl, rfl⟩, rfl⟩
    exact ⟨u, h8, hrest⟩
  · rintro ⟨u, h8, hrest⟩
    exact ⟨v, u, h8, bs, t, hrest, ⟨rfl, rfl⟩, rfl⟩

/-- As many bytes as the opcode asks for are the instruction (R106). -/
theorem fetchInstr_of_fetchBytes {op : Byte} {operands rest : List Byte} {i : Instr}
    (hf : fetchBytes n s = .ok (op :: operands, t)) (hn : instrLength op = some n)
    (hd : decode (op :: operands) = .ok (i, rest)) : fetchInstr s = .ok (.instr i, t) := by
  cases n with
  | zero => cases hf
  | succ n =>
    obtain ⟨u, h8, hrest⟩ := fetchBytes_succ_eq_ok.mp hf
    simp only [fetchInstr, h8, ok_bind, hn, Nat.add_sub_cancel, hrest, hd]

/-- The bytes at pc that decode to an instruction are as many as its opcode asks for, and the step runs it. -/
theorem step_of_codeBytes {i : Instr} (hready : s.Ready) (howned : s.CodeOwned n)
    (hd : decode (s.codeBytes n) = .ok (i, [])) : step s = exec i { s with pc := s.pc + BitVec.ofNat 16 n } := by
  obtain ⟨hwf, -, hbytes⟩ := decode_beginsWith hd
  obtain ⟨op, operands, hop, hlen⟩ := encode_eq_opcode_operands hwf
  rw [List.append_nil, hop] at hbytes
  have hn : 1 + operands.length = n := by
    rw [← codeBytes_length s n, hbytes, List.length_cons, Nat.add_comm]
  rw [hn] at hlen
  have hf := fetchBytes_codeOwned howned
  rw [hbytes] at hf hd
  rw [step_of_ready hready, runNext, fetchInstr_of_fetchBytes hf hlen hd]

/-! ### A loaded word -/

theorem read_storeBytes_other {vs : List Byte} {a b : Addr} {m : Memory}
    (h : ∀ j < vs.length, a + BitVec.ofNat 16 j ≠ b) : (storeBytes vs a m).read b.toNat = m.read b.toNat := by
  induction vs generalizing a m with
  | nil => rfl
  | cons v vs ih =>
    have h0 : a ≠ b := by simpa using h 0 (Nat.succ_pos _)
    rw [storeBytes, ih, Memory.read_write_other _ _ fun hab => h0 (BitVec.eq_of_toNat_eq hab.symm)]
    intro j hj
    have := h (j + 1) (Nat.succ_lt_succ hj)
    rwa [Nat.add_comm, ← BitVec.ofNat_add_ofNat, ← BitVec.add_assoc] at this

/-- Bytes stored from pc up are the code at pc, as long as they do not wrap onto themselves. -/
theorem codeBytes_storeBytes {vs : List Byte} (h : vs.length ≤ 65536) (s : State) :
    { s with mem := storeBytes vs s.pc s.mem }.codeBytes vs.length = vs := by
  induction vs generalizing s with
  | nil => rfl
  | cons v vs ih =>
    rw [List.length_cons] at h
    rw [List.length_cons, codeBytes_succ]
    congr 1
    · dsimp only
      rw [storeBytes, read_storeBytes_other, Memory.read_write_same]
      intro j hj heq
      have := congrArg BitVec.toNat heq
      simp only [BitVec.toNat_add, BitVec.toNat_ofNat] at this
      omega
    · exact ih (by omega) { s with pc := s.pc + 1#16, mem := s.mem.write s.pc.toNat v }

theorem codeBytes_take {m : Nat} (s : State) (h : n ≤ m) : (s.codeBytes m).take n = s.codeBytes n := by
  rw [State.codeBytes, State.codeBytes, ← List.map_take, List.take_range, Nat.min_eq_left h]

theorem codeBytes_withFetchWord (s : State) (nbits w : Nat) :
    (s.withFetchWord nbits w).codeBytes 4 = tableBytes nbits w :=
  codeBytes_storeBytes (vs := tableBytes nbits w) (by simp [tableBytes]) s

theorem ready_withFetchWord (s : State) (nbits w : Nat) : (s.withFetchWord nbits w).Ready :=
  ⟨rfl, acceptedLevel_eq_none (.inr rfl), rfl⟩

end Sys2Proof.Machine

namespace Sys2Proof

open Sys2Proof.Machine

/-- Settles O6: the decoded bytes are the encoding, whose opcode asks for exactly that many bytes. -/
theorem stepRunsDecodedInstruction : Obligations.StepRunsDecodedInstruction :=
  fun _ _ _ hready howned hd => step_of_codeBytes hready howned hd

/-- Settles O7: the loaded bytes begin with the encoding of the instruction, and the step runs it by
`step_of_codeBytes`. -/
theorem loadedWordRunsNext : Obligations.LoadedWordRunsNext := by
  intro s nbits w i rest howned hd
  obtain ⟨hwf, hcanonical, hbytes⟩ := decode_beginsWith hd
  have hlen : (encode i).length + rest.length = 4 := by rw [← List.length_append, ← hbytes]; rfl
  have hcode : (s.withFetchWord nbits w).codeBytes (4 - rest.length) = encode i := by
    rw [← codeBytes_take _ (Nat.sub_le _ _), codeBytes_withFetchWord, hbytes, List.take_left' (by omega)]
  refine step_of_codeBytes (ready_withFetchWord s nbits w) (fun j hj => howned j (by omega)) ?_
  rw [hcode, ← List.append_nil (encode i), decode_encode i [] hwf, hcanonical]

end Sys2Proof

/-! SUPPORT. Reset, interrupt entry and the return from it (spec/60_exceptions.md R264 to R267,
spec/70_reset_and_hazards.md R300): each up to the vector it reads, so that a stored and an unimplemented vector share
one equation. -/

namespace Sys2Proof.Machine

variable {s t u : State} {k : Nat}

/-! ### Vectors -/

/-- A stored vector k ≤ 23 is read as the two bytes at its addresses (R256). -/
theorem readVector_of_storage (hk : k ≤ 23) (h1 : s.Storage (BitVec.ofNat 16 (0xFFFE - 2 * k)))
    (h2 : s.Storage (BitVec.ofNat 16 (0xFFFF - 2 * k))) :
    readVector k s = .ok (s.mem.read (0xFFFE - 2 * k) ++ s.mem.read (0xFFFF - 2 * k), s) := by
  have hlo : (BitVec.ofNat 16 (0xFFFF - 2 * k)).toNat = 0xFFFF - 2 * k := by rw [BitVec.toNat_ofNat]; omega
  rw [← vectorAddr_succ hk] at h2
  rw [readVector_storage h1 h2, vectorAddr_toNat hk, vectorAddr_succ hk, hlo]
  rfl

/-- A store to a register leaves the vectors alone: they lie above the register file. -/
theorem read_write_register {m : Memory} (n v : Byte) {a : Nat} (ha : 256 ≤ a) :
    (m.write n.toNat v).read a = m.read a :=
  Memory.read_write_other _ _ (by have := n.isLt; omega)

/-! ### Reset -/

/-- The reset sequence up to its vector. -/
def State.resetStart (s : State) : State :=
  { s with
    mem := (s.mem.write 0 (hiByte s.pc)).write 1 (loByte s.pc)
    sp := 0x01#8
    st := Status.all false
    idle := false
    resetReq := false }

theorem resetSequence_eq (s : State) :
    resetSequence s = (do
      let (entry, t) ← readVector 0 s.resetStart
      .ok { t with pc := entry }) := by
  rw [resetSequence]
  simp only [regWrite_a, regWrite_b, ok_bind]
  rfl

/-! ### Interrupt entry -/

/-- The address an accepted interrupt returns to: that of the next instruction, from idle that after the `IDLE`
(R265). -/
def State.returnAddr (s : State) : Addr := if s.idle = true then s.pc + 1#16 else s.pc

/-- Interrupt entry up to its vector: the status byte with low bits `low` and the return address are pushed. -/
def State.entryStart (s : State) (low : Nibble) : State :=
  { s with
    sp := s.sp + 3#8
    st := Status.all false
    mem := ((s.mem.write (s.sp + 1#8).toNat (s.st.toByte low)).write (s.sp + 2#8).toNat (hiByte s.returnAddr)).write
      (s.sp + 3#8).toNat (loByte s.returnAddr)
    idle := false
    draws := if s.cfg.stLow = none then s.draws + 1 else s.draws }

theorem sp_add_one_one (sp : Byte) : sp + 1#8 + 1#8 = sp + 2#8 := by rw [BitVec.add_assoc]; rfl

theorem sp_add_one_two (sp : Byte) : sp + 1#8 + 2#8 = sp + 3#8 := by rw [BitVec.add_assoc]; rfl

/-- The push of the status byte, where the entry has left the idle state and drawn the low bits. -/
theorem push8_entryStatus {v : Byte} {d : Nat} (h1 : s.HasReg (s.sp + 1#8)) :
    push8 v { s with idle := false, draws := d } =
      .ok ({ s with idle := false, draws := d, sp := s.sp + 1#8 }.setReg (s.sp + 1#8) v) := push8_of_hasReg v h1

/-- With its three stack bytes there, interrupt entry goes on to its vector. -/
theorem interruptEntry_eq (k : Nat) (h1 : s.HasReg (s.sp + 1#8)) (h2 : s.HasReg (s.sp + 2#8))
    (h3 : s.HasReg (s.sp + 3#8)) :
    interruptEntry k s = (do
      let (entry, t) ← readVector k (s.entryStart (statusLow s).1)
      .ok { t with pc := entry, pending := t.pending.filter (· ≠ k) }) := by
  have hret {v : State} (hsp : v.sp = s.sp + 1#8) (hcfg : v.cfg = s.cfg) (w : Addr) :
      push16 w v =
        .ok (({ v with sp := s.sp + 3#8 }.setReg (s.sp + 2#8) (hiByte w)).setReg (s.sp + 3#8) (loByte w)) := by
    rw [push16_eq_ok, hsp, sp_add_one_one, sp_add_one_two, State.HasReg, State.HasReg, hcfg]
    exact ⟨h2, h3, rfl⟩
  rw [interruptEntry, statusLow_eq]
  dsimp only
  rw [push8_entryStatus h1, ok_bind, hret (by rfl) (by rfl), ok_bind]
  rfl

/-! ### The return -/

/-- The low bits of a stored status byte are ignored where it is loaded (R28). -/
theorem Status.ofByte_toByte (st : Status) (low : Nibble) : Status.ofByte (st.toByte low) = st := by
  have hbits : ∀ (c n z i : Bool) (low : Nibble), Status.ofByte (Status.toByte ⟨c, n, z, i⟩ low) = ⟨c, n, z, i⟩ := by
    decide
  exact hbits ..

/-- A read of a register after a store to one. -/
theorem read_write_reg (m : Memory) (n v r : Byte) :
    (m.write n.toNat v).read r.toNat = if r = n then v else m.read r.toNat := by
  rw [Memory.read_write]
  simp [BitVec.toNat_inj]

/-- A return pops the two bytes and the status byte where they are found above the stack pointer of before. -/
theorem interruptReturn_of_stack {sp : Byte} {ret : Addr} {st : Status} {low : Nibble} (hsp : u.sp = sp + 3#8)
    (h1 : u.HasReg (sp + 1#8)) (h2 : u.HasReg (sp + 2#8)) (h3 : u.HasReg (sp + 3#8))
    (r1 : u.reg (sp + 1#8) = st.toByte low) (r2 : u.reg (sp + 2#8) = hiByte ret) (r3 : u.reg (sp + 3#8) = loByte ret) :
    interruptReturn u = .ok { u with pc := ret, st := st, sp := sp } := by
  have e1 : sp + 3#8 - 1#8 = sp + 2#8 := by bv_omega
  have e2 : sp + 3#8 - 2#8 = sp + 1#8 := by bv_omega
  have e3 : sp + 3#8 - 3#8 = sp := by bv_omega
  rw [interruptReturn_eq_ok, hsp, e1, e2, e3, r1, r2, r3, wordOf_hiByte_loByte, Status.ofByte_toByte]
  exact ⟨h3, h2, h1, rfl⟩

end Sys2Proof.Machine

namespace Sys2Proof

open Sys2Proof.Machine

/-- Settles O8: the opcode has no length, and the fetch refuses it or, for E1 where the platform takes it as `JN`,
reads an offset. -/
theorem unassignedOpcodesAtPc : Obligations.UnassignedOpcodesAtPc := by
  intro s hready hpc
  rw [step_of_ready hready]
  refine ⟨?_, ?_⟩
  · rintro op rfl hop hE1
    have hnone := (instrLength_eq_none_iff _).mpr hop
    have hno : ¬ (s.mem.read s.pc.toNat = 0xE1#8 ∧ s.cfg.admitJn = true) := fun ⟨h, hjn⟩ => by simp [hE1 h] at hjn
    simp only [runNext, fetchInstr, fetch8_storage hpc, ok_bind, hnone, if_neg hno, finish_refusal]
  · intro hop hjn hpc'
    have hnone : instrLength 0xE1#8 = none := by decide
    have h8 : fetch8 { s with pc := s.pc + 1#16 } =
        .ok (s.mem.read (s.pc + 1#16).toNat, { s with pc := s.pc + 1#16 + 1#16 }) := fetch8_storage hpc'
    simp only [runNext, fetchInstr, fetch8_storage hpc, ok_bind, hop, hnone, hjn, and_self, if_true, h8, execJn,
      jumpIf_eq]
    rw [BitVec.add_assoc s.pc]
    rfl

/-- Settles O9: A and B lie below the vectors, so the vector read is that of the state before. -/
theorem resetComesFirst : Obligations.ResetComesFirst := by
  intro s hreset h1 h2
  have hvec := readVector_of_storage (s := s.resetStart) (k := 0) (by decide) h1 h2
  rw [step_of_resetReq hreset, resetSequence_eq, hvec]
  have hread {a : Nat} (ha : 256 ≤ a) : s.resetStart.mem.read a = s.mem.read a :=
    (read_write_register 1#8 _ ha).trans (read_write_register 0#8 _ ha)
  rw [hread (by decide), hread (by decide)]
  rfl

/-- Settles O10: the entry pushes into the register file, below the vectors, and the vector read is that of the state
before. -/
theorem lowestPendingLevelIsEntered : Obligations.LowestPendingLevelIsEntered := by
  rintro s k hreset hi hk hmin hk23 h1 h2 h3 hv1 hv2 ret rfl
  refine ⟨(statusLow s).1, fun _ => statusLow_of_some, ?_⟩
  have hvec := readVector_of_storage (s := s.entryStart (statusLow s).1) hk23 hv1 hv2
  rw [step_of_accepted hreset (acceptedLevel_eq_some hi hk hmin), interruptEntry_eq k h1 h2 h3, hvec]
  have hread {a : Nat} (ha : 256 ≤ a) : (s.entryStart (statusLow s).1).mem.read a = s.mem.read a := by
    simp only [State.entryStart, read_write_register _ _ ha]
  rw [hread (by omega), hread (by omega)]
  rfl

/-- Settles O11: the three bytes interrupt entry pushed are the ones `RETI` pops. -/
theorem returnUndoesInterruptEntry : Obligations.ReturnUndoesInterruptEntry := by
  intro s t u hreset hi hpending hstep hsp hcfg hregs
  obtain ⟨k, hk⟩ := exists_acceptedLevel hi hpending
  rw [step_of_accepted hreset hk, finish_eq_next] at hstep
  obtain ⟨h1, h2, h3, low, v, entry, -, hv, -, ht⟩ := interruptEntry_eq_ok hstep
  have hmem : t.mem = ((s.mem.write (s.sp + 1#8).toNat (s.st.toByte low)).write (s.sp + 2#8).toNat
      (hiByte s.returnAddr)).write (s.sp + 3#8).toNat (loByte s.returnAddr) := by rw [ht, hv]; rfl
  rw [show t.sp = s.sp + 3#8 by rw [ht, hv]] at hsp
  rw [show t.cfg = s.cfg by rw [ht, hv]] at hcfg
  simp only [List.forall_mem_cons] at hregs
  obtain ⟨r1, r2, r3, -⟩ := hregs
  have d1 : s.sp + 1#8 ≠ s.sp + 2#8 := by bv_omega
  have d2 : s.sp + 1#8 ≠ s.sp + 3#8 := by bv_omega
  have d3 : s.sp + 2#8 ≠ s.sp + 3#8 := by bv_omega
  have hhas {n : Byte} (h : s.HasReg n) : u.HasReg n := by rwa [State.HasReg, hcfg]
  have hreturn : interruptReturn u = .ok { u with pc := s.returnAddr, st := s.st, sp := s.sp } := by
    refine interruptReturn_of_stack hsp (hhas h1) (hhas h2) (hhas h3) (low := low) ?_ ?_ ?_
    · exact r1.trans (by simp only [State.reg, hmem, read_write_reg, if_neg d1, if_neg d2, if_true])
    · exact r2.trans (by simp only [State.reg, hmem, read_write_reg, if_neg d3, if_true])
    · exact r3.trans (by simp only [State.reg, hmem, read_write_reg, if_true])
  exact finish_eq_next.mpr hreturn

/-- Settles O53: pc goes back by the one byte of the opcode; a waiting step is decided before any fetch. -/
theorem idleResult : Obligations.IdleResult := by
  refine ⟨rfl, fun s here hpc => ?_, fun s hreset hidle h => step_of_waiting hreset (acceptedLevel_eq_none h) hidle⟩
  have hback : s.pc - 1#16 = here := by rw [hpc, BitVec.add_sub_cancel]
  rw [← hback]
  rfl

end Sys2Proof

/-! SUPPORT. Dual-operand arithmetic and the bit tests (spec/40_dual_arith.md, spec/42_bit_test_jump.md): the exact
sums and differences as bytes with a carry, decimal digits, and the whole state after each instruction whose operands
are available. -/

namespace Sys2Proof.Machine

variable {s : State} {f : DualForm}

/-! ### Bytes with a carry (R121) -/

theorem addBytes_eq (x d : Byte) (cin : Bool) {c : Byte} (hc : c = if cin = true then 1#8 else 0#8) :
    addBytes x d cin = ⟨x + d + c, decide (256 ≤ x.toNat + d.toNat + c.toNat)⟩ := by
  obtain rfl : c = BitVec.ofNat 8 cin.toNat := by rw [hc]; cases cin <;> rfl
  have hcin : (BitVec.ofNat 8 cin.toNat).toNat = cin.toNat := by cases cin <;> rfl
  simp only [addBytes, hcin, BitVec.ofNat_add, BitVec.ofNat_toNat, BitVec.setWidth_eq]

theorem addBytes_false (x d : Byte) : addBytes x d false = ⟨x + d, decide (256 ≤ x.toNat + d.toNat)⟩ := by
  rw [addBytes_eq x d false rfl]
  simp

/-- C = 1 exactly where no borrow occurs: b is the borrow that comes in. -/
theorem subBytes_eq (x d : Byte) (cin : Bool) {b : Byte} (hb : b = if cin = true then 0#8 else 1#8) :
    subBytes x d cin = ⟨d - x - b, decide (x.toNat + b.toNat ≤ d.toNat)⟩ := by
  have hb1 : (b.toNat : Int) = 1 - cin.toNat := by rw [hb]; cases cin <;> rfl
  have ht : (d.toNat : Int) - x.toNat - 1 + cin.toNat = d.toNat - x.toNat - b.toNat := by omega
  simp only [subBytes, ht, Alu.mk.injEq]
  refine ⟨?_, by rw [decide_eq_decide]; omega⟩
  apply BitVec.eq_of_toNat_eq
  simp only [BitVec.toNat_ofInt, BitVec.toNat_sub]
  omega

theorem subBytes_true (x d : Byte) : subBytes x d true = ⟨d - x, decide (x.toNat ≤ d.toNat)⟩ := by
  rw [subBytes_eq x d true rfl]
  simp

/-! ### Decimal digits (R127) -/

theorem natToBcd_toNat {k : Nat} (hk : k < 100) : (natToBcd k).toNat = 16 * (k / 10) + k % 10 := by
  rw [natToBcd, BitVec.toNat_ofNat]
  omega

theorem isBcd_natToBcd {k : Nat} (hk : k < 100) : isBcd (natToBcd k) = true := by
  rw [isBcd, natToBcd_toNat hk, decide_eq_true_eq]
  omega

theorem bcdToNat_natToBcd {k : Nat} (hk : k < 100) : bcdToNat (natToBcd k) = k := by
  rw [bcdToNat, natToBcd_toNat hk]
  omega

theorem bcdToNat_le {v : Byte} (hv : isBcd v = true) : bcdToNat v ≤ 99 := by
  rw [isBcd, decide_eq_true_eq] at hv
  rw [bcdToNat]
  omega

/-- The exact decimal sum is the result and the hundred carried (R128). -/
theorem addDecimal_spec {x d : Byte} (cin : Bool) (hx : isBcd x = true) (hd : isBcd d = true) :
    isBcd (addDecimal x d cin).value = true ∧
      bcdToNat (addDecimal x d cin).value + 100 * (addDecimal x d cin).carry.toNat =
        bcdToNat x + bcdToNat d + cin.toNat := by
  have hx := bcdToNat_le hx
  have hd := bcdToNat_le hd
  have hc := Bool.toNat_le cin
  have hmod : (bcdToNat x + bcdToNat d + cin.toNat) % 100 < 100 := Nat.mod_lt _ (by decide)
  simp only [addDecimal, isBcd_natToBcd hmod, bcdToNat_natToBcd hmod, true_and]
  by_cases hcarry : 100 ≤ bcdToNat x + bcdToNat d + cin.toNat
  · simp only [hcarry, decide_true, Bool.toNat_true]
    omega
  · simp only [hcarry, decide_false, Bool.toNat_false]
    omega

/-- The exact decimal difference is the result less the hundred borrowed (R129). -/
theorem subDecimal_spec {x d : Byte} (cin : Bool) (hx : isBcd x = true) (hd : isBcd d = true) :
    isBcd (subDecimal x d cin).value = true ∧
      bcdToNat (subDecimal x d cin).value + bcdToNat x + 1 =
        bcdToNat d + cin.toNat + 100 * (!(subDecimal x d cin).carry).toNat := by
  have hx := bcdToNat_le hx
  have hd := bcdToNat_le hd
  have hc := Bool.toNat_le cin
  have hmod : (((bcdToNat d : Int) - bcdToNat x - 1 + cin.toNat) % 100).toNat < 100 := by omega
  simp only [subDecimal, isBcd_natToBcd hmod, bcdToNat_natToBcd hmod, true_and]
  by_cases hcarry : 0 ≤ (bcdToNat d : Int) - bcdToNat x - 1 + cin.toNat
  · simp only [hcarry, decide_true, Bool.not_true, Bool.toNat_false]
    omega
  · simp only [hcarry, decide_false, Bool.not_false, Bool.toNat_true]
    omega

/-! ### The whole state after an instruction -/

theorem dualCompare_of_available (op : Byte → Byte → Bool → Alu) {r : Alu} (h : f.Available s)
    (hr : op (f.source.value s) (s.reg f.dest) s.st.c = r) :
    finish (dualCompare op f s) = .next { s with st := s.flags r.carry r.value } := by
  subst hr
  rw [finish_eq_next, dualCompare_eq_ok]
  exact ⟨_, _, readDual_of_available h, by rw [Status.result_eq_flags]⟩

theorem decimalUpdate_of_valid (op : Byte → Byte → Bool → Alu) {r : Alu} (h : f.Available s)
    (hvalid : (isBcd (f.source.value s) && isBcd (s.reg f.dest)) = true)
    (hr : op (f.source.value s) (s.reg f.dest) s.st.c = r) :
    finish (decimalUpdate op f s) = .next (s.put f.dest r.value (s.flags r.carry r.value)) := by
  subst hr
  rw [decimalUpdate, readDual_of_available h, ok_bind]
  dsimp only
  rw [if_pos hvalid, regWrite_of_hasReg _ h.2, ok_bind, finish_ok, State.setReg_st, State.setReg_result_eq_put]

/-- On an invalid operand the destination and C, N, Z are free values (log entry 8). -/
theorem decimalUpdate_of_invalid (op : Byte → Byte → Bool → Alu) (h : f.Available s)
    (hinvalid : (isBcd (f.source.value s) && isBcd (s.reg f.dest)) = false) :
    finish (decimalUpdate op f s) =
      .next { s.put f.dest (Config.bcdValue s.draws)
                ⟨Config.bcdCarry s.draws, Config.bcdSign s.draws, Config.bcdZero s.draws, s.st.i⟩ with
              draws := s.draws + 1 } := by
  rw [decimalUpdate, readDual_of_available h, ok_bind]
  dsimp only
  rw [if_neg (by simp [hinvalid]), regWrite_of_hasReg _ h.2, ok_bind, finish_ok]
  rfl

/-- Storing a word in a pair and then setting the flags of a wide result is the one update `State.putPair`. -/
theorem State.setPair_wideResult_eq_putPair (s : State) (p : Byte) (w w' : Addr) (c : Bool) :
    { (s.setReg (p - 1#8) (hiByte w)).setReg p (loByte w) with st := s.st.wideResult c w' } =
      s.putPair p w (s.wideFlags c w') := by
  rw [Status.wideResult_eq_wideFlags]
  rfl

theorem execMpy_of_available (h : f.Available s) {w : Addr}
    (hw : w = (f.source.value s).setWidth 16 * (s.reg f.dest).setWidth 16) :
    execMpy f s = .next (s.putPair 1#8 w (s.wideFlags false w)) := by
  obtain rfl : w = BitVec.ofNat 16 ((f.source.value s).toNat * (s.reg f.dest).toNat) := by
    rw [hw, BitVec.ofNat_mul, BitVec.ofNat_toNat, BitVec.ofNat_toNat]
  simp only [execMpy, readDual_of_available h, ok_bind, regWrite_a, regWrite_b, finish_ok]
  exact congrArg _ (State.setPair_wideResult_eq_putPair s 1#8 _ _ false)

/-- A bit test and jump on a test value, with the terms of the statements. -/
theorem testAndJump_eq_flags (v ofst : Byte) (s : State) :
    testAndJump v ofst s =
      { s with st := s.flags false v, pc := if v = 0#8 then s.pc else s.target ofst } := by
  rw [testAndJump_eq, Status.result_eq_flags]
  rfl

theorem execBtjo_of_available (ofst : Byte) (h : f.Available s) :
    execBtjo f ofst s = .next (testAndJump (f.source.value s &&& s.reg f.dest) ofst s) := by
  rw [execBtjo, readDual_of_available h, ok_bind, finish_ok]

theorem execBtjz_of_available (ofst : Byte) (h : f.Available s) :
    execBtjz f ofst s = .next (testAndJump (f.source.value s &&& ~~~s.reg f.dest) ofst s) := by
  rw [execBtjz, readDual_of_available h, ok_bind, finish_ok]

end Sys2Proof.Machine

namespace Sys2Proof

open Sys2Proof.Machine

/-- The bytes of a bit test and jump are those of the form and the offset (R100, R160). -/
theorem dualJumpEncoding_of_encodeDual {mk : DualForm → Byte → Instr} {l : Byte}
    (h : ∀ f o, encode (mk f o) = encodeDual l f ++ [o]) :
    DualJumpEncoding mk (0x60#8 + l) (0x10#8 + l) (0x30#8 + l) (0x40#8 + l) (0x20#8 + l) (0x50#8 + l) (0x70#8 + l) :=
  fun o => ⟨h .ba o, fun rs => h (.ra rs) o, fun rs => h (.rb rs) o, fun rs rd => h (.rr rs rd) o, fun v => h (.ia v) o,
    fun v => h (.ib v) o, fun v rd => h (.ir v rd) o⟩

/-- Settles O27: low digits 8 and 9, and the shared update with a sum. -/
theorem addResult : Obligations.AddResult := by
  refine ⟨dualEncoding_of_encodeDual (l := 0x8#8) fun _ => rfl, dualEncoding_of_encodeDual (l := 0x9#8) fun _ => rfl, ?_⟩
  rintro f s h x d c rfl rfl hc
  exact ⟨dualUpdate_of_available (fun x d _ => addBytes x d false) h (addBytes_false _ _),
    dualUpdate_of_available addBytes h (addBytes_eq _ _ _ hc)⟩

/-- Settles O28: low digits A, B and D, and the shared update or comparison with a difference. -/
theorem subtractResult : Obligations.SubtractResult := by
  refine ⟨dualEncoding_of_encodeDual (l := 0xA#8) fun _ => rfl, dualEncoding_of_encodeDual (l := 0xB#8) fun _ => rfl,
    dualEncoding_of_encodeDual (l := 0xD#8) fun _ => rfl, ?_⟩
  rintro f s h x d b rfl rfl hb
  exact ⟨dualUpdate_of_available (fun x d _ => subBytes x d true) h (subBytes_true _ _),
    dualUpdate_of_available subBytes h (subBytes_eq _ _ _ hb),
    dualCompare_of_available (fun x d _ => subBytes x d true) h (subBytes_true _ _)⟩

/-- Settles O29: low digits E and F, and the exact decimal sum and difference. -/
theorem decimalResult : Obligations.DecimalResult := by
  refine ⟨dualEncoding_of_encodeDual (l := 0xE#8) fun _ => rfl, dualEncoding_of_encodeDual (l := 0xF#8) fun _ => rfl, ?_⟩
  rintro f s h x d rfl rfl hx hd
  have hvalid := Bool.and_eq_true_iff.mpr ⟨hx, hd⟩
  obtain ⟨hsum, hsumEq⟩ := addDecimal_spec s.st.c hx hd
  obtain ⟨hdiff, hdiffEq⟩ := subDecimal_spec s.st.c hx hd
  exact ⟨⟨_, _, hsum, hsumEq, decimalUpdate_of_valid addDecimal h hvalid rfl⟩,
    ⟨_, _, hdiff, hdiffEq, decimalUpdate_of_valid subDecimal h hvalid rfl⟩⟩

/-- Settles O30: both instructions take the same four free values. -/
theorem invalidDecimalRuns : Obligations.InvalidDecimalRuns := by
  intro f s h hinvalid i hi
  simp only [List.mem_cons, List.not_mem_nil, or_false] at hi
  obtain rfl | rfl := hi
  · exact ⟨_, _, _, _, decimalUpdate_of_invalid addDecimal h hinvalid⟩
  · exact ⟨_, _, _, _, decimalUpdate_of_invalid subDecimal h hinvalid⟩

/-- Settles O31: low digit C, and the product in the pair A:B. -/
theorem multiplyResult : Obligations.MultiplyResult :=
  ⟨dualEncoding_of_encodeDual (l := 0xC#8) fun _ => rfl, fun _ _ h => execMpy_of_available h rfl⟩

/-- Settles O34: low digits 6 and 7, and the shared test with the jump on either side of it. -/
theorem bitTestResult : Obligations.BitTestResult := by
  refine ⟨dualJumpEncoding_of_encodeDual (l := 0x6#8) fun _ _ => rfl,
    dualJumpEncoding_of_encodeDual (l := 0x7#8) fun _ _ => rfl, ?_⟩
  rintro f ofst s h x d rfl rfl
  rw [← testAndJump_eq_flags, ← testAndJump_eq_flags]
  exact ⟨execBtjo_of_available ofst h, execBtjz_of_available ofst h⟩

end Sys2Proof

/-! SUPPORT. The peripheral file and extended addressing (spec/44_peripheral.md, spec/45_extended.md): the bytes of
the forms, and the whole state after each instruction whose effective address can be formed. -/

namespace Sys2Proof

/-- The source gives the high digit of the opcode, `rest` is the offset or nothing (R82, R200). -/
theorem periphEncoding_of_encodePeriph {mk : PeriphSource → Byte → Instr} {rest : List Byte} {l : Byte}
    (h : ∀ src pn, encode (mk src pn) = encodePeriph l src pn ++ rest) :
    PeriphEncoding mk rest (0x80#8 + l) (0x90#8 + l) (0xA0#8 + l) :=
  fun pn => ⟨h .a pn, h .b pn, fun v => h (.imm v) pn⟩

/-- The form gives the high digit of the opcode, the label is high byte first (R95, R210). -/
theorem extEncoding_of_encodeExtended {mk : ExtForm → Instr} {l : Byte} (h : ∀ f, encode (mk f) = encodeExtended l f) :
    ExtEncoding mk (0x80#8 + l) (0xA0#8 + l) (0x90#8 + l) := by
  refine ⟨fun hi lo => ?_, fun hi lo => ?_, fun n => h (.indirect n)⟩ <;>
    rw [h, encodeExtended, Machine.hiByte_append, Machine.loByte_append]

namespace Machine

variable {s : State} {f : ExtForm}

/-! ### Reading and writing at an effective address -/

/-- `LDA` from the byte and the state its read answers. -/
theorem execLda_of_memRead {v : Byte} {u : State} (h : f.Available s) (hr : memRead (f.address s) s = .ok (v, u)) :
    execLda f s = .next (u.put 0#8 v (u.flags false v)) := by
  simp only [execLda, effectiveAddr_of_available h, hr, ok_bind, regWrite_a, finish_ok, State.setReg_st,
    State.setReg_result_eq_put]

/-- `CMPA` from the byte and the state its read answers. -/
theorem execCmpa_of_memRead {v a : Byte} {u : State} (h : f.Available s) (ha : a = s.reg 0#8)
    (hr : memRead (f.address s) s = .ok (v, u)) :
    execCmpa f s = .next { u with st := u.flags (decide (v.toNat ≤ a.toNat)) (a - v) } := by
  subst ha
  simp only [execCmpa, effectiveAddr_of_available h, regRead_a, hr, ok_bind, subBytes_true, finish_ok,
    Status.result_eq_flags]
  rfl

/-- `STA` from the state its write answers. -/
theorem execSta_of_memWrite {a : Byte} {u : State} (h : f.Available s) (ha : a = s.reg 0#8)
    (hw : memWrite (f.address s) a s = .ok u) : execSta f s = .next { u with st := u.flags false a } := by
  subst ha
  rw [execSta, effectiveAddr_of_available h, ok_bind, regRead_a, ok_bind]
  change finish (memWrite (f.address s) (s.reg 0#8) s >>= _) = _
  rw [hw, ok_bind, finish_ok, Status.result_eq_flags]
  rfl

/-- The state after the environment answered a read: the answer is recorded (R55). -/
def State.afterRead (s : State) (e : Event) : State := { s with events := e :: s.events, draws := s.draws + 1 }

/-- A read of the peripheral file or of a device, with the terms of the statements (R50). -/
theorem memRead_answered {a : Addr} {v : Byte} {e : Event}
    (h : placeOf s.cfg a = .peripheral ∧ v = Config.periphAnswer s.events s.draws (a.extractLsb' 0 8) ∧
        e = .periphRead (a.extractLsb' 0 8) v ∨
      placeOf s.cfg a = .device ∧ v = Config.deviceAnswer s.events s.draws a ∧ e = .deviceRead a v) :
    memRead a s = .ok (v, s.afterRead e) := by
  unfold memRead
  obtain ⟨hp, rfl, rfl⟩ | ⟨hp, rfl, rfl⟩ := h
  · rw [hp]; rfl
  · rw [hp]; rfl

theorem memWrite_peripheral {a : Addr} (v : Byte) (h : placeOf s.cfg a = .peripheral) :
    memWrite a v s = .ok { s with events := .periphWrite (loByte a) v :: s.events } := by
  unfold memWrite
  rw [h]

theorem memWrite_device {a : Addr} (v : Byte) (h : placeOf s.cfg a = .device) :
    memWrite a v s = .ok { s with events := .deviceWrite a v :: s.events } := by
  unfold memWrite
  rw [h]

/-! ### Control transfer and the pair move -/

theorem execBr_of_available (h : f.Available s) : execBr f s = .next { s with pc := f.address s } := by
  rw [execBr, effectiveAddr_of_available h, ok_bind, finish_ok]

theorem execCall_of_available (h : f.Available s) (h1 : s.HasReg (s.sp + 1#8)) (h2 : s.HasReg (s.sp + 2#8)) :
    execCall f s = .next { s with
      sp := s.sp + 2#8
      mem := (s.mem.write (s.sp + 1#8).toNat (hiByte s.pc)).write (s.sp + 2#8).toNat (loByte s.pc)
      pc := f.address s } := by
  rw [execCall, effectiveAddr_of_available h, ok_bind, push16_eq_ok.mpr ⟨h1, h2, rfl⟩, ok_bind, finish_ok]
  rfl

theorem execMovd_of_available {f : MovdForm} (h : f.Available s) :
    execMovd f s = .next (s.putPair f.dest (f.value s) (s.wideFlags false (f.value s))) := by
  rw [execMovd, movdSource_of_available h, ok_bind, writePair_of_hasPair _ (MovdForm.hasPair_dest h), ok_bind,
    finish_ok]
  exact congrArg _ (State.setPair_wideResult_eq_putPair s f.dest _ _ false)

/-! ### The files as regions of the address space (R22, R31) -/

theorem toNat_zeroExtended (n : Byte) : (n.setWidth 16).toNat = n.toNat := by
  have := n.isLt
  rw [BitVec.toNat_setWidth]
  omega

theorem memRead_register (n : Byte) (s : State) :
    memRead (n.setWidth 16) s = (do let v ← regRead n s; .ok (v, s)) := by
  by_cases h : s.HasReg n
  · rw [memRead_storage (.inl (by rw [placeOf_register, if_pos h])), regRead_of_hasReg h, toNat_zeroExtended]
    rfl
  · rw [memRead_missing h, regRead_missing h]
    rfl

theorem memWrite_register (n v : Byte) (s : State) : memWrite (n.setWidth 16) v s = regWrite n v s := by
  by_cases h : s.HasReg n
  · rw [memWrite_writable (.inl (by rw [placeOf_register, if_pos h])), regWrite_of_hasReg _ h, toNat_zeroExtended]
    rfl
  · rw [memWrite_missing v h, regWrite_missing v h]

end Machine

open Sys2Proof.Machine

/-- Settles O35: low digits 6 and 7; the source is always there, and the peripheral read cannot stop. -/
theorem peripheralBitTestResult : Obligations.PeripheralBitTestResult := by
  refine ⟨fun ofst => periphEncoding_of_encodePeriph (l := 0x6#8) fun _ _ => rfl,
    fun ofst => periphEncoding_of_encodePeriph (l := 0x7#8) fun _ _ => rfl, ?_⟩
  rintro src pn ofst s x p rfl rfl
  refine ⟨(execBtjop_eq src pn ofst s).trans ?_, (execBtjzp_eq src pn ofst s).trans ?_⟩
  all_goals
    rw [testAndJump_eq_flags]
    rfl

/-- Settles O36: the write forms have low digit 2, the read forms their own opcodes; one access each. -/
theorem peripheralMoveResult : Obligations.PeripheralMoveResult := by
  refine ⟨periphEncoding_of_encodePeriph (l := 0x2#8) fun _ _ => (List.append_nil _).symm, fun _ => rfl,
    fun _ => rfl, ?_⟩
  rintro src pn s x p rfl hp
  refine ⟨(execMovp_toPeriph_eq src pn s).trans ?_, (execMovp_toA_eq pn s hp).trans ?_,
    (execMovp_toB_eq pn s hp).trans ?_⟩
  · rw [Status.result_eq_flags]
  · rw [Status.result_eq_flags, hp]
    rfl
  · rw [Status.result_eq_flags, hp]
    rfl

/-- Settles O37: low digits 3, 4 and 5, and the shared read and write with an operation that always clears C. -/
theorem peripheralLogicResult : Obligations.PeripheralLogicResult := by
  refine ⟨periphEncoding_of_encodePeriph (l := 0x3#8) fun _ _ => (List.append_nil _).symm,
    periphEncoding_of_encodePeriph (l := 0x4#8) fun _ _ => (List.append_nil _).symm,
    periphEncoding_of_encodePeriph (l := 0x5#8) fun _ _ => (List.append_nil _).symm, ?_⟩
  rintro src pn s x p rfl rfl i r hi
  simp only [List.mem_cons, List.not_mem_nil, or_false, Prod.mk.injEq] at hi
  rw [← Status.result_eq_flags]
  obtain ⟨rfl, rfl⟩ | ⟨rfl, rfl⟩ | ⟨rfl, rfl⟩ := hi
  · exact finish_eq_next.mpr (periphUpdate_eq andBytes src pn s rfl)
  · exact finish_eq_next.mpr (periphUpdate_eq orBytes src pn s rfl)
  · exact finish_eq_next.mpr (periphUpdate_eq xorBytes src pn s rfl)

/-- Settles O38: low digits A and D; a stored byte is read without a trace. -/
theorem loadOwnedByte : Obligations.LoadOwnedByte := by
  refine ⟨extEncoding_of_encodeExtended (l := 0xA#8) fun _ => rfl,
    extEncoding_of_encodeExtended (l := 0xD#8) fun _ => rfl, ?_⟩
  rintro f s h hplace v a rfl ha
  exact ⟨execLda_of_memRead h (memRead_storage hplace), execCmpa_of_memRead h ha (memRead_storage hplace)⟩

/-- Settles O39: the same instructions, with the recorded answer of the environment. -/
theorem loadAnsweredByte : Obligations.LoadAnsweredByte := by
  refine ⟨extEncoding_of_encodeExtended (l := 0xA#8) fun _ => rfl,
    extEncoding_of_encodeExtended (l := 0xD#8) fun _ => rfl, ?_⟩
  intro f s v a e h ha hanswer
  exact ⟨execLda_of_memRead h (memRead_answered hanswer), execCmpa_of_memRead h ha (memRead_answered hanswer)⟩

/-- Settles O40: low digit B, and one write at each kind of place that may be written. -/
theorem storeResult : Obligations.StoreResult := by
  refine ⟨extEncoding_of_encodeExtended (l := 0xB#8) fun _ => rfl, fun f s a h ha =>
    ⟨fun hp => ?_, fun hp => ?_, fun hp => ?_⟩⟩
  · exact execSta_of_memWrite h ha (memWrite_writable hp)
  · exact execSta_of_memWrite h ha (memWrite_peripheral a hp)
  · exact execSta_of_memWrite h ha (memWrite_device a hp)

/-- Settles O41: low digits C and E; the effective address itself is the target, and `CALL` pushes pc first. -/
theorem branchAndCallResult : Obligations.BranchAndCallResult :=
  ⟨extEncoding_of_encodeExtended (l := 0xC#8) fun _ => rfl, extEncoding_of_encodeExtended (l := 0xE#8) fun _ => rfl,
    fun _ _ h => ⟨execBr_of_available h, execCall_of_available h⟩⟩

/-- Settles O42: three opcodes of low digit 8; the value is read before the pair is written. -/
theorem movePairResult : Obligations.MovePairResult := by
  refine ⟨fun hi lo p => ?_, fun hi lo p => ?_, fun _ _ => rfl, fun _ _ h => execMovd_of_available h⟩ <;>
    rw [encode, hiByte_append, loByte_append]

/-- Settles O26: a read or a write at the address of a register or of `P[n]` is that of the file, stops included. -/
theorem filesLieInTheAddressSpace : Obligations.FilesLieInTheAddressSpace := by
  intro s n
  refine ⟨?_, ?_, rfl, rfl⟩
  · change execLda _ s = execMov _ s
    simp only [execLda, effectiveAddr, ok_bind, memRead_register, execMov, MovForm.source, DualForm.source,
      readOperand, bind_assoc]
    rfl
  · change execSta _ s = execMov _ s
    simp only [execSta, effectiveAddr, ok_bind, memWrite_register]
    rfl

end Sys2Proof

/-! SUPPORT. Single operands, the stack and the jumps (spec/43_single_operand.md, spec/46_control.md): the whole state
after each instruction, and the pairs of a call and a return, a push and a pop. -/

namespace Sys2Proof

namespace Machine

variable {s t u : State} {d : Single}

/-! ### One byte (R171, R172, R177) -/

theorem decByte_eq (v : Byte) : subBytes 1#8 v true = ⟨v - 1#8, decide (v ≠ 0x00#8)⟩ := by
  rw [subBytes_true, Alu.mk.injEq, decide_eq_decide]
  exact ⟨rfl, by bv_omega⟩

theorem incByte_eq (v : Byte) : addBytes 1#8 v false = ⟨v + 1#8, decide (v = 0xFF#8)⟩ := by
  rw [addBytes_false, BitVec.add_comm, Alu.mk.injEq, decide_eq_decide]
  exact ⟨rfl, by bv_omega⟩

theorem swapNibbles_eq (v : Byte) : swapNibbles v = ⟨v.extractLsb' 0 4 ++ v.extractLsb' 4 4, v.getLsbD 4⟩ := by
  have hvalue : v <<< 4 ||| v >>> 4 = v.extractLsb' 0 4 ++ v.extractLsb' 4 4 := by
    apply BitVec.eq_of_getLsbD_eq
    intro i hi
    rw [BitVec.getLsbD_append (x := v.extractLsb' 0 4)]
    by_cases hlow : i < 4
    · simp [hi, hlow]
    · have hhigh : i - 4 < 4 := by omega
      have hout : v.getLsbD (4 + i) = false := BitVec.getLsbD_of_ge v _ (by omega)
      simp [hi, hlow, hhigh, hout, BitVec.getLsbD_eq_getElem (show i - 4 < 8 by omega)]
  rw [swapNibbles, Alu.mk.injEq]
  exact ⟨hvalue, by simp⟩

/-! ### The whole state after an instruction -/

theorem execXchb_of_hasReg (h : s.HasReg d.num) :
    execXchb d s = .next { s with
      mem := (s.mem.write d.num.toNat s.b).write 1 (s.reg d.num)
      st := s.flags false s.b } := by
  simp only [execXchb, regRead_of_hasReg h, regRead_b, regWrite_of_hasReg _ h, regWrite_b, ok_bind, finish_ok]
  rw [← Status.result_eq_flags]
  rfl

theorem testRegister_of_hasReg {n : Byte} (h : s.HasReg n) :
    finish (testRegister n s) = .next { s with st := s.flags false (s.reg n) } := by
  rw [testRegister, regRead_of_hasReg h, ok_bind, finish_ok, Status.result_eq_flags]

theorem execPush_of_hasReg (h : s.HasReg d.num) (hsp : s.HasReg (s.sp + 1#8)) :
    execPush d s =
      .next { s.put (s.sp + 1#8) (s.reg d.num) (s.flags false (s.reg d.num)) with sp := s.sp + 1#8 } := by
  rw [execPush, regRead_of_hasReg h, ok_bind, push8_of_hasReg _ hsp, ok_bind, finish_ok, ← Status.result_eq_flags]
  rfl

theorem execPop_of_hasReg (h : s.HasReg d.num) (hsp : s.HasReg s.sp) :
    execPop d s = .next { s.put d.num (s.reg s.sp) (s.flags false (s.reg s.sp)) with sp := s.sp - 1#8 } := by
  rw [execPop, pop8_of_hasReg hsp, ok_bind]
  dsimp only
  rw [regWrite_of_hasReg _ (s := { s with sp := s.sp - 1#8 }) h, ok_bind, finish_ok, ← Status.result_eq_flags]
  rfl

theorem execDjnz_of_hasReg (ofst : Byte) (h : s.HasReg d.num) :
    execDjnz d ofst s = .next { s with
      mem := s.mem.write d.num.toNat (s.reg d.num - 1#8)
      pc := if s.reg d.num = 1#8 then s.pc else s.target ofst } := by
  have hzero : s.reg d.num - 1#8 = 0#8 ↔ s.reg d.num = 1#8 := by bv_omega
  simp only [execDjnz, regRead_of_hasReg h, regWrite_of_hasReg _ h, ok_bind, finish_ok, hzero]
  split <;> rfl

theorem execDecd_of_hasPair {w : Addr} (h : s.HasPair d.num) (hw : w = s.pair d.num) :
    execDecd d s = .next (s.putPair d.num (w - 1#16) (s.wideFlags (decide (w ≠ 0x0000#16)) (w - 1#16))) := by
  subst hw
  rw [execDecd, readPair_of_hasPair h, ok_bind, writePair_of_hasPair _ h, ok_bind, finish_ok]
  have hc : (s.pair d.num != 0#16) = decide (s.pair d.num ≠ 0#16) := by rw [Bool.eq_iff_iff]; simp
  rw [hc]
  exact congrArg _ (State.setPair_wideResult_eq_putPair s d.num _ _ _)

/-! ### Traps -/

/-- A trap up to its vector: the address of the next instruction is pushed (R256). -/
def State.trapStart (s : State) : State :=
  { s with
    sp := s.sp + 2#8
    mem := (s.mem.write (s.sp + 1#8).toNat (hiByte s.pc)).write (s.sp + 2#8).toNat (loByte s.pc) }

/-- With its stack bytes there, a trap goes on to its vector. -/
theorem execTrap_eq (n : Nat) (h1 : s.HasReg (s.sp + 1#8)) (h2 : s.HasReg (s.sp + 2#8)) :
    execTrap n s = finish (do
      let (entry, t) ← readVector n s.trapStart
      .ok { t with pc := entry }) := by
  rw [execTrap, push16_eq_ok.mpr ⟨h1, h2, rfl⟩, ok_bind]
  rfl

/-! ### Pushed and popped -/

/-- A return from a subroutine pops the address where it is found above the stack pointer of before. -/
theorem execRets_of_stack {sp : Byte} {ret : Addr} (hsp : u.sp = sp + 2#8)
    (h1 : u.HasReg (sp + 1#8)) (h2 : u.HasReg (sp + 2#8)) (r1 : u.reg (sp + 1#8) = hiByte ret)
    (r2 : u.reg (sp + 2#8) = loByte ret) : execRets u = .next { u with pc := ret, sp := sp } := by
  have e1 : sp + 2#8 - 1#8 = sp + 1#8 := by bv_omega
  have e2 : sp + 2#8 - 2#8 = sp := by bv_omega
  rw [execRets_eq_next, hsp, e1, e2, r1, r2, wordOf_hiByte_loByte]
  exact ⟨h2, h1, rfl⟩

/-- What a push of 16 bits leaves: the two bytes above the old stack pointer, the high byte first. -/
theorem push16_stack {w : Addr} (h : push16 w s = .ok t) :
    s.HasReg (s.sp + 1#8) ∧ s.HasReg (s.sp + 2#8) ∧ t.sp = s.sp + 2#8 ∧ t.cfg = s.cfg ∧
      t.reg (s.sp + 1#8) = hiByte w ∧ t.reg (s.sp + 2#8) = loByte w := by
  obtain ⟨h1, h2, rfl⟩ := push16_eq_ok.mp h
  have hne : s.sp + 1#8 ≠ s.sp + 2#8 := by bv_omega
  exact ⟨h1, h2, rfl, rfl, by rw [State.reg_setReg, if_neg hne, State.reg_setReg_same], State.reg_setReg_same ..⟩

/-- Whichever of the two calls it was, `RETS` undoes its push. -/
theorem execRets_undoes_push16 (hpush : push16 s.pc s = .ok t) (hsp : u.sp = t.sp) (hcfg : u.cfg = t.cfg)
    (hregs : ∀ n ∈ [s.sp + 1#8, s.sp + 2#8], u.reg n = t.reg n) :
    execRets u = .next { u with pc := s.pc, sp := s.sp } := by
  obtain ⟨h1, h2, htsp, htcfg, r1, r2⟩ := push16_stack hpush
  simp only [List.forall_mem_cons] at hregs
  obtain ⟨u1, u2, -⟩ := hregs
  have hhas {n : Byte} (h : s.HasReg n) : u.HasReg n := by rwa [State.HasReg, hcfg, htcfg]
  exact execRets_of_stack (hsp.trans htsp) (hhas h1) (hhas h2) (u1.trans r1) (u2.trans r2)

end Machine

open Sys2Proof.Machine

/-- Settles O44: low digits 2 and 3, and the shared update with a step by one. -/
theorem decrementAndIncrementResult : Obligations.DecrementAndIncrementResult := by
  refine ⟨singleEncoding_of_encodeSingle (l := 0x2#8) fun _ => rfl,
    singleEncoding_of_encodeSingle (l := 0x3#8) fun _ => rfl, ?_⟩
  rintro d s h v rfl
  exact ⟨singleUpdate_of_hasReg (fun v _ => subBytes 1#8 v true) h (decByte_eq _),
    singleUpdate_of_hasReg (fun v _ => addBytes 1#8 v false) h (incByte_eq _)⟩

/-- Settles O45: `XCHB` has no form B and low digit 6, `SWAP` low digit 7 and the shared update. -/
theorem exchangeResult : Obligations.ExchangeResult := by
  refine ⟨rfl, fun _ => rfl, singleEncoding_of_encodeSingle (l := 0x7#8) fun _ => rfl, ?_⟩
  rintro d s h v r rfl rfl
  exact ⟨execXchb_of_hasReg h, singleUpdate_of_hasReg (fun v _ => swapNibbles v) h (swapNibbles_eq _)⟩

/-- Settles O47: the three are the test of A or of B, which exist on every platform. -/
theorem testRegisterResult : Obligations.TestRegisterResult :=
  ⟨rfl, rfl, rfl, fun s => ⟨testRegister_of_hasReg s.hasReg_a, testRegister_of_hasReg s.hasReg_a,
    testRegister_of_hasReg s.hasReg_b⟩⟩

/-- Settles O48: low digits 8 and 9; one byte moves between the operand and the stack. -/
theorem pushAndPopResult : Obligations.PushAndPopResult :=
  ⟨singleEncoding_of_encodeSingle (l := 0x8#8) fun _ => rfl, singleEncoding_of_encodeSingle (l := 0x9#8) fun _ => rfl,
    fun _ _ h => ⟨execPush_of_hasReg h, execPop_of_hasReg h⟩⟩

/-- Settles O49: low digit A with the offset after the operand; the result is zero exactly from 1. -/
theorem decrementAndJumpResult : Obligations.DecrementAndJumpResult :=
  ⟨fun _ => ⟨rfl, rfl⟩, fun _ _ => rfl, fun _ ofst _ h => execDjnz_of_hasReg ofst h⟩

/-- Settles O50: low digit B; the pair is read, decremented and written. -/
theorem decrementPairResult : Obligations.DecrementPairResult :=
  ⟨singleEncoding_of_encodeSingle (l := 0xB#8) fun _ => rfl, fun _ _ h _ hw => execDecd_of_hasPair h hw⟩

/-- Settles O54: each return pops from `sp` down what its inversion lemma names. -/
theorem stackReturnsResult : Obligations.StackReturnsResult := by
  refine ⟨rfl, rfl, rfl, fun s h0 => ⟨execPopSt_eq_next.mpr ⟨h0, rfl⟩, fun h1 =>
    ⟨execRets_eq_next.mpr ⟨h0, h1, rfl⟩, ?_⟩⟩⟩
  rintro h2 v rfl
  exact finish_eq_next.mpr (interruptReturn_eq_ok.mpr ⟨h0, h1, h2, rfl⟩)

/-- Settles O55: the low bits are those the platform fixes, else a free value. -/
theorem pushStatusResult : Obligations.PushStatusResult := by
  refine ⟨rfl, fun s h => ⟨(statusLow s).1, _, fun _ => statusLow_of_some, rfl, ?_⟩⟩
  rw [← Status.result_eq_flags]
  exact (execPushSt_eq_next rfl).mpr ⟨h, rfl⟩

/-- Settles O56: each spelling is the jump on its condition. -/
theorem jumpResult : Obligations.JumpResult := by
  intro ofst s i op taken hi
  simp only [List.mem_cons, List.not_mem_nil, or_false, Prod.mk.injEq] at hi
  rcases hi with ⟨rfl, rfl, rfl⟩ | ⟨rfl, rfl, rfl⟩ | ⟨rfl, rfl, rfl⟩ | ⟨rfl, rfl, rfl⟩ | ⟨rfl, rfl, rfl⟩ |
    ⟨rfl, rfl, rfl⟩ | ⟨rfl, rfl, rfl⟩ | ⟨rfl, rfl, rfl⟩ | ⟨rfl, rfl, rfl⟩ | ⟨rfl, rfl, rfl⟩ | ⟨rfl, rfl, rfl⟩ |
    ⟨rfl, rfl, rfl⟩ | ⟨rfl, rfl, rfl⟩
  · exact ⟨rfl, rfl⟩
  all_goals exact ⟨rfl, jumpIf_eq _ ofst s⟩

/-- Settles O57: the pushes stay in the register file, below the vector, which is read as it was before. -/
theorem trapResult : Obligations.TrapResult := by
  intro n s hn h1 h2 hv1 hv2
  refine ⟨rfl, ?_⟩
  change execTrap n s = _
  have hread {a : Nat} (ha : 256 ≤ a) : s.trapStart.mem.read a = s.mem.read a := by
    simp only [State.trapStart, read_write_register _ _ ha]
  rw [execTrap_eq n h1 h2, readVector_of_storage (s := s.trapStart) (by omega) hv1 hv2, hread (by omega),
    hread (by omega)]
  rfl

/-- Settles O58: a call and a trap push pc before anything else changes it. -/
theorem returnUndoesCall : Obligations.ReturnUndoesCall := by
  rintro i s t u (⟨f, rfl⟩ | ⟨n, rfl⟩) h hsp hcfg hregs
  · obtain ⟨ea, v, -, hpush, rfl⟩ := execCall_eq_next h
    exact execRets_undoes_push16 hpush hsp hcfg hregs
  · obtain ⟨v, entry, w, hpush, hvec, rfl⟩ := execTrap_eq_next.mp h
    obtain ⟨new, d, -, rfl⟩ := readVector_observes hvec
    exact execRets_undoes_push16 hpush hsp hcfg hregs

/-- Settles O59: the byte pushed is where the pop finds it; the low bits of a status byte are ignored. -/
theorem popUndoesPush : Obligations.PopUndoesPush := by
  intro s t u hsp hcfg hreg
  refine ⟨fun d e h he => ?_, fun h => ?_⟩
  · obtain ⟨-, h1, rfl⟩ := execPush_eq_next h
    have hr : u.reg u.sp = s.reg d.num := by
      rw [hsp]
      exact hreg.trans (State.reg_setReg_same ..)
    have hhas : u.HasReg u.sp := by rw [State.HasReg, hsp, hcfg]; exact h1
    have hback : u.sp - 1#8 = s.sp := by rw [hsp]; exact BitVec.add_sub_cancel ..
    change execPop e u = _
    rw [execPop_of_hasReg he hhas, hr, hback]
  · obtain ⟨h1, rfl⟩ := (execPushSt_eq_next rfl).mp h
    have hr : Status.ofByte (u.reg u.sp) = s.st := by
      rw [hsp]
      refine (congrArg _ (hreg.trans (State.reg_setReg_same s _ _))).trans (Status.ofByte_toByte _ _)
    have hhas : u.HasReg u.sp := by rw [State.HasReg, hsp, hcfg]; exact h1
    have hback : u.sp - 1#8 = s.sp := by rw [hsp]; exact BitVec.add_sub_cancel ..
    rw [← hr, ← hback]
    exact execPopSt_eq_next.mpr ⟨hhas, rfl⟩

end Sys2Proof

/-! SUPPORT. Where each instruction and each step stops, and by which name (spec/60_exceptions.md R261): a stop of the
operation that comes first is the stop of the whole. -/

namespace Sys2Proof.Machine

variable {s t : State} {e : Stop} {n : Byte}

/-! ### A stop of the operands -/

theorem readOperand_missing (hn : ¬ s.HasReg n) : readOperand (.reg n) s = .error (.fault (.unimplementedRegister n)) :=
  regRead_missing hn

/-- The source is read first, then the destination. -/
theorem readDual_missing {f : DualForm} (hn : ¬ s.HasReg n)
    (h : f.source = .reg n ∨ (f.source.Available s ∧ f.dest = n)) :
    readDual f s = .error (.fault (.unimplementedRegister n)) := by
  unfold readDual
  obtain hsource | ⟨hsource, rfl⟩ := h
  · rw [hsource, readOperand_missing hn, error_bind]
  · rw [readOperand_of_available hsource, ok_bind, regRead_missing hn, error_bind]

theorem exec_dual_of_stop {f : DualForm} (ofst : Byte) (h : readDual f s = .error e) :
    ∀ i ∈ [Instr.and f, .or f, .xor f, .btjo f ofst, .btjz f ofst, .add f, .adc f, .sub f, .sbb f, .mpy f,
        .cmp f, .dac f, .dsb f], exec i s = finish (.error e) := by
  have hupdate (op : Byte → Byte → Bool → Alu) : finish (dualUpdate op f s) = finish (.error e) := by
    rw [dualUpdate, h, error_bind]
  have hdecimal (op : Byte → Byte → Bool → Alu) : finish (decimalUpdate op f s) = finish (.error e) := by
    rw [decimalUpdate, h, error_bind]
  have hcompare (op : Byte → Byte → Bool → Alu) : finish (dualCompare op f s) = finish (.error e) := by
    rw [dualCompare, h, error_bind]
  have hbtjo : execBtjo f ofst s = finish (.error e) := by rw [execBtjo, h, error_bind]
  have hbtjz : execBtjz f ofst s = finish (.error e) := by rw [execBtjz, h, error_bind]
  have hmpy : execMpy f s = finish (.error e) := by rw [execMpy, h, error_bind]
  simp only [List.forall_mem_cons]
  exact ⟨hupdate _, hupdate _, hupdate _, hbtjo, hbtjz, hupdate _, hupdate _, hupdate _, hupdate _, hmpy, hcompare _,
    hdecimal _, hdecimal _, nofun⟩

theorem execMov_missing {f : MovForm} (hn : ¬ s.HasReg n)
    (h : f.source = .reg n ∨ (f.source.Available s ∧ f.dest = n)) :
    execMov f s = .fault (.unimplementedRegister n) := by
  unfold execMov
  obtain hsource | ⟨hsource, rfl⟩ := h
  · rw [hsource, readOperand_missing hn, error_bind, finish_fault]
  · rw [readOperand_of_available hsource, ok_bind, regWrite_missing _ hn, error_bind, finish_fault]

theorem exec_single_missing (ofst : Byte) (hn : ¬ s.HasReg n) :
    ∀ i ∈ [Instr.dec (.r n), .inc (.r n), .inv (.r n), .clr (.r n), .xchb (.r n), .swap (.r n), .push (.r n),
        .djnz (.r n) ofst, .rr (.r n), .rrc (.r n), .rl (.r n), .rlc (.r n)],
      exec i s = .fault (.unimplementedRegister n) := by
  have hread : regRead (Single.r n).num s = .error (.fault (.unimplementedRegister n)) := regRead_missing hn
  have hupdate (op : Byte → Bool → Alu) : finish (singleUpdate op (.r n) s) = .fault (.unimplementedRegister n) := by
    rw [singleUpdate, hread, error_bind, finish_fault]
  have hclr : execClr (.r n) s = .fault (.unimplementedRegister n) := by
    rw [execClr, Single.num, regWrite_missing _ hn, error_bind, finish_fault]
  have hxchb : execXchb (.r n) s = .fault (.unimplementedRegister n) := by
    rw [execXchb, hread, error_bind, finish_fault]
  have hpush : execPush (.r n) s = .fault (.unimplementedRegister n) := by
    rw [execPush, hread, error_bind, finish_fault]
  have hdjnz : execDjnz (.r n) ofst s = .fault (.unimplementedRegister n) := by
    rw [execDjnz, hread, error_bind, finish_fault]
  simp only [List.forall_mem_cons]
  exact ⟨hupdate _, hupdate _, hupdate _, hclr, hxchb, hupdate _, hpush, hdjnz, hupdate _, hupdate _, hupdate _,
    hupdate _, nofun⟩

/-- The popped byte is there, its destination is not. -/
theorem execPop_missing_dest (hn : ¬ s.HasReg n) (hsp : s.HasReg s.sp) :
    execPop (.r n) s = .fault (.unimplementedRegister n) := by
  rw [execPop, pop8_of_hasReg hsp, ok_bind]
  dsimp only
  rw [Single.num, regWrite_missing (s := { s with sp := s.sp - 1#8 }) _ hn, error_bind, finish_fault]

/-! ### A stop of a pair -/

theorem exec_pair_of_stop {p : Byte} (h : readPair p s = .error e) :
    (∀ i ∈ [Instr.decd (.r p), .lda (.indirect p), .sta (.indirect p), .br (.indirect p), .cmpa (.indirect p),
        .call (.indirect p)], exec i s = finish (.error e)) ∧
      ∀ pd, exec (.movd (.pair p pd)) s = finish (.error e) := by
  have hea : effectiveAddr (.indirect p) s = .error e := h
  have hdecd : execDecd (.r p) s = finish (.error e) := by rw [execDecd, Single.num, h, error_bind]
  have hlda : execLda (.indirect p) s = finish (.error e) := by rw [execLda, hea, error_bind]
  have hsta : execSta (.indirect p) s = finish (.error e) := by rw [execSta, hea, error_bind]
  have hbr : execBr (.indirect p) s = finish (.error e) := by rw [execBr, hea, error_bind]
  have hcmpa : execCmpa (.indirect p) s = finish (.error e) := by rw [execCmpa, hea, error_bind]
  have hcall : execCall (.indirect p) s = finish (.error e) := by rw [execCall, hea, error_bind]
  have hmovd (pd : Byte) : execMovd (.pair p pd) s = finish (.error e) := by
    have hsource : movdSource (.pair p pd) s = .error e := h
    rw [execMovd, hsource, error_bind]
  simp only [List.forall_mem_cons]
  exact ⟨⟨hdecd, hlda, hsta, hbr, hcmpa, hcall, nofun⟩, hmovd⟩

/-- A destination pair stops `MOVD` after its source was read. -/
theorem execMovd_of_stop {f : MovdForm} {w : Addr} (hsource : movdSource f s = .ok w)
    (h : writePair f.dest w s = .error e) : execMovd f s = finish (.error e) := by
  rw [execMovd, hsource, ok_bind, h, error_bind]

theorem exec_movd_dest_of_stop {p : Byte} (h : ∀ w, writePair p w s = .error e) :
    (∀ iop, exec (.movd (.imm iop p)) s = finish (.error e)) ∧
      (∀ iop, exec (.movd (.immB iop p)) s = finish (.error e)) ∧
      ∀ ps, s.HasPair ps → exec (.movd (.pair ps p)) s = finish (.error e) := by
  refine ⟨fun iop => execMovd_of_stop (f := .imm iop p) rfl (h _), fun iop => ?_, fun ps hps => ?_⟩
  · have hsource : movdSource (.immB iop p) s = .ok (indexedBy iop s.b) := by rw [movdSource, regRead_b, ok_bind]
    exact execMovd_of_stop hsource (h _)
  · have hsource : movdSource (.pair ps p) s = .ok (s.pair ps) := readPair_of_hasPair hps
    exact execMovd_of_stop hsource (h _)

/-! ### A stop of a data access -/

theorem execSta_of_stop {f : ExtForm} (h : f.Available s) (hwrite : ∀ v, memWrite (f.address s) v s = .error e) :
    execSta f s = finish (.error e) := by
  rw [execSta, effectiveAddr_of_available h, ok_bind, regRead_a, ok_bind, hwrite, error_bind]

theorem exec_data_of_stop {f : ExtForm} (h : f.Available s) (hread : memRead (f.address s) s = .error e)
    (hwrite : ∀ v, memWrite (f.address s) v s = .error e) :
    ∀ i ∈ [Instr.lda f, .sta f, .cmpa f], exec i s = finish (.error e) := by
  have hlda : execLda f s = finish (.error e) := by
    rw [execLda, effectiveAddr_of_available h, ok_bind, hread, error_bind]
  have hcmpa : execCmpa f s = finish (.error e) := by
    rw [execCmpa, effectiveAddr_of_available h, ok_bind, regRead_a, ok_bind, hread, error_bind]
  simp only [List.forall_mem_cons]
  exact ⟨hlda, execSta_of_stop h hwrite, hcmpa, nofun⟩

/-! ### A stop of the fetch -/

/-- The byte after those fetched cannot be read: the step stops as its read does. -/
theorem step_of_fetchStop {j : Nat} {bs : List Byte} (hready : s.Ready) (hf : fetchBytes j s = .ok (bs, t))
    (hgoes : s.FetchGoesOn bs) (he : memRead t.pc t = .error e) : step s = finish (.error e) := by
  have hfetch : fetchInstr s = .error e := by
    cases bs with
    | nil =>
      obtain rfl : j = 0 := (fetchBytes_eq_ok hf).2.1.symm
      cases hf
      simp only [fetchInstr, fetch8, he, error_bind]
    | cons op operands =>
      obtain rfl : operands.length + 1 = j := (fetchBytes_eq_ok hf).2.1
      obtain ⟨u, h8, hrest⟩ := fetchBytes_succ_eq_ok.mp hf
      have hcfg : u.cfg = s.cfg := (fetch8_evolves h8).cfg
      simp only [State.FetchGoesOn] at hgoes
      simp only [fetchInstr, h8, ok_bind]
      cases hlen : instrLength op with
      | some n =>
        rw [hlen, Option.getD_some] at hgoes
        simp only [fetchBytes_stop hrest (show operands.length < n - 1 by omega) he, error_bind]
      | none =>
        rw [hlen, Option.getD_none] at hgoes
        split at hgoes
        · next hjn =>
          obtain rfl : operands = [] := List.length_eq_zero_iff.mp (by omega)
          cases hrest
          simp only [hcfg, if_pos hjn, fetch8, he, error_bind]
        · omega
  rw [step_of_ready hready, runNext, hfetch]

/-- A byte of the instruction lies at a missing register or in a hole: where the fetch has come to, its read stops. -/
theorem step_of_fetchStop_at {j : Nat} {bs : List Byte} (hready : s.Ready) (hf : fetchBytes j s = .ok (bs, t))
    (hgoes : s.FetchGoesOn bs) {a : Addr} (ha : s.pc + BitVec.ofNat 16 j = a)
    (he : ∀ u : State, u.cfg = s.cfg → memRead a u = .error e) : step s = finish (.error e) := by
  obtain ⟨hpc, -, hcfg⟩ := fetchBytes_eq_ok hf
  exact step_of_fetchStop hready hf hgoes (by rw [hpc, ha]; exact he t hcfg)

theorem memRead_missing_of_cfg (hn : ¬ s.HasReg n) (u : State) (hcfg : u.cfg = s.cfg) :
    memRead (n.setWidth 16) u = .error (.fault (.unimplementedRegister n)) :=
  memRead_missing (by rwa [State.HasReg, hcfg])

theorem memRead_unimplemented_of_cfg {a : Addr} (ha : placeOf s.cfg a = .unimplemented) (u : State)
    (hcfg : u.cfg = s.cfg) : memRead a u = .error (.fault (.unimplementedAddress a)) :=
  memRead_unimplemented (by rwa [hcfg])

/-! ### A stop of the stack -/

theorem execPush_missing {d : Single} (hd : s.HasReg d.num) (hn : ¬ s.HasReg (s.sp + 1#8)) :
    execPush d s = .fault (.unimplementedRegister (s.sp + 1#8)) := by
  rw [execPush, regRead_of_hasReg hd, ok_bind, push8_missing hn, error_bind, finish_fault]

theorem execPushSt_missing (hn : ¬ s.HasReg (s.sp + 1#8)) :
    execPushSt s = .fault (.unimplementedRegister (s.sp + 1#8)) := by
  have hpush (v : Byte) (d : Nat) :
      push8 v { s with draws := d } = .error (.fault (.unimplementedRegister (s.sp + 1#8))) :=
    push8_missing hn
  rw [execPushSt, statusLow_eq]
  dsimp only
  rw [hpush, error_bind, finish_fault]

theorem execCall_of_stop {f : ExtForm} (h : f.Available s) (hpush : push16 s.pc s = .error e) :
    execCall f s = finish (.error e) := by
  rw [execCall, effectiveAddr_of_available h, ok_bind, hpush, error_bind]

theorem execTrap_of_stop (k : Nat) (hpush : push16 s.pc s = .error e) : execTrap k s = finish (.error e) := by
  rw [execTrap, hpush, error_bind]

theorem execPop_missing (d : Single) (hn : ¬ s.HasReg s.sp) : execPop d s = .fault (.unimplementedRegister s.sp) := by
  rw [execPop, pop8_missing hn, error_bind, finish_fault]

theorem execPopSt_missing (hn : ¬ s.HasReg s.sp) : execPopSt s = .fault (.unimplementedRegister s.sp) := by
  rw [execPopSt, pop8_missing hn, error_bind, finish_fault]

theorem execRets_missing (hn : ¬ s.HasReg n) (h : s.sp = n ∨ (s.HasReg s.sp ∧ s.sp - 1#8 = n)) :
    execRets s = .fault (.unimplementedRegister n) := by
  rw [execRets, pop16_missing hn h, error_bind, finish_fault]

/-- `RETI` pops its third byte after the two of the return address. -/
theorem interruptReturn_missing (hn : ¬ s.HasReg n)
    (h : s.sp = n ∨ (s.HasReg s.sp ∧ (s.sp - 1#8 = n ∨ (s.HasReg (s.sp - 1#8) ∧ s.sp - 2#8 = n)))) :
    interruptReturn s = .error (.fault (.unimplementedRegister n)) := by
  unfold interruptReturn
  obtain h0 | ⟨h0, h1 | ⟨h1, rfl⟩⟩ := h
  · rw [pop16_missing hn (.inl h0), error_bind]
  · rw [pop16_missing hn (.inr ⟨h0, h1⟩), error_bind]
  · rw [pop16_eq_ok.mpr ⟨h0, h1, rfl, rfl⟩, ok_bind]
    dsimp only
    rw [pop8_missing (s := { s with sp := s.sp - 2#8 }) hn, error_bind]

/-- Interrupt entry pushes the status byte, then the two bytes of the return address. -/
theorem interruptEntry_missing (k : Nat) (hn : ¬ s.HasReg n)
    (h : s.sp + 1#8 = n ∨
      (s.HasReg (s.sp + 1#8) ∧ (s.sp + 2#8 = n ∨ (s.HasReg (s.sp + 2#8) ∧ s.sp + 3#8 = n)))) :
    interruptEntry k s = .error (.fault (.unimplementedRegister n)) := by
  rw [interruptEntry, statusLow_eq]
  dsimp only
  obtain rfl | ⟨h1, h⟩ := h
  · have hstatus (v : Byte) (d : Nat) : push8 v { s with idle := false, draws := d } =
        .error (.fault (.unimplementedRegister (s.sp + 1#8))) := push8_missing hn
    rw [hstatus, error_bind]
  · have hret {v : State} (hsp : v.sp = s.sp + 1#8) (hcfg : v.cfg = s.cfg) (w : Addr) :
        push16 w v = .error (.fault (.unimplementedRegister n)) := by
      refine push16_missing (by rwa [State.HasReg, hcfg]) ?_
      rw [hsp, sp_add_one_one, sp_add_one_two, State.HasReg, hcfg]
      exact h
    rw [push8_entryStatus h1, ok_bind, hret (by rfl) (by rfl), error_bind]

end Sys2Proof.Machine

namespace Sys2Proof

open Sys2Proof.Machine

/-- Settles O23: the pair is refused before anything else, but for the source of `MOVD`, which is read first. -/
theorem pairAtRegisterZeroStops : Obligations.PairAtRegisterZeroStops := by
  intro s
  obtain ⟨hpair, hmovd⟩ := exec_pair_of_stop (readPair_zero s)
  simp only [List.forall_mem_cons] at hpair ⊢
  obtain ⟨hdecd, hlda, hsta, hbr, hcmpa, hcall, -⟩ := hpair
  exact ⟨⟨hdecd, hdecd, hlda, hsta, hbr, hcmpa, hcall, nofun⟩, hmovd, exec_movd_dest_of_stop (writePair_zero · s)⟩

/-- Settles O24: whatever names the register, the operation that comes to it stops. -/
theorem missingRegisterStops : Obligations.MissingRegisterStops := by
  intro s n hn
  refine ⟨fun f ofst h => exec_dual_of_stop ofst (readDual_missing hn h), fun f h => execMov_missing hn h,
    fun ofst => exec_single_missing ofst hn, execPop_missing_dest hn, fun p hp h => ?_, fun f hf haddr => ?_,
    fun j bs t hready hfetch hgoes hpc => step_of_fetchStop_at hready hfetch hgoes hpc (memRead_missing_of_cfg hn)⟩
  · obtain ⟨hpair, hmovd⟩ := exec_pair_of_stop (readPair_missing hn hp h)
    exact ⟨hpair, hmovd, exec_movd_dest_of_stop fun w => writePair_missing w hn hp h⟩
  · exact exec_data_of_stop hf (by rw [haddr]; exact memRead_missing hn)
      fun v => by rw [haddr]; exact memWrite_missing v hn

/-- Settles O25: ROM refuses writes; a hole stops the access, the fetch or the vector read that comes to it. -/
theorem romWritesAndHolesStop : Obligations.RomWritesAndHolesStop := by
  refine fun s => ⟨fun f hf => ⟨fun hrom => execSta_of_stop hf fun v => memWrite_rom v hrom, fun hhole =>
      exec_data_of_stop hf (memRead_unimplemented hhole) fun v => memWrite_unimplemented v hhole⟩,
    fun j bs t hready hfetch hgoes hhole =>
      step_of_fetchStop_at hready hfetch hgoes rfl (memRead_unimplemented_of_cfg hhole), ?_⟩
  rintro k hi lo a hk rfl rfl hhole ha
  rw [← vectorAddr_succ hk] at ha
  have hvec (u : State) (hcfg : u.cfg = s.cfg) : readVector k u = .error (.fault (.unimplementedAddress a)) := by
    rw [← hcfg] at hhole ha
    exact readVector_unimplemented hk hhole ha
  refine ⟨fun h1 h2 => ?_, fun hreset hi hmem hmin h1 h2 h3 => ?_, ?_⟩
  · change execTrap k s = _
    rw [execTrap_eq k h1 h2, hvec s.trapStart rfl]
    rfl
  · rw [step_of_accepted hreset (acceptedLevel_eq_some hi hmem hmin), interruptEntry_eq k h1 h2 h3,
      hvec (s.entryStart _) rfl]
    rfl
  · rintro rfl hreset
    rw [step_of_resetReq hreset, resetSequence_eq, hvec s.resetStart rfl]
    rfl

/-- Settles O60: each push and each pop stops at the first of its bytes that is missing. -/
theorem missingStackByteStops : Obligations.MissingStackByteStops := by
  intro s n hn
  refine ⟨?_, fun h => ⟨fun f hf => execCall_of_stop hf (push16_missing hn h),
    fun k => execTrap_of_stop k (push16_missing hn h)⟩,
    ?_, fun h => execRets_missing hn h, fun h => ?_, fun hreset hi hpending h => ?_⟩
  · rintro rfl
    exact ⟨fun d hd => execPush_missing hd hn, execPushSt_missing hn⟩
  · rintro rfl
    exact ⟨fun d => execPop_missing d hn, execPopSt_missing hn⟩
  · change finish (interruptReturn s) = _
    rw [interruptReturn_missing hn h, finish_fault]
  · obtain ⟨k, hk⟩ := exists_acceptedLevel hi hpending
    rw [step_of_accepted hreset hk, interruptEntry_missing k hn h, finish_fault]

end Sys2Proof
